-- ==== Sys2Proof/Word.lean ====
section
/-! DEFINITION. The word types of the block: a byte, and nothing wider held in any memory
(spec/00_scope.md R18, spec/20_memory.md R56). -/

namespace Sys2Proof

/-- A byte is 8 bits, and every memory holds bytes (R18). -/
abbrev Byte := BitVec 8

/-- The two streams of a command (R22, R51). The result register's `info` names one of them (R23). -/
inductive Side where
  | source
  | sink
deriving DecidableEq, Repr

end Sys2Proof
end

