-- ==== Sys2Proof/Config.lean ====
section
/-! DEFINITION. The implementation parameters, each at this hardware's one value
(spec/00_scope.md R6 to R17; log entry 17), and the bytes of the sources that never end. No other value is
free: the spec fixes every value an operation computes (spec/93_implementation_defined.md). -/

namespace Sys2Proof.Config

/-- Window capacity, in bytes (R6). -/
def W : Nat := 8192

/-- Guard size, in bytes (R7). -/
def G : Nat := 256

/-- Size of the physical window ring (R8). -/
def NW : Nat := 2 * W

/-- Slot size: the largest chunk one refill reads (R9). -/
def S : Nat := W

/-- Width of a bucket number (R10). -/
def HASH_BITS : Nat := 13

/-- Number of buckets (R10). -/
def NB : Nat := 2 ^ HASH_BITS

/-- Position slots of one bucket (R11). -/
def CHAIN : Nat := 8

/-- Minimum match length, and minimum usable candidate distance (R12). -/
def MIN_MATCH : Nat := 3

/-- Maximum match length (R13). -/
def MAX_MATCH : Nat := 255

/-- Largest literal length of one literal token (R14; spec/90_conflicts.md C1). -/
def LIT_MAX : Nat := 16383

/-- Capacity of the output ring, in bytes (R15). -/
def C : Nat := 8192

/-- Half the output ring (R15). -/
def H : Nat := C / 2

/-- The hash multiplier (R16). -/
def KNUTH : BitVec 32 := 2654435769#32

/-- The constraints a choice of parameters must keep (R17). -/
def Legal : Prop :=
  254 ≤ G ∧ G ≤ W ∧ W ≤ 16383 ∧ W % 2 = 0 ∧ C % 2 = 0 ∧ W ≤ C ∧
    HASH_BITS = 13 ∧ CHAIN = 8 ∧ MIN_MATCH = 3 ∧ MAX_MATCH = 255 ∧ LIT_MAX = 16383

/-- Byte `i` of the never-ending source number `stream` a host may supply (spec/41_compressor.md R122). It has no
value in the model: a claim holds for every such source (log entry 19). -/
opaque hostByte (stream i : Nat) : Byte

end Sys2Proof.Config
end

