-- ==== Sys2Proof/Syntax.lean ====
section
/-! DEFINITION. The instructions: one constructor per row of spec/opcode_table.json. -/

namespace Sys2Proof

/-- The block's instructions.

`lit` and `matchTok` are the two instructions of the token program (spec/43_decompressor.md R146, R150,
R151). Their operand is the token's first byte `b1`, as in the spec's `LIT(b1)` and `MATCH(b1)`; the
instruction itself reads the bytes that follow from the source stream, one at a time and only as far as it
gets (R79: no lookahead; R137: each field is checked before the next byte is requested). A whole token,
with every field, is `Token` (Sys2Proof/Syntax/Token.lean).

`compress` and `decompress` are the two commands, chosen by the `mode` field of the command record
(spec/30_encoding.md R83); the record's other fields are state (spec/10_state.md R22). -/
inductive Instr where
  /-- LIT: a literal token (R73, R150). -/
  | lit (b1 : Byte)
  /-- MATCH: a match token with its trailing literal (R74, R151). -/
  | matchTok (b1 : Byte)
  /-- COMPRESS: `mode = 0` (R83, R101). -/
  | compress
  /-- DECOMPRESS: `mode = 1` (R83, R146). -/
  | decompress
deriving DecidableEq, Repr

end Sys2Proof
end

