-- ==== Sys2Proof/Syntax/Token.lean ====
section
/-! DEFINITION. A whole token of the wire format, field by field (spec/30_encoding.md R71, R73, R74, R84). -/

namespace Sys2Proof

/-- A token as the listing syntax writes it (R84): `LIT [hh ..]` and `MATCH d, l, 0xhh`. -/
inductive Token where
  /-- A literal run: the raw bytes; the length field is their count (R73, R75). -/
  | lit (payload : List Byte)
  /-- A match: distance, length, trailing literal byte (R74, R76, R77). -/
  | matchTok (dist : Nat) (len : Nat) (trail : Byte)
deriving DecidableEq, Repr

/-- Bytes of a token in the stream: `2 + L` for LIT, 4 for MATCH (R79). -/
def Token.size : Token → Nat
  | .lit payload => 2 + payload.length
  | .matchTok _ _ _ => 4

end Sys2Proof
end

