-- ==== Sys2Proof/WellFormed.lean ====
section
/-! DEFINITION. Which instructions and tokens the formats admit (spec/30_encoding.md R72, R75 to R77, R80,
R81; spec/42_token_codec.md R132). -/

namespace Sys2Proof

/-- The type discriminant is bit 0 of `b1`: 1 selects LIT and 0 selects MATCH (R72). A command has no
operand, and every value of `mode` is a command (R83). -/
abbrev Instr.WellFormed : Instr → Prop
  | .lit b1 => b1.getLsbD 0 = true
  | .matchTok b1 => b1.getLsbD 0 = false
  | .compress => True
  | .decompress => True

/-- What the decoder accepts: `1 ≤ L ≤ LIT_MAX` (R75), `1 ≤ D ≤ C` (R76), `3 ≤ Lm ≤ 255` (R77). This
includes what the encoder never writes (R81). -/
abbrev Token.WellFormed : Token → Prop
  | .lit payload => 1 ≤ payload.length ∧ payload.length ≤ Config.LIT_MAX
  | .matchTok dist len _ =>
    1 ≤ dist ∧ dist ≤ Config.C ∧ Config.MIN_MATCH ≤ len ∧ len ≤ Config.MAX_MATCH

/-- What the encoder writes: `3 ≤ d ≤ W` and `3 ≤ l ≤ min(255, d)` (spec/41_compressor.md R124). -/
abbrev Token.Emitted : Token → Prop
  | .lit payload => 1 ≤ payload.length ∧ payload.length ≤ Config.LIT_MAX
  | .matchTok dist len _ =>
    Config.MIN_MATCH ≤ dist ∧ dist ≤ Config.W ∧
      Config.MIN_MATCH ≤ len ∧ len ≤ min Config.MAX_MATCH dist

end Sys2Proof
end

