-- ==== Sys2Proof/Decode.lean ====
section
/-! DEFINITION. The token codec (spec/30_encoding.md R71 to R84, spec/42_token_codec.md R131 to R137): the
fields of the wire format with their checks, the decoder of the instructions and of whole tokens, and after
them the encoder. -/

namespace Sys2Proof

/-- The four ways a token can be corrupt (spec/60_exceptions.md R171, R174). -/
inductive Corrupt where
  /-- The stream ends inside a token. -/
  | truncatedToken
  /-- `L = 0` or `L > LIT_MAX`. -/
  | invalidLiteralLength
  /-- `D = 0` or `D > C`. -/
  | invalidMatchDistance
  /-- `Lm < MIN_MATCH` or `Lm > MAX_MATCH`. -/
  | invalidMatchLength
deriving DecidableEq, Repr

namespace Decode

/-! ### Fields -/

/-- `zext_15(b1[7:1]) | (zext_15(b2[7:0]) << 7)`: the 15-bit length or distance of a token (R75, R76). Bit 7
of `b2` is kept, so that a set reserved bit makes the field too large (R78). -/
def field (b1 b2 : Byte) : BitVec 15 :=
  (b1.extractLsb' 1 7).zeroExtend 15 ||| (b2.zeroExtend 15 <<< 7)

/-- The check of a literal length (R134). -/
def checkLitLength (L : BitVec 15) : Option Corrupt :=
  if L = 0 ∨ Config.LIT_MAX < L.toNat then some .invalidLiteralLength else none

/-- The check of a match distance (R135). -/
def checkDistance (D : BitVec 15) : Option Corrupt :=
  if D = 0 ∨ Config.C < D.toNat then some .invalidMatchDistance else none

/-- The check of a match length (R136). -/
def checkMatchLength (Lm : Byte) : Option Corrupt :=
  if Lm.toNat < Config.MIN_MATCH ∨ Config.MAX_MATCH < Lm.toNat then some .invalidMatchLength else none

/-! ### Instructions -/

/-- Where an instruction is encoded: the first byte of a token (R72), or the `mode` field of the command
record (R83). The two are separate places; both use the values 0 and 1 (log entry 3). -/
inductive Code where
  | header (b1 : Byte)
  | mode (m : BitVec 1)
deriving DecidableEq, Repr

/-- DecodeType (R133): every byte value is a legal first byte (R72). -/
def header (b1 : Byte) : Instr :=
  if b1.getLsbD 0 then .lit b1 else .matchTok b1

/-- `mode = 0` is COMPRESS, `mode = 1` is DECOMPRESS; every value is a command (R83). -/
def mode (m : BitVec 1) : Instr :=
  if m = 0 then .compress else .decompress

/-- The decoder of instructions. It has nothing to reject: no first byte and no mode is illegal (R72, R83).
What is illegal inside a token is rejected, by name, where its field is read (R137): `checkLitLength`,
`checkDistance`, `checkMatchLength`, and for a whole token `token`. -/
def instr : Code → Instr
  | .header b1 => header b1
  | .mode m => mode m

/-! ### Whole tokens -/

/-- A literal token from its second byte on (R73, R134, R150). -/
def litToken (b1 : Byte) : List Byte → Except Corrupt (Token × List Byte)
  | [] => .error .truncatedToken
  | b2 :: rest =>
    match checkLitLength (field b1 b2) with
    | some e => .error e
    | none =>
      let L := (field b1 b2).toNat
      if rest.length < L then .error .truncatedToken
      else .ok (.lit (rest.take L), rest.drop L)

/-- A match token from its second byte on (R74, R135, R136, R151). -/
def matchToken (b1 : Byte) : List Byte → Except Corrupt (Token × List Byte)
  | [] => .error .truncatedToken
  | b2 :: rest =>
    match checkDistance (field b1 b2) with
    | some e => .error e
    | none =>
      match rest with
      | [] => .error .truncatedToken
      | b3 :: rest =>
        match checkMatchLength b3 with
        | some e => .error e
        | none =>
          match rest with
          | [] => .error .truncatedToken
          | b4 :: rest => .ok (.matchTok (field b1 b2).toNat b3.toNat b4, rest)

/-- One whole token and the bytes after it, or the name of what is wrong with it; `none` at the end of the
stream, which is a token boundary (R71, R79, R80). -/
def token : List Byte → Option (Except Corrupt (Token × List Byte))
  | [] => none
  | b1 :: rest => some (if b1.getLsbD 0 then litToken b1 rest else matchToken b1 rest)

end Decode

/-! ### The encoder -/

namespace Encode

/-- EncodeLit (R131): the header of a literal token; the caller appends the payload. -/
def lit (L : BitVec 14) : List Byte :=
  [((L.extractLsb' 0 7).zeroExtend 8 <<< 1) ||| 1#8, (L.extractLsb' 7 7).zeroExtend 8]

/-- EncodeMatch (R132): a whole match token. -/
def matchTok (d : BitVec 14) (l t : Byte) : List Byte :=
  [(d.extractLsb' 0 7).zeroExtend 8 <<< 1, (d.extractLsb' 7 7).zeroExtend 8, l, t]

/-- A whole token as bytes (R73, R74). -/
def token : Token → List Byte
  | .lit payload => lit (BitVec.ofNat 14 payload.length) ++ payload
  | .matchTok d l t => matchTok (BitVec.ofNat 14 d) (BitVec.ofNat 8 l) t

/-- A token program as bytes: nothing between the tokens and no header (R71). -/
def tokens (ts : List Token) : List Byte :=
  ts.flatMap token

/-- An instruction in the place it is encoded in (R72, R83). -/
def instr : Instr → Decode.Code
  | .lit b1 => .header b1
  | .matchTok b1 => .header b1
  | .compress => .mode 0
  | .decompress => .mode 1

end Encode

/-! ### Listing (R84) -/

namespace Listing

/-- One hexadecimal digit. -/
def digit (n : Nat) : Char :=
  if n < 10 then Char.ofNat (48 + n) else Char.ofNat (87 + n)

/-- A byte as two hexadecimal digits. -/
def hex (b : Byte) : String :=
  String.ofList [digit (b.toNat / 16), digit (b.toNat % 16)]

/-- `LIT [hh hh ..]` or `MATCH d, l, 0xhh` (R84). -/
def token : Token → String
  | .lit payload => "LIT [" ++ String.intercalate " " (payload.map hex) ++ "]"
  | .matchTok d l t => "MATCH " ++ toString d ++ ", " ++ toString l ++ ", 0x" ++ hex t

/-- The one pseudo-instruction: a LIT of more than 16383 bytes stands for LITs of 16383 bytes and then the
remainder (R84). `fuel` bounds the number of pieces; the count of the bytes is enough. -/
def longLitFrom : Nat → List Byte → List Token
  | 0, _ => []
  | fuel + 1, bytes =>
    if bytes = [] then []
    else .lit (bytes.take Config.LIT_MAX) :: longLitFrom fuel (bytes.drop Config.LIT_MAX)

/-- The tokens a long LIT stands for (R84). -/
def longLit (bytes : List Byte) : List Token :=
  longLitFrom bytes.length bytes

end Listing

/-! ### Words of the opcode table -/

/-- Bytes of the longest instruction: a LIT of 16383 payload bytes (R79). -/
def maxTokenBytes : Nat := 2 + Config.LIT_MAX

/-- The first `nbits` bits of `w` as bytes, least significant first, at least one of them. The token wire
format is byte-oriented and starts at its first byte (R71). -/
def tableBytes (nbits w : Nat) : List Byte :=
  (List.range (max 1 ((nbits + 7) / 8))).map fun i => BitVec.ofNat 8 ((w % 2 ^ nbits) >>> (8 * i))

/-- The instruction the decoder reads from a word of the opcode table. The word is read as a token's bytes:
only the token wire format has instruction words. The table's rows COMPRESS and DECOMPRESS stand for the
one-bit `mode` field of the command record, whose values 0 and 1 are also MATCH's and LIT's words; those
are decoded by `Decode.mode` (log entry 3). -/
def decodeTableWord (nbits w : Nat) : Option Instr :=
  match tableBytes nbits w with
  | [] => none
  | b1 :: _ => some (Decode.instr (.header b1))

end Sys2Proof
end

