-- ==== Sys2Proof/Machine/State.lean ====
section
/-! DEFINITION. The state of the block as plain data (spec/10_state.md), what its streams and its host
supply (spec/20_memory.md R51 to R55), and the state after reset (spec/70_reset_and_hazards.md R196 to
R198). -/

namespace Sys2Proof.Machine

/-- A memory of `w`-bit elements: (index, value) pairs, indices strictly rising, no value 0; an unlisted
index reads as 0 (R25, R33, R34, R36). `Cells 8` is a list of `Host.Cell`. -/
abbrev Cells (w : Nat) := List (Nat × BitVec w)

/-- The engine is idle or running one command (R21). -/
inductive Engine where
  | idle
  | compress
  | decompress
deriving DecidableEq, Repr

/-- The command record (R22). -/
structure CommandRecord where
  mode : BitVec 1
  srcPresent : Bool
  sinkPresent : Bool
deriving DecidableEq, Repr

/-- The closed error taxonomy (spec/60_exceptions.md R171). -/
inductive Err where
  /-- An absent stream, reported before any byte is read (R173). -/
  | precondition (which : Side)
  /-- A corrupt token stream, DECOMPRESS only (R174). -/
  | corrupt (what : Corrupt)
  /-- A failed stream call (R176). -/
  | io (which : Side)
deriving DecidableEq, Repr

/-- The result register (R23): OK, or the one error the command ended with. Code 7 has no value here
(R172; spec/93_implementation_defined.md U11). -/
inductive Result where
  | ok
  | error (e : Err)
deriving DecidableEq, Repr

/-- `result.code` (R172). -/
def Result.code : Result → BitVec 3
  | .ok => 0
  | .error (.precondition _) => 1
  | .error (.corrupt .truncatedToken) => 2
  | .error (.corrupt .invalidLiteralLength) => 3
  | .error (.corrupt .invalidMatchDistance) => 4
  | .error (.corrupt .invalidMatchLength) => 5
  | .error (.io _) => 6

/-- `result.info` (R23, R172). -/
def Result.info : Result → Option Side
  | .error (.precondition which) => some which
  | .error (.io which) => some which
  | _ => none

/-- What the host's I/O oracle says about one stream call (R55). -/
inductive IoEvent where
  /-- The call succeeds in full. -/
  | ok
  /-- A `SrcRead` returns at most `m` bytes although more remain: a breach of the host's duty, which the
  block takes for the end of the input (R52). Other calls take it as `ok`. -/
  | short (m : Nat)
  /-- The call fails (R176). A failing `SinkWrite` has delivered the first `delivered` of its bytes. -/
  | fail (delivered : Nat)
deriving DecidableEq, Repr

/-- The rest of a source that never ends (spec/41_compressor.md R122; U7): which of the host's never-ending
sources it is, and the number of the byte that comes next (log entry 19). -/
structure Endless where
  stream : Nat
  next : Nat
deriving DecidableEq, Repr

/-- Its next `count` bytes. -/
def Endless.bytes (e : Endless) (count : Nat) : List Byte :=
  (List.range count).map fun j => Config.hostByte e.stream (e.next + j)

/-- The rest after its next `count` bytes. -/
def Endless.skip (e : Endless) (count : Nat) : Endless :=
  { e with next := e.next + count }

/-- One call of the host: the command record it writes and the streams it supplies (R22, R200). -/
structure HostCall where
  record : CommandRecord
  source : List Byte
  /-- What follows `source`: nothing, or a source that never ends. -/
  endless : Option Endless
  io : List IoEvent
deriving DecidableEq, Repr

/-- The decoder states (R42, R148). -/
inductive Fsm where
  | readTokenHeader
  | readLiteralBody
  | readMatchFields
  | maybeFlush
  | done
deriving DecidableEq, Repr

/-- The match-search registers, transient within one scan step (R32). -/
structure Search where
  bestLen : Nat
  bestDist : Nat
  /-- `LA`, the lookahead limit (R110). -/
  la : Nat
  cand : List (BitVec 14)
  /-- `len`, the extension counter (R112). -/
  len : Nat
deriving DecidableEq, Repr

/-- The state of the block. Fields up to `io` are its interface, then the compressor (R24 to R32), the
hash-chain index (R33, R34) and the decompressor (R36 to R42). `host` and `io` are the model's own: inputs
held as data (log entries 2 and 4). -/
structure State where
  /-- The host's future calls, oldest first. -/
  host : List HostCall
  engine : Engine
  cmd : CommandRecord
  result : Result
  /-- Source bytes not yet delivered (R52, R53). -/
  source : List Byte
  /-- What follows them: nothing, or a source that never ends (R122). -/
  endless : Option Endless
  /-- The bytes each `SinkWrite` of this command delivered, first call first (R54). -/
  sink : List (List Byte)
  /-- The oracle's answers to the coming stream calls, next one first; past its end every call succeeds. -/
  io : List IoEvent
  cursor : Nat
  /-- `WB`, the window buffer (R25). -/
  wb : Cells 8
  border : Nat
  k : Nat
  n : Nat
  P : Nat
  litStart : Nat
  search : Search
  /-- `slot[h][j]` at index `8 * h + j` (R33). -/
  slots : Cells 14
  /-- `rr[h]` at index `h` (R34). -/
  rr : Cells 3
  ring : Cells 8
  inPos : Nat
  wcur : Nat
  produced : Nat
  flushed : Nat
  nextHalf : BitVec 1
  fsm : Fsm
  b1 : Byte
  b2 : Byte
  L : BitVec 15
  D : BitVec 15
  Lm : Byte
deriving DecidableEq, Repr

/-- What stops the machine. The spec gives the block no stop: every error is an abort (R175), a next state.
The one fault stands for states the spec does not describe. -/
inductive Fault where
  /-- Raised by the fetch, when DECOMPRESS runs and `fsm` is not `ReadTokenHeader` between two tokens. No
  run reaches such a state, since a token runs to its end or aborts (R148). Safe (log entry 15). -/
  | midToken
deriving DecidableEq, Repr

/-- Why an instruction has no meaning. -/
inductive Refusal where
  /-- Raised by an arm of `exec` whose instruction is not modelled yet; no arm is. Safe. -/
  | notModelled (mnemonic : String)
deriving DecidableEq, Repr

/-- The start values of the search registers (D11 of spec/92_eei_decisions.md); R32 says that none needs one, and none
is given for power-up (log entry 11). -/
def Search.reset : Search :=
  { bestLen := 0, bestDist := 0, la := 0, cand := List.replicate 8 0, len := 0 }

/-- The machine at power-up: Idle (R196), every register at the value R197 and R198 give it for the start of
a command, and no host call yet. The result register, the command record, the search registers and the
field registers have no value in the spec (log entries 8 to 12). -/
def State.reset : State where
  host := []
  engine := .idle
  cmd := { mode := 0, srcPresent := false, sinkPresent := false }
  result := .ok
  source := []
  endless := none
  sink := []
  io := []
  cursor := 0
  wb := []
  border := 0
  k := 0
  n := 0
  P := 0
  litStart := 0
  search := Search.reset
  slots := []
  rr := []
  ring := []
  inPos := 0
  wcur := 0
  produced := 0
  flushed := 0
  nextHalf := 0
  fsm := .readTokenHeader
  b1 := 0
  b2 := 0
  L := 0
  D := 0
  Lm := 0

end Sys2Proof.Machine
end

