-- ==== Sys2Proof/Machine/Mem.lean ====
section
/-! DEFINITION. Reading and writing one element of a memory (spec/20_memory.md R56, R59, R63), and the
canonical form every memory keeps. -/

namespace Sys2Proof.Machine.Mem

/-- The element at index `a`; 0 where nothing is listed (R25, R33, R34, R36). -/
def read {w : Nat} : Cells w → Nat → BitVec w
  | [], _ => 0
  | (b, v) :: m, a => if a = b then v else read m a

/-- Puts `v` at the front, or nothing if `v` is what an unlisted index reads as. -/
def cons {w : Nat} (a : Nat) (v : BitVec w) (m : Cells w) : Cells w :=
  if v = 0 then m else (a, v) :: m

/-- Writes `v` at index `a`, in canonical form. -/
def write {w : Nat} : Cells w → Nat → BitVec w → Cells w
  | [], a, v => cons a v []
  | (b, u) :: m, a, v =>
    if a < b then cons a v ((b, u) :: m)
    else if a = b then cons a v m
    else (b, u) :: write m a v

/-- Writes the elements of a list at `a`, `a + 1`, … in order. -/
def writeList {w : Nat} (m : Cells w) (a : Nat) : List (BitVec w) → Cells w
  | [] => m
  | v :: vs => writeList (write m a v) (a + 1) vs

/-- Canonical form: indices strictly rising, no listed 0. -/
abbrev WF {w : Nat} (m : Cells w) : Prop :=
  m.Pairwise (fun x y => x.1 < y.1) ∧ ∀ x ∈ m, x.2 ≠ 0

/-- Every listed index is below `size`. -/
abbrev Within {w : Nat} (m : Cells w) (size : Nat) : Prop :=
  ∀ x ∈ m, x.1 < size

end Sys2Proof.Machine.Mem
end

