-- ==== Sys2Proof/Machine/Ops.lean ====
section
/-! DEFINITION. The shared operations: the steps of a command as a computation over the state that may raise
an error, the three stream calls (spec/20_memory.md R52 to R55), and the abort, the block's one way of
taking an exception (spec/60_exceptions.md R175). -/

namespace Sys2Proof.Machine

/-- A piece of a command: it reads and changes the state, and either goes on with a value or raises an error.
The state at the point of detection is kept (R175). -/
abbrev M (α : Type) := EStateM Err State α

/-- The outcome of an `M α`. -/
abbrev MResult (α : Type) := EStateM.Result Err State α

namespace M

/-- Reads something of the state. -/
def reads {α : Type} (f : State → α) : M α :=
  fun s => .ok (f s) s

/-- Changes the state. -/
def upd (f : State → State) : M Unit :=
  fun s => .ok () (f s)

/-- `raise E(info)` (spec/00_scope.md R19). -/
def raise {α : Type} (e : Err) : M α :=
  fun s => .error e s

end M

/-- The abort (R175): the result is written and the engine returns to Idle. Every other register keeps its
value, and no stream call is made. There is no return from it (R180): the next command starts from reset. -/
def abort (e : Err) (s : State) : State :=
  { s with result := .error e, engine := .idle }

/-- The normal end of a command: `result <- OK`, and the engine returns to Idle (R101, R146). -/
def complete (s : State) : State :=
  { s with result := .ok, engine := .idle }

/-- Runs a piece of a command and takes the abort if it raised an error. -/
def settle (m : M Unit) (s : State) : State :=
  match m s with
  | .ok _ t => t
  | .error e t => abort e t

/-- The next `n` bytes of the source; fewer only where the source ends (R52). -/
def ahead (n : Nat) (s : State) : List Byte :=
  s.source.take n ++ s.endless.elim [] (·.bytes (n - s.source.length))

/-- The source after its next `n` bytes have been delivered (R59). -/
def advance (n : Nat) (s : State) : State :=
  { s with source := s.source.drop n, endless := s.endless.map (·.skip (n - s.source.length)) }

/-- `SrcRead(n)` (R52): the next `min(n, remaining)` bytes, or fewer where the oracle says so, or a failure
(R176). -/
def srcRead (n : Nat) : M (List Byte) := fun s =>
  match s.io with
  | .fail _ :: io => .error (.io .source) { s with io := io }
  | .short m :: io =>
    .ok (ahead (min m n) s) { advance (min m n) s with io := io }
  | _ => .ok (ahead n s) { advance n s with io := s.io.tail }

/-- `SrcByte()` (R53): the next byte, or `none` for `EOF`, or a failure (R176). `inPos` counts the bytes
delivered (R37). `EOF` is no byte: the register of `b <- SrcByte()` keeps its old value then (R19 is silent; log
entry 27). -/
def srcByte : M (Option Byte) := fun s =>
  match s.io with
  | .fail _ :: io => .error (.io .source) { s with io := io }
  | _ =>
    match ahead 1 s with
    | [] => .ok none { s with io := s.io.tail }
    | x :: _ => .ok (some x) { advance 1 s with io := s.io.tail, inPos := s.inPos + 1 }

/-- `SinkWrite(list)` (R54). A failing call has delivered the leading bytes the oracle names (R176). -/
def sinkWrite (bytes : List Byte) : M Unit := fun s =>
  match s.io with
  | .fail delivered :: io =>
    .error (.io .sink) { s with io := io, sink := s.sink ++ [bytes.take delivered] }
  | _ => .ok () { s with io := s.io.tail, sink := s.sink ++ [bytes] }

end Sys2Proof.Machine
end

