-- ==== Sys2Proof/Machine/Flags.lean ====
section
/-! DEFINITION. The block has no condition codes and no status flags beyond the result register
(spec/10_state.md R44), so no operation computes a flag. What a command tests before it starts are the two
presence bits of the command record. -/

namespace Sys2Proof.Machine

/-- CheckPreconditions of both commands (spec/41_compressor.md R102, spec/43_decompressor.md R147): the
source is checked first, and no stream call is made. -/
def checkPreconditions : M Unit := fun s =>
  if s.cmd.srcPresent = false then .error (.precondition .source) s
  else if s.cmd.sinkPresent = false then .error (.precondition .sink) s
  else .ok () s

end Sys2Proof.Machine
end

