-- ==== Sys2Proof/Machine/Operands.lean ====
section
/-! DEFINITION. Where operands come from: the window by physical index or modulo `NW` (spec/20_memory.md
R61), the ring modulo `C` (R62), and the next byte of a token (spec/43_decompressor.md R150, R151). -/

namespace Sys2Proof.Machine

/-- A scan read `WB[i]`, by physical index (R61). -/
def windowByte (s : State) (i : Nat) : Byte :=
  Mem.read s.wb i

/-- The first `len` bytes of the pending run, `WB[(litStart + j) mod NW]` (R61, R121). -/
def pendingBytes (s : State) (len : Nat) : List Byte :=
  (List.range len).map fun j => windowByte s ((s.litStart + j) % Config.NW)

/-- A ring read `ring[i mod C]` (R62). -/
def ringByte (s : State) (i : Nat) : Byte :=
  Mem.read s.ring (i % Config.C)

/-- `ring[(wcur - D) mod C]`, the source of a copy (R62, R152). -/
def copyByte (s : State) (D : Nat) : Byte :=
  ringByte s (s.wcur % Config.C + Config.C - D)

/-- The first `len` bytes of the half that is flushed next, `ring[nextHalf*H + j]` (R156, R157). -/
def halfBytes (s : State) (len : Nat) : List Byte :=
  (List.range len).map fun j => ringByte s (s.nextHalf.toNat * Config.H + j)

/-- The next byte of a token: `EOF` inside a token is TruncatedToken (R150, R151, R158). -/
def tokenByte : M Byte := do
  match ← srcByte with
  | none => M.raise (.corrupt .truncatedToken)
  | some x => pure x

end Sys2Proof.Machine
end

