-- ==== Sys2Proof/Machine/HashChain.lean ====
section
/-! DEFINITION. The hash-chain index: HASH, INSERT and CANDIDATES (spec/40_hash_chain_index.md R91 to R97).
It has no delete operation (R95) and no other state (R35). -/

namespace Sys2Proof.Machine

/-- HASH (R91): the top 13 bits of the 32-bit product of the three bytes, little-endian, and Knuth's
constant. -/
def hash3 (b0 b1 b2 : Byte) : BitVec 13 :=
  (((b2 ++ b1 ++ b0).zeroExtend 32) * Config.KNUTH).extractLsb' 19 13

/-- The hash of the three bytes at position `p`, read by physical index whatever they hold (R97). -/
def hashAt (s : State) (p : Nat) : BitVec 13 :=
  hash3 (windowByte s p) (windowByte s (p + 1)) (windowByte s (p + 2))

/-- Where `slot[h][j]` is held. -/
def slotIndex (h : BitVec 13) (j : Nat) : Nat :=
  Config.CHAIN * h.toNat + j

/-- `slot[h][j]` (R33). -/
def slotOf (s : State) (h : BitVec 13) (j : Nat) : BitVec 14 :=
  Mem.read s.slots (slotIndex h j)

/-- `rr[h]` (R34). -/
def counterOf (s : State) (h : BitVec 13) : BitVec 3 :=
  Mem.read s.rr h.toNat

/-- INSERT (R93): writes the slot the counter names, then increments the counter modulo 8. -/
def insertPos (h : BitVec 13) (p : Nat) (s : State) : State :=
  { s with
    slots := Mem.write s.slots (slotIndex h (counterOf s h).toNat) (BitVec.ofNat 14 p)
    rr := Mem.write s.rr h.toNat (counterOf s h + 1) }

/-- CANDIDATES (R94): the eight stored positions in slot order. -/
def candidates (s : State) (h : BitVec 13) : List (BitVec 14) :=
  (List.range Config.CHAIN).map (slotOf s h)

/-- The inserts after a match (R116): `count` positions from `q` on, in increasing order, each under the hash
of its own three bytes. -/
def insertSpan : Nat → Nat → State → State
  | 0, _, s => s
  | count + 1, q, s => insertSpan count (q + 1) (insertPos (hashAt s q) q s)

end Sys2Proof.Machine
end

