-- ==== Sys2Proof/Machine/Reset.lean ====
section
/-! DEFINITION. The reset at the start of a command (spec/70_reset_and_hazards.md R196 to R198). -/

namespace Sys2Proof.Machine

/-- ResetCompressorState (R197): the compressor and the index. The match-search registers are 0 as every register is
(D11 of spec/92_eei_decisions.md); the row of R197 says that none needs it. -/
def resetCompressor (s : State) : State :=
  { s with
    wb := []
    cursor := 0
    border := 0
    k := 0
    n := 0
    P := 0
    litStart := 0
    search := Search.reset
    slots := []
    rr := [] }

/-- ResetDecompressorState (R198): the decompressor. The field registers are 0 as every register is (D11 of
spec/92_eei_decisions.md); the row of R198 says that none needs it. -/
def resetDecompressor (s : State) : State :=
  { s with
    ring := []
    inPos := 0
    wcur := 0
    produced := 0
    flushed := 0
    nextHalf := 0
    fsm := .readTokenHeader
    b1 := 0
    b2 := 0
    L := 0
    D := 0
    Lm := 0 }

/-- The reset of the block as the engine takes the command `e` (R21, R196): every buffer byte and register has its
start value, whichever command starts (D11; spec/60_exceptions.md R175), so nothing an earlier command left stands,
but for the result (spec/10_state.md R46). The command record and the streams are the new command's (R22). -/
def resetBlock (e : Engine) (s : State) : State :=
  { resetCompressor (resetDecompressor s) with engine := e }

end Sys2Proof.Machine
end

