-- ==== Sys2Proof/Machine/Compress.lean ====
section
/-! DEFINITION. The SlidingWindowCompressor: the COMPRESS command (spec/41_compressor.md R101 to R121). The
`while` loops of the spec are recursions over a bound that the loop cannot reach (log entry 18). -/

namespace Sys2Proof.Machine

/-! ### Literal flushing -/

/-- The loop of FlushLiterals (R121), at most `fuel` tokens. -/
def flushLoop : Nat → M Unit
  | 0 => pure ()
  | fuel + 1 => do
    let P ← M.reads (·.P)
    if P = 0 then pure ()
    else
      let len := min P Config.LIT_MAX
      let run ← M.reads (pendingBytes · len)
      sinkWrite (Encode.lit (BitVec.ofNat 14 len))
      sinkWrite run
      M.upd fun s => { s with litStart := (s.litStart + len) % Config.NW, P := s.P - len }
      flushLoop fuel

/-- FlushLiterals (R121): emits the pending run as literal tokens. Each pass takes at least one byte of it. -/
def flushLiterals : M Unit := do
  let P ← M.reads (·.P)
  flushLoop P

/-! ### The search -/

/-- The candidate distance `(cursor - p) mod NW` (R111). -/
def distance (cursor : Nat) (p : BitVec 14) : Nat :=
  (cursor + Config.NW - p.toNat) % Config.NW

/-- The loop of Extend (R112) from `len` on, at most `fuel` passes. -/
def extendLoop (wb : Cells 8) (cursor p d la : Nat) : Nat → Nat → Nat
  | 0, len => len
  | fuel + 1, len =>
    if len < Config.MAX_MATCH ∧ len < d ∧ len < la ∧ len < Config.W ∧
        Mem.read wb (cursor + len) = Mem.read wb (p + len) then
      extendLoop wb cursor p d la fuel (len + 1)
    else len

/-- Extend (R112): the byte-for-byte comparison. The length stops at `MAX_MATCH`. -/
def extend (wb : Cells 8) (cursor p d la : Nat) : Nat :=
  extendLoop wb cursor p d la Config.MAX_MATCH 0

/-- One candidate of the search: skipped if its distance is unusable (R111), and the new best only if it is
strictly longer (R113). -/
def tryCandidate (wb : Cells 8) (cursor : Nat) (r : Search) (p : BitVec 14) : Search :=
  let d := distance cursor p
  if d < Config.MIN_MATCH ∨ Config.W < d then r
  else
    let len := extend wb cursor p.toNat d r.la
    if r.bestLen < len then { r with len := len, bestLen := len, bestDist := d }
    else { r with len := len }

/-- The search of a scan step (R109): the eight candidates in slot order, under the lookahead limit
`LA = border - cursor - 1` (R110). -/
def searchMatch (s : State) (h : BitVec 13) : Search :=
  (candidates s h).foldl (tryCandidate s.wb s.cursor)
    { s.search with bestLen := 0, bestDist := 0, la := s.border - s.cursor - 1, cand := candidates s h }

/-! ### The scan step -/

/-- MatchStep (R115): the pending run first, then the MATCH token with its trailing literal, then the inserts
of every position it covers (R116). -/
def matchStep (d l : Nat) : M Unit := do
  flushLiterals
  let t ← M.reads fun s => windowByte s (s.cursor + l)
  sinkWrite (Encode.matchTok (BitVec.ofNat 14 d) (BitVec.ofNat 8 l) t)
  M.upd fun s => insertSpan (l + 1) s.cursor s
  M.upd fun s =>
    { s with cursor := s.cursor + l + 1, litStart := (s.cursor + l + 1) % Config.NW, P := 0 }

/-- LiteralStep (R117): the byte joins the pending run. -/
def literalStep (h : BitVec 13) : M Unit :=
  M.upd fun s =>
    let s := insertPos h s.cursor s
    { s with cursor := s.cursor + 1, P := s.P + 1 }

/-- ScanStep (R109, R114): a match of at least `MIN_MATCH` bytes, or one literal byte. -/
def scanStep : M Unit := do
  let h ← M.reads fun s => hashAt s s.cursor
  M.upd fun s => { s with search := searchMatch s h }
  let r ← M.reads (·.search)
  if Config.MIN_MATCH ≤ r.bestLen then matchStep r.bestDist r.bestLen
  else literalStep h

/-- The scan loop (R108), at most `fuel` steps. -/
def scanLoop : Nat → M Unit
  | 0 => pure ()
  | fuel + 1 => do
    let inside ← M.reads fun s => decide (s.cursor < s.border)
    if inside then
      scanStep
      scanLoop fuel
    else pure ()

/-! ### The refill cycle -/

/-- Mirror (R106): `WB[NW + j] <- WB[j]` for `j` in `[0, G)`, in increasing `j`. -/
def mirror (wb : Cells 8) : Cells 8 :=
  (List.range Config.G).foldl (fun m j => Mem.write m (Config.NW + j) (Mem.read m j)) wb

/-- The base of the slot the next refill fills: parity 0 is slot 0, parity 1 is slot 1 (R28, R103). -/
def slotBase (s : State) : Nat :=
  s.k % 2 * Config.W

/-- What a refill does with the bytes it has read: the slot write (R105), the mirror after an even refill
(R106), and the border (R107). -/
def placeChunk (bytes : List Byte) (s : State) : State :=
  let wb := Mem.writeList s.wb (slotBase s) bytes
  { s with
    wb := if s.k % 2 = 0 then mirror wb else wb
    border := slotBase s + bytes.length }

/-- The cursor wrap (R118). -/
def wrapCursor (s : State) : State :=
  if Config.NW ≤ s.cursor then { s with cursor := s.cursor - Config.NW } else s

/-- The end-of-cycle force-flush (R119). -/
def forceFlush : M Unit := do
  let P ← M.reads (·.P)
  if Config.W ≤ P then flushLiterals else pure ()

/-- RefillCycle (R103): one pass of the main loop. The answer is `last_cycle`. The scan ends before the next
refill (R104, R203), since every scan step advances the cursor. -/
def refillCycle : M Bool := do
  let bytes ← srcRead Config.S
  M.upd fun s => { s with n := bytes.length }
  if bytes.length = 0 then pure true
  else
    M.upd (placeChunk bytes)
    let steps ← M.reads fun s => s.border - s.cursor
    scanLoop steps
    M.upd wrapCursor
    forceFlush
    if bytes.length < Config.S then pure true
    else
      M.upd fun s => { s with k := s.k + 1 }
      pure false

/-- The main loop of COMPRESS (R101), at most `fuel` refill cycles. The answer is whether the loop has ended. -/
def refillLoop : Nat → M Bool
  | 0 => pure false
  | fuel + 1 => do
    let last ← refillCycle
    if last then pure true else refillLoop fuel

/-- The refill cycles of one step (log entry 1). A cycle that is not the last one takes `S` bytes, so a source that
ends needs at most one cycle more than its bytes. A source that never ends is taken one cycle a step. -/
def cyclesPerStep (s : State) : Nat :=
  if s.endless = none then s.source.length + 1 else 1

/-- The refill cycles, then the end flush (R120), then `result <- OK`. On a source that never ends the loop does not
end (R122): the step leaves the engine in COMPRESS, and the next step goes on. -/
def compressBody : M Unit := do
  let cycles ← M.reads cyclesPerStep
  let ended ← refillLoop cycles
  if ended then
    flushLiterals
    M.upd complete
  else pure ()

/-- COMPRESS (R101) from its preconditions on. The reset comes after them (R196). -/
def compressCommand : M Unit := do
  checkPreconditions
  M.upd (resetBlock .compress)
  compressBody

/-- The meaning of COMPRESS (R101): it runs to its end in one step, unless its source never ends (log entry 1). -/
def execCompress (s : State) : Host.Outcome State Fault Refusal :=
  .next (settle compressCommand s)

end Sys2Proof.Machine
end

