-- ==== Sys2Proof/Machine/Decompress.lean ====
section
/-! DEFINITION. The CircularOutputDecompressor: the DECOMPRESS command and the two instructions of its token
program, LIT and MATCH (spec/43_decompressor.md R146 to R160). -/

namespace Sys2Proof.Machine

/-! ### Ring writes and flushing -/

/-- The first three lines of RingPut (R154): the byte is written and the cursor advances. -/
def storeByte (x : Byte) (s : State) : State :=
  { s with
    ring := Mem.write s.ring (s.wcur % Config.C) x
    wcur := (s.wcur + 1) % Config.C
    produced := s.produced + 1 }

/-- MaybeFlush (R156): a half that has just been completed goes to the sink. -/
def maybeFlush : M Unit := do
  let full ← M.reads fun s => decide (s.wcur = Config.H ∨ s.wcur = 0)
  if full then
    let half ← M.reads (halfBytes · Config.H)
    sinkWrite half
    M.upd fun s => { s with flushed := s.flushed + Config.H, nextHalf := 1 - s.nextHalf }
  else pure ()

/-- RingPut (R154). The token's state visits MaybeFlush and is returned to (R148). -/
def ringPut (x : Byte) : M Unit := do
  let back ← M.reads (·.fsm)
  M.upd (storeByte x)
  M.upd fun s => { s with fsm := .maybeFlush }
  maybeFlush
  M.upd fun s => { s with fsm := back }

/-! ### LIT -/

/-- The payload of a LIT (R150): each byte is read and put into the ring, so a truncated payload has been put
as far as it goes (D15 of spec/92_eei_decisions.md). -/
def litPayload : Nat → M Unit
  | 0 => pure ()
  | count + 1 => do
    let x ← tokenByte
    ringPut x
    litPayload count

/-- Raises a corrupt-stream error if a field check found one (R137). -/
def check : Option Corrupt → M Unit
  | none => pure ()
  | some e => M.raise (.corrupt e)

/-- LIT (R150). -/
def litCommand (b1 : Byte) : M Unit := do
  M.upd fun s => { s with fsm := .readLiteralBody }
  let b2 ← tokenByte
  let L := Decode.field b1 b2
  M.upd fun s => { s with b2 := b2, L := L }
  check (Decode.checkLitLength L)
  litPayload L.toNat
  M.upd fun s => { s with fsm := .readTokenHeader }

/-- The meaning of LIT (R150). -/
def execLit (b1 : Byte) (s : State) : Host.Outcome State Fault Refusal :=
  .next (settle (litCommand b1) s)

/-! ### MATCH -/

/-- Copy (R152): one byte at a time, each read before the write of the same byte (R201). -/
def copyLoop (D : Nat) : Nat → M Unit
  | 0 => pure ()
  | count + 1 => do
    let x ← M.reads (copyByte · D)
    ringPut x
    copyLoop D count

/-- MATCH (R151). The copy is made before the trailing byte is read, and that byte is data (R153, R207). -/
def matchCommand (b1 : Byte) : M Unit := do
  M.upd fun s => { s with fsm := .readMatchFields }
  let b2 ← tokenByte
  let D := Decode.field b1 b2
  M.upd fun s => { s with b2 := b2, D := D }
  check (Decode.checkDistance D)
  let b3 ← tokenByte
  M.upd fun s => { s with Lm := b3 }
  check (Decode.checkMatchLength b3)
  copyLoop D.toNat b3.toNat
  let t ← tokenByte
  ringPut t
  M.upd fun s => { s with fsm := .readTokenHeader }

/-- The meaning of MATCH (R151). -/
def execMatch (b1 : Byte) (s : State) : Host.Outcome State Fault Refusal :=
  .next (settle (matchCommand b1) s)

/-! ### The command -/

/-- DECOMPRESS up to its first token (R146, R199). The reset comes after the preconditions (R196). -/
def decompressCommand : M Unit := do
  checkPreconditions
  M.upd (resetBlock .decompress)

/-- The meaning of DECOMPRESS (R146): preconditions, reset, and the engine enters ReadTokenHeader. The loop of
R146 is the machine's own stepping: each LIT or MATCH of the token program is a step, and so is the end of
the stream, `doneCommand` (log entry 1). -/
def execDecompress (s : State) : Host.Outcome State Fault Refusal :=
  .next (settle decompressCommand s)

/-- Done (R157): the final flush, and `result <- OK`. -/
def doneCommand : M Unit := do
  M.upd fun s => { s with fsm := .done }
  let R ← M.reads fun s => s.produced - s.flushed
  let rest ← M.reads (halfBytes · R)
  if R = 0 then pure () else sinkWrite rest
  M.upd fun s => { s with flushed := s.flushed + R }
  M.upd complete

end Sys2Proof.Machine
end

