-- ==== Sys2Proof/Machine/Fetch.lean ====
section
/-! DEFINITION. Where the next instruction comes from: the host's next call while the engine is Idle
(spec/70_reset_and_hazards.md R200), the token stream while DECOMPRESS runs (spec/43_decompressor.md R146,
R149). -/

namespace Sys2Proof.Machine

/-- What a fetch finds. -/
inductive Fetched where
  /-- An instruction, and the state it runs in. -/
  | run (i : Instr) (s : State)
  /-- No instruction: the step ends in this state. -/
  | settled (s : State)
  /-- A state the spec does not describe. -/
  | stuck (r : Fault)
deriving DecidableEq, Repr

/-- The engine takes the host's call `c` (R22, R200): its record, its source stream, a sink stream nothing has
been written to, and its I/O script (log entries 2 and 7). -/
def accept (c : HostCall) (later : List HostCall) (s : State) : State :=
  { s with host := later, cmd := c.record, source := c.source, endless := c.endless, sink := [], io := c.io }

/-- ReadTokenHeader (R149): one `SrcByte()`. `EOF` here is the normal end of the stream (R158), and `b1`
keeps its old value then (log entry 27). -/
def fetchToken (s : State) : Fetched :=
  match srcByte s with
  | .error e t => .settled (abort e t)
  | .ok none t => .settled (settle doneCommand t)
  | .ok (some b1) t => .run (Decode.instr (.header b1)) { t with b1 := b1 }

/-- The fetch. An Idle engine with no call waits. An engine that runs COMPRESS has no instruction to fetch: it
goes on with its refill cycles, which happens where the source never ends (R122). -/
def fetch (s : State) : Fetched :=
  match s.engine with
  | .idle =>
    match s.host with
    | [] => .settled s
    | c :: later => .run (Decode.instr (.mode c.record.mode)) (accept c later s)
  | .compress => .settled (settle compressBody s)
  | .decompress => if s.fsm = .readTokenHeader then fetchToken s else .stuck .midToken

/-- The bytes of a table word, with zeros after them up to the longest instruction. -/
def wordStream (nbits w : Nat) : List Byte :=
  tableBytes nbits w ++ List.replicate (maxTokenBytes - (tableBytes nbits w).length) 0

/-- `s` with DECOMPRESS running at a token boundary and the word as the coming bytes of the token stream, each
of which will be delivered. -/
def placeWord (s : State) (nbits w : Nat) : State :=
  { s with
    engine := .decompress
    fsm := .readTokenHeader
    source := wordStream nbits w
    endless := none
    io := [] }

end Sys2Proof.Machine
end

