-- ==== Sys2Proof/Machine/Step.lean ====
section
/-! DEFINITION. One step of the machine: fetch, then run what was fetched. -/

namespace Sys2Proof.Machine

/-- One step: a command of the host, a token of the running program, or what ends it. -/
def step (s : State) : Host.Outcome State Fault Refusal :=
  match fetch s with
  | .run i t => exec i t
  | .settled t => .next t
  | .stuck r => .fault r

/-- `s` with the word of an instruction where the next step fetches it (log entry 3). -/
def State.withFetchWord (s : State) (nbits w : Nat) : State :=
  placeWord s nbits w

end Sys2Proof.Machine
end

