-- ==== Sys2Proof/Safety.lean ====
section
/-! DEFINITION. The terms the statements use: what the decompressor has put out, the reference meaning of a
token program, and the invariants of the machine between two steps. -/

namespace Sys2Proof.Machine

/-- Every stream call the oracle has an answer for succeeds in full (spec/20_memory.md R55). Past the end of
the script every call succeeds. -/
abbrev State.Quiet (s : State) : Prop :=
  ∀ e ∈ s.io, e = .ok

/-! ### Output of the decompressor -/

/-- The bytes produced and not yet flushed, in order (spec/43_decompressor.md R157). -/
def State.unflushed (s : State) : List Byte :=
  halfBytes s (s.produced - s.flushed)

/-- Everything DECOMPRESS has produced: what the sink got, then what still waits in the ring. -/
def State.output (s : State) : List Byte :=
  s.sink.flatten ++ s.unflushed

/-- The bytes a copy of distance `D` puts out: byte `i` is byte `i - D` of the same copy, so the last `D` bytes
of the ring repeat (R152). -/
def copied (s : State) (D len : Nat) : List Byte :=
  (List.range len).map fun i => ringByte s (s.wcur % Config.C + Config.C - D + i % D)

/-- A copy on a list of output bytes, byte by byte; before its start the output reads as 0x00 (R152, R159). -/
def expandCopy (D : Nat) : Nat → List Byte → List Byte
  | 0, out => out
  | len + 1, out =>
    expandCopy D len (out ++ [if D ≤ out.length then out.getD (out.length - D) 0 else 0])

/-- The output after a token, on lists (R150, R151). -/
def expandToken (out : List Byte) : Token → List Byte
  | .lit payload => out ++ payload
  | .matchTok D len t => expandCopy D len out ++ [t]

/-- The output of a token program, on lists: the reference the decompressor is held to. -/
def expand (ts : List Token) : List Byte :=
  ts.foldl expandToken []

/-! ### Candidates of the search -/

/-- The length a candidate offers; a candidate with an unusable distance offers none
(spec/41_compressor.md R111, R112). -/
def candidateLen (s : State) (p : BitVec 14) : Nat :=
  let d := distance s.cursor p
  if d < Config.MIN_MATCH ∨ Config.W < d then 0
  else extend s.wb s.cursor p.toNat d (s.border - s.cursor - 1)

/-! ### Invariants -/

/-- The four memories are in canonical form and inside their spaces (spec/20_memory.md R51,
spec/00_scope.md R20). -/
abbrev MemoryInv (s : State) : Prop :=
  (Mem.WF s.wb ∧ Mem.Within s.wb (Config.NW + Config.G)) ∧
  (Mem.WF s.slots ∧ Mem.Within s.slots (Config.NB * Config.CHAIN)) ∧
  (Mem.WF s.rr ∧ Mem.Within s.rr Config.NB) ∧
  (Mem.WF s.ring ∧ Mem.Within s.ring Config.C)

/-- The decompressor's counters between two ring writes (spec/10_state.md R38 to R41; R156). -/
abbrev DecoderOk (s : State) : Prop :=
  s.wcur = s.produced % Config.C ∧ s.flushed ≤ s.produced ∧ s.produced - s.flushed < Config.H ∧
    s.flushed % Config.H = 0 ∧ s.nextHalf.toNat = s.flushed / Config.H % 2

/-- The decompressor's counters between two steps. While DECOMPRESS runs, a step ends at a token boundary;
after an abort inside MaybeFlush a whole half may be unflushed. -/
abbrev DecoderInv (s : State) : Prop :=
  s.wcur = s.produced % Config.C ∧ s.flushed ≤ s.produced ∧ s.produced - s.flushed ≤ Config.H ∧
    s.nextHalf.toNat = s.flushed / Config.H % 2 ∧
    (s.engine = .decompress → s.fsm = .readTokenHeader ∧ DecoderOk s)

/-- The ring holds the last `min(produced, C)` output bytes, and 0x00 where nothing was written
(R155, R159). -/
def HistoryOk (s : State) : Prop :=
  s.output.length = s.produced ∧
    ∀ D, 1 ≤ D → D ≤ Config.C →
      copyByte s D = if D ≤ s.produced then s.output.getD (s.produced - D) 0 else 0

/-- `HistoryOk` while DECOMPRESS runs, with the counters it rests on. -/
def HistoryInv (s : State) : Prop :=
  DecoderInv s ∧ (s.engine = .decompress → HistoryOk s)

/-- The guard holds a copy of the first `G` bytes of slot 0 (R26). -/
def GuardOk (s : State) : Prop :=
  ∀ j, j < Config.G → windowByte s (Config.NW + j) = windowByte s j

/-- The compressor's registers keep their ranges, the pending run ends at the cursor, and the guard mirrors
slot 0 (R24, R26, R27, R29 to R32). A step that ends while COMPRESS runs ends before a refill: the cursor is at the
base of the slot to fill, and the pending run is shorter than `W` (R103, R119). -/
def CompressorInv (s : State) : Prop :=
  (s.engine = .compress → s.cursor = slotBase s ∧ s.P < Config.W) ∧
  s.cursor ≤ Config.NW ∧ s.border ≤ Config.NW ∧ s.n ≤ Config.S ∧
  s.P ≤ 2 * Config.W - 1 ∧ s.litStart < Config.NW ∧
  (s.litStart + s.P) % Config.NW = s.cursor % Config.NW ∧
  s.search.bestLen ≤ Config.MAX_MATCH ∧ s.search.bestDist ≤ Config.W ∧
  s.search.la ≤ Config.S - 1 ∧ s.search.cand.length = Config.CHAIN ∧
  s.search.len ≤ Config.MAX_MATCH ∧ GuardOk s

/-- A safe run never meets a fault or a refusal: every step answers a next state. -/
def Safe (s : State) : Prop :=
  ∃ t, step s = .next t

end Sys2Proof.Machine
end

