-- ==== Sys2Proof/Certificates/Slice0/Obligations.lean ====
section
/-! DEFINITION. The statements about the machine, from the numbered rules of spec/. Each docstring names the
rule. Numbers of the spec (16383, 8192, 4096, 255, 3) stand as numbers, so that a statement does not rest on
the model's own constants. -/

open Sys2Proof Sys2Proof.Machine

/-! ### Parameters -/

/-- R6 to R17: the parameters have this hardware's values, and they meet the constraints. -/
def Obligations.ParametersMeetTheConstraints : Prop :=
  Config.Legal ∧ Config.W = 8192 ∧ Config.G = 256 ∧ Config.NW = 16384 ∧ Config.S = 8192 ∧
    Config.NB = 8192 ∧ Config.C = 8192 ∧ Config.H = 4096 ∧ Config.KNUTH.toNat = 0x9E3779B9

/-! ### Result register -/

/-- R172: the code of OK and of each error, 7 being no code, and which results carry a stream name in `info`. -/
def Obligations.ResultCodesFollowTheTable : Prop :=
  Result.code .ok = 0 ∧ (∀ w, Result.code (.error (.precondition w)) = 1) ∧
  Result.code (.error (.corrupt .truncatedToken)) = 2 ∧
  Result.code (.error (.corrupt .invalidLiteralLength)) = 3 ∧
  Result.code (.error (.corrupt .invalidMatchDistance)) = 4 ∧
  Result.code (.error (.corrupt .invalidMatchLength)) = 5 ∧
  (∀ w, Result.code (.error (.io w)) = 6) ∧ (∀ r, Result.code r ≠ 7) ∧
  ∀ r, Result.info r = match r with
    | .error (.precondition w) => some w
    | .error (.io w) => some w
    | .error (.corrupt _) => none
    | .ok => none

/-! ### Encoding -/

/-- R72: bit 0 of `b1` is the type; every byte is a legal first byte, 128 of each type. -/
def Obligations.HeaderSelectsByBitZero : Prop :=
  (∀ b1 : Byte,
    (b1.getLsbD 0 = true → Decode.instr (.header b1) = .lit b1) ∧
    (b1.getLsbD 0 = false → Decode.instr (.header b1) = .matchTok b1)) ∧
  ((List.range 256).filter fun n => (BitVec.ofNat 8 n).getLsbD 0).length = 128 ∧
  ((List.range 256).filter fun n => !(BitVec.ofNat 8 n).getLsbD 0).length = 128

/-- R83: `mode = 0` is COMPRESS and `mode = 1` is DECOMPRESS; every value of `mode` is a command. -/
def Obligations.ModeSelectsTheCommand : Prop :=
  Decode.instr (.mode 0) = .compress ∧ Decode.instr (.mode 1) = .decompress ∧
    ∀ m : BitVec 1, m = 0 ∨ m = 1

/-- A few words written out from R73, R74 and R83 decode to what they stand for. -/
def Obligations.WrittenOutWordsDecode : Prop :=
  Decode.token [0x07#8, 0x00#8, 0x61#8, 0x62#8, 0x63#8] = some (.ok (.lit [0x61#8, 0x62#8, 0x63#8], [])) ∧
  Decode.token [0x06#8, 0x00#8, 0x03#8, 0x61#8, 0xff#8] = some (.ok (.matchTok 3 3 0x61#8, [0xff#8])) ∧
  Decode.token [0x00#8, 0x40#8, 0xff#8, 0x42#8] = some (.ok (.matchTok 8192 255 0x42#8, [])) ∧
  Decode.instr (.header 0x07#8) = .lit 0x07#8 ∧ Decode.instr (.header 0x06#8) = .matchTok 0x06#8 ∧
  Decode.instr (.mode 0#1) = .compress ∧ Decode.instr (.mode 1#1) = .decompress

/-- R134, R135, R136: the 15-bit field of a token, and exactly which values each check lets through. -/
def Obligations.FieldChecksAcceptTheLegalValues : Prop :=
  ∀ b1 b2 b3 : Byte,
    (Decode.field b1 b2).toNat = b1.toNat / 2 + 128 * b2.toNat ∧
    (Decode.checkLitLength (Decode.field b1 b2) =
      if 1 ≤ b1.toNat / 2 + 128 * b2.toNat ∧ b1.toNat / 2 + 128 * b2.toNat ≤ 16383 then none
      else some .invalidLiteralLength) ∧
    (Decode.checkDistance (Decode.field b1 b2) =
      if 1 ≤ b1.toNat / 2 + 128 * b2.toNat ∧ b1.toNat / 2 + 128 * b2.toNat ≤ 8192 then none
      else some .invalidMatchDistance) ∧
    (Decode.checkMatchLength b3 = if 3 ≤ b3.toNat ∧ b3.toNat ≤ 255 then none else some .invalidMatchLength)

/-- R131, R132: the bytes the encoder writes for every length and distance it is called with. -/
def Obligations.EncodersWriteTheFields : Prop :=
  (∀ L : Nat, 1 ≤ L → L ≤ 16383 →
    Encode.lit (BitVec.ofNat 14 L) = [BitVec.ofNat 8 (2 * (L % 128) + 1), BitVec.ofNat 8 (L / 128)] ∧
      (BitVec.ofNat 8 (L / 128)).getLsbD 7 = false) ∧
  (∀ (d : Nat) (l t : Byte), 3 ≤ d → d ≤ 8192 →
    Encode.matchTok (BitVec.ofNat 14 d) l t =
        [BitVec.ofNat 8 (2 * (d % 128)), BitVec.ofNat 8 (d / 128), l, t] ∧
      (BitVec.ofNat 8 (d / 128)).getLsbD 7 = false)

/-- Decode of encode: every well-formed token, with every length, payload, distance and trailing byte, followed
by anything, is read back, and the rest is what followed it (R73 to R79). -/
def Obligations.TokenDecodeOfEncode : Prop :=
  ∀ (t : Token) (rest : List Byte), t.WellFormed →
    Decode.token (Encode.token t ++ rest) = some (.ok (t, rest))

/-- Encode of decode: what is read as a token is a well-formed token, and the bytes read are its encoding, of
`2 + L` or 4 bytes (R73 to R79). -/
def Obligations.TokenEncodeOfDecode : Prop :=
  ∀ (bytes rest : List Byte) (t : Token), Decode.token bytes = some (.ok (t, rest)) →
    t.WellFormed ∧ bytes = Encode.token t ++ rest ∧ (Encode.token t).length = t.size

/-- R80: every illegal encoding, with its error, whatever follows the illegal field; a leading part of a
token is a truncated token; only the empty stream holds no token and no error. And nothing else is illegal: a
complete token with legal fields is read, whatever follows it. -/
def Obligations.IllegalEncodingsAreNamed : Prop :=
  (∀ (b1 b2 : Byte) (rest : List Byte), b1.getLsbD 0 = true →
    (b1 = 0x01#8 ∧ b2 = 0x00#8) ∨ 0x80 ≤ b2.toNat →
    Decode.token (b1 :: b2 :: rest) = some (.error .invalidLiteralLength)) ∧
  (∀ (b1 b2 : Byte) (rest : List Byte), b1.getLsbD 0 = false →
    (b1 = 0x00#8 ∧ b2 = 0x00#8) ∨ 8192 < b1.toNat / 2 + 128 * b2.toNat →
    Decode.token (b1 :: b2 :: rest) = some (.error .invalidMatchDistance)) ∧
  (∀ (b1 b2 b3 : Byte) (rest : List Byte), b1.getLsbD 0 = false →
    1 ≤ b1.toNat / 2 + 128 * b2.toNat → b1.toNat / 2 + 128 * b2.toNat ≤ 8192 → b3.toNat < 3 →
    Decode.token (b1 :: b2 :: b3 :: rest) = some (.error .invalidMatchLength)) ∧
  (∀ (t : Token) (n : Nat), t.WellFormed → 0 < n → n < t.size →
    Decode.token ((Encode.token t).take n) = some (.error .truncatedToken)) ∧
  (∀ bytes : List Byte, Decode.token bytes = none ↔ bytes = []) ∧
  (∀ (t : Token) (rest : List Byte), t.WellFormed →
    ∃ t' rest', Decode.token (Encode.token t ++ rest) = some (.ok (t', rest')))

/-! ### Hash-chain index -/

/-- R91: HASH is the top 13 bits of the 32-bit product of the little-endian 24-bit value and the constant. -/
def Obligations.HashIsTheTopOfTheProduct : Prop :=
  ∀ b0 b1 b2 : Byte,
    (hash3 b0 b1 b2).toNat =
      (b0.toNat + 256 * b1.toNat + 65536 * b2.toNat) * 2654435769 % 2 ^ 32 / 2 ^ 19

/-- R93: INSERT writes the slot the counter names and then increments the counter modulo 8; no other slot and
no other counter changes, and nothing else of the state. -/
def Obligations.InsertOverwritesTheNamedSlot : Prop :=
  ∀ (s : State) (h : BitVec 13) (p : Nat), Mem.WF s.slots → Mem.WF s.rr → p < 16384 →
    (slotOf (insertPos h p s) h (counterOf s h).toNat).toNat = p ∧
    (counterOf (insertPos h p s) h).toNat = ((counterOf s h).toNat + 1) % 8 ∧
    (∀ (g : BitVec 13) (j : Nat), j < 8 → g ≠ h ∨ j ≠ (counterOf s h).toNat →
      slotOf (insertPos h p s) g j = slotOf s g j) ∧
    (∀ g : BitVec 13, g ≠ h → counterOf (insertPos h p s) g = counterOf s g) ∧
    insertPos h p s = { s with slots := (insertPos h p s).slots, rr := (insertPos h p s).rr }

/-- R94: CANDIDATES is the eight slots of the bucket, in slot order. -/
def Obligations.CandidatesAreTheEightSlots : Prop :=
  ∀ (s : State) (h : BitVec 13), candidates s h =
    [slotOf s h 0, slotOf s h 1, slotOf s h 2, slotOf s h 3,
      slotOf s h 4, slotOf s h 5, slotOf s h 6, slotOf s h 7]

/-! ### The compressor's operations -/

/-- R105, R106, R107: where a refill puts its bytes, the mirror after an even refill, and the border; every
other byte of the window keeps its value, the guard too after an odd refill. -/
def Obligations.RefillPlacesTheChunk : Prop :=
  ∀ (s : State) (bytes : List Byte), Mem.WF s.wb → bytes.length ≤ 8192 →
    let base := if s.k % 2 = 0 then 0 else 8192
    let t := placeChunk bytes s
    (∀ j, j < bytes.length → windowByte t (base + j) = bytes.getD j 0) ∧
    (∀ i, i < 16384 → i < base ∨ base + bytes.length ≤ i → windowByte t i = windowByte s i) ∧
    (s.k % 2 = 0 → ∀ j, j < 256 → windowByte t (16384 + j) = windowByte t j) ∧
    (s.k % 2 ≠ 0 → ∀ j, j < 256 → windowByte t (16384 + j) = windowByte s (16384 + j)) ∧
    t.border = base + bytes.length

/-- R112: Extend stops at exactly the first of its limits or the first difference. -/
def Obligations.ExtendStopsAtTheFirstLimit : Prop :=
  ∀ (wb : Cells 8) (cursor p d la : Nat),
    let len := extend wb cursor p d la
    len ≤ 255 ∧ len ≤ d ∧ len ≤ la ∧ len ≤ 8192 ∧
    (∀ i, i < len → Mem.read wb (cursor + i) = Mem.read wb (p + i)) ∧
    (len = 255 ∨ len = d ∨ len = la ∨ len = 8192 ∨
      Mem.read wb (cursor + len) ≠ Mem.read wb (p + len))

/-- R113: the search keeps the longest candidate, the earliest in slot order among equals; a candidate of
length 0 never replaces the initial best of 0. -/
def Obligations.SearchKeepsTheFirstLongest : Prop :=
  ∀ (s : State) (h : BitVec 13),
    let r := searchMatch s h
    let cand := candidates s h
    (∀ i, i < 8 → candidateLen s (cand.getD i 0) ≤ r.bestLen) ∧
    (r.bestLen = 0 → r.bestDist = 0) ∧
    (0 < r.bestLen → ∃ i, i < 8 ∧
      candidateLen s (cand.getD i 0) = r.bestLen ∧
      distance s.cursor (cand.getD i 0) = r.bestDist ∧
      ∀ j, j < i → candidateLen s (cand.getD j 0) < r.bestLen) ∧
    r.la = s.border - s.cursor - 1

/-- R117: LiteralStep records the position, advances the cursor by 1 and lengthens the pending run by 1. -/
def Obligations.LiteralStepTakesOneByte : Prop :=
  ∀ (s : State) (h : BitVec 13), literalStep h s =
    .ok () { s with
      slots := (insertPos h s.cursor s).slots
      rr := (insertPos h s.cursor s).rr
      cursor := s.cursor + 1
      P := s.P + 1 }

/-- R121: FlushLiterals emits the whole pending run, split into runs of at most 16383 bytes; an empty run
writes nothing. -/
def Obligations.FlushEmitsThePendingRun : Prop :=
  ∀ s : State, s.Quiet →
    (s.P = 0 → flushLiterals s = .ok () s) ∧
    (0 < s.P → ∃ t, flushLiterals s = .ok () t ∧
      t.sink.flatten = s.sink.flatten ++ Encode.tokens (Listing.longLit (pendingBytes s s.P)) ∧
      t.P = 0 ∧ t.litStart = (s.litStart + s.P) % 16384 ∧
      t = { s with sink := t.sink, io := t.io, P := t.P, litStart := t.litStart })

/-- R115, R116: MatchStep writes the pending run and then the MATCH token with its trailing literal, records
every position from the cursor through `cursor + l` in increasing order, and advances the cursor past them. -/
def Obligations.MatchStepEmitsTheToken : Prop :=
  ∀ (s : State) (d l : Nat), s.Quiet → 3 ≤ d → d ≤ 8192 → 3 ≤ l → l ≤ 255 →
    ∃ t, matchStep d l s = .ok () t ∧
      t.sink.flatten = s.sink.flatten ++ Encode.tokens (Listing.longLit (pendingBytes s s.P)) ++
        Encode.token (.matchTok d l (windowByte s (s.cursor + l))) ∧
      t.cursor = s.cursor + l + 1 ∧ t.litStart = (s.cursor + l + 1) % 16384 ∧ t.P = 0 ∧
      (let u := (List.range (l + 1)).foldl
          (fun u j => insertPos (hashAt u (s.cursor + j)) (s.cursor + j) u) s;
        t.slots = u.slots ∧ t.rr = u.rr) ∧
      t = { s with
        sink := t.sink, io := t.io, cursor := t.cursor, litStart := t.litStart, P := t.P
        slots := t.slots, rr := t.rr }

/-- R108 to R110, R114: a scan step searches the bucket of the three bytes at the cursor and takes the best match
exactly if it is at least 3 long, a literal otherwise; a step that is not ended by an I/O failure moves the cursor
forward and never past the border; and the scan loop is one step after another until the border. -/
def Obligations.ScanStepAdvancesInsideTheChunk : Prop :=
  ∀ s : State,
    (let h := hashAt s s.cursor
      let r := searchMatch s h
      (3 ≤ r.bestLen → scanStep s = matchStep r.bestDist r.bestLen { s with search := r }) ∧
      (r.bestLen < 3 → scanStep s = literalStep h { s with search := r })) ∧
    (s.border ≤ s.cursor → scanLoop (s.border - s.cursor) s = .ok () s) ∧
    (s.cursor < s.border →
      (∀ t, scanStep s = .ok () t →
        s.cursor < t.cursor ∧ t.cursor ≤ s.border ∧ t.border = s.border ∧
        scanLoop (s.border - s.cursor) s = scanLoop (t.border - t.cursor) t) ∧
      ∀ e t, scanStep s = .error e t → scanLoop (s.border - s.cursor) s = .error e t)

/-- R118, R119: what happens between the scan of a cycle and the next refill. -/
def Obligations.CycleEndWrapsAndFlushes : Prop :=
  ∀ s : State,
    (16384 ≤ s.cursor → wrapCursor s = { s with cursor := s.cursor - 16384 }) ∧
    (s.cursor < 16384 → wrapCursor s = s) ∧
    (8192 ≤ s.P → forceFlush s = flushLiterals s) ∧
    (s.P < 8192 → forceFlush s = .ok () s)

/-- The bounds the model puts on the spec's `while` loops are never what ends them: a larger bound gives the
same answer (R103, R108, R112, R121; the bounds are the model's choice, log entry 18). The refill loop of a source
that never ends has no such bound: `CompressRepeatsTheRefillCycle`. -/
def Obligations.LoopBoundsAreNeverReached : Prop :=
  (∀ (s : State) (n : Nat), s.endless = none → s.source.length + 1 ≤ n →
    refillLoop n s = refillLoop (s.source.length + 1) s) ∧
  (∀ (s : State) (n : Nat), s.border - s.cursor ≤ n →
    scanLoop n s = scanLoop (s.border - s.cursor) s) ∧
  (∀ (s : State) (n : Nat), s.P ≤ n → flushLoop n s = flushLoop s.P s) ∧
  (∀ (wb : Cells 8) (cursor p d la n : Nat), 255 ≤ n →
    extendLoop wb cursor p d la n 0 = extendLoop wb cursor p d la 255 0)

/-- R103, R104: a refill cycle reads once, and with bytes places them, scans them to the border, wraps the cursor,
flushes a long pending run and counts the cycle, in this order; no bytes, or fewer than 8192, make it the last. -/
def Obligations.RefillCycleRunsInOrder : Prop :=
  ∀ s : State, s.Quiet →
    let bytes := ahead 8192 s
    let r : State := { advance 8192 s with io := s.io.tail, n := bytes.length }
    let u := placeChunk bytes r
    (bytes = [] → refillCycle s = .ok true r) ∧
    (bytes ≠ [] → ∀ v w, scanLoop (u.border - u.cursor) u = .ok () v → forceFlush (wrapCursor v) = .ok () w →
      (bytes.length < 8192 → refillCycle s = .ok true w) ∧
      (8192 ≤ bytes.length → refillCycle s = .ok false { w with k := w.k + 1 }))

/-! ### COMPRESS -/

/-- R101, R103, R120: COMPRESS is its reset, then refill cycle after refill cycle until one is the last, then the
end flush and OK; an error in a cycle ends it. On a source that never ends a step is one cycle, and the next step
goes on (the grain of the steps is the model's choice, log entry 1). -/
def Obligations.CompressRepeatsTheRefillCycle : Prop :=
  ∀ s : State,
    (s.cmd.srcPresent = true → s.cmd.sinkPresent = true →
      exec .compress s = .next (settle compressBody (resetBlock .compress s))) ∧
    (s.engine = .compress → step s = .next (settle compressBody s)) ∧
    (∀ t, refillCycle s = .ok true t →
      (∀ u, flushLiterals t = .ok () u → compressBody s = .ok () { u with result := .ok, engine := .idle }) ∧
      ∀ e u, flushLiterals t = .error e u → compressBody s = .error e u) ∧
    (∀ t, refillCycle s = .ok false t →
      (s.endless = none → compressBody s = compressBody t) ∧
      (s.endless ≠ none → compressBody s = .ok () t)) ∧
    ∀ e t, refillCycle s = .error e t → compressBody s = .error e t

/-- R102, R147, R173: an absent stream ends either command at once, source before sink, with no stream call and
nothing else changed. -/
def Obligations.AbsentStreamEndsTheCommand : Prop :=
  ∀ (s : State) (i : Instr), i = .compress ∨ i = .decompress →
    (s.cmd.srcPresent = false →
      exec i s = .next { s with result := .error (.precondition .source), engine := .idle }) ∧
    (s.cmd.srcPresent = true → s.cmd.sinkPresent = false →
      exec i s = .next { s with result := .error (.precondition .sink), engine := .idle })

/-- R101, R122: COMPRESS of a source that ends, with both streams present and no failing stream call, runs to its
normal end: result OK, engine Idle, the whole source read, no run left pending. For a source that never ends see
`EndlessSourceNeverEnds`. -/
def Obligations.CompressCompletes : Prop :=
  ∀ s : State, s.Quiet → s.cmd.srcPresent = true → s.cmd.sinkPresent = true → s.endless = none →
    ∃ t, exec .compress s = .next t ∧ t.result = .ok ∧ t.engine = .idle ∧ t.source = [] ∧ t.P = 0

/-- R125: empty input gives no sink call and OK. -/
def Obligations.CompressOfEmptyInputWritesNothing : Prop :=
  ∀ s : State, s.Quiet → s.cmd.srcPresent = true → s.cmd.sinkPresent = true → ahead 1 s = [] →
    ∃ t, exec .compress s = .next t ∧ t.result = .ok ∧ t.engine = .idle ∧ t.sink = s.sink

/-- R124, R178: every token COMPRESS writes is in the encoder's ranges, whatever the streams do: what was in the
sink stays, and after it comes a leading part of a sequence of such tokens, the whole sequence when the command
ends OK or goes on. -/
def Obligations.CompressWritesLegalTokens : Prop :=
  ∀ s t : State, exec .compress s = .next t ∨ (s.engine = .compress ∧ step s = .next t) →
    ∃ (ts : List Token) (p : List Byte), (∀ tok ∈ ts, tok.Emitted) ∧
      t.sink.flatten = s.sink.flatten ++ p ∧ p <+: Encode.tokens ts ∧
      (t.engine = .compress ∨ t.result = .ok → p = Encode.tokens ts)

/-- R126: the tokens COMPRESS writes stand for its input: each MATCH repeats input bytes and carries the input
byte after them, each LIT carries the input bytes it covers, and the program's output is the input. -/
def Obligations.CompressedTokensStandForTheInput : Prop :=
  ∀ s t : State, s.Quiet → s.cmd.srcPresent = true → s.cmd.sinkPresent = true → s.endless = none →
    exec .compress s = .next t →
    ∃ ts : List Token,
      t.sink.flatten = s.sink.flatten ++ Encode.tokens ts ∧
      (∀ tok ∈ ts, tok.WellFormed) ∧
      expand ts = s.source ∧
      (∀ before after d l b, ts = before ++ Token.matchTok d l b :: after →
        d ≤ (expand before).length ∧
        (∀ i, i < l → s.source[(expand before).length - d + i]? = s.source[(expand before).length + i]?) ∧
        s.source[(expand before).length + l]? = some b) ∧
      (∀ before after payload, ts = before ++ Token.lit payload :: after →
        (s.source.drop (expand before).length).take payload.length = payload)

/-- R122: COMPRESS of a source that never ends, with no failing call, never ends: the command starts, and after any
number of further steps it is still running, has taken as many whole chunks as there were steps, and the tokens it
has written, with the pending run after them, stand for exactly those bytes. DECOMPRESS of such a source never meets
the end of the stream: if it ends, it is not with OK and not with a truncated token. That a step of COMPRESS is then
one refill cycle is the model's choice (log entry 1). -/
def Obligations.EndlessSourceNeverEnds : Prop :=
  (∀ s : State, s.Quiet → s.cmd.srcPresent = true → s.cmd.sinkPresent = true → s.endless ≠ none →
    ∃ t, exec .compress s = .next t ∧ ∀ k : Nat, ∃ u : State,
      Host.Core.run Sys2Proof.core k t = .next u ∧ u.engine = .compress ∧ u.result = s.result ∧
      u.source = (advance (8192 * (k + 1)) s).source ∧ u.endless = (advance (8192 * (k + 1)) s).endless ∧
      ∃ ts : List Token, (∀ tok ∈ ts, tok.Emitted) ∧
        u.sink.flatten = s.sink.flatten ++ Encode.tokens ts ∧
        expand ts ++ pendingBytes u u.P = ahead (8192 * (k + 1)) s) ∧
  ∀ s t : State, s.engine = .decompress → s.endless ≠ none → step s = .next t → t.engine = .idle →
    t.result ≠ .ok ∧ t.result ≠ .error (.corrupt .truncatedToken)

/-- R46, R123, R196: what COMPRESS does depends on the command record, the streams and the I/O script alone: two states
that agree on them are left in the same state, but for the host's later calls, and but for the result while the
command goes on. Nothing an earlier command left can matter. -/
def Obligations.CompressIgnoresEarlierState : Prop :=
  ∀ s u t v : State, s.cmd = u.cmd → s.source = u.source → s.endless = u.endless → s.sink = u.sink →
    s.io = u.io → s.cmd.srcPresent = true → s.cmd.sinkPresent = true →
    exec .compress s = .next t → exec .compress u = .next v →
    t = { v with host := s.host, result := t.result } ∧ (t.engine = .idle → t.result = v.result)

/-- The frame of COMPRESS: it reaches the decompressor only by the reset (R196, D11), so that, however a command that
has both streams ends, the decompressor is at its start values; a step of a running COMPRESS leaves it as it is, and
the command record and the host's later calls are never changed (R51: only DECOMPRESS reaches the ring; R22). -/
def Obligations.CompressLeavesTheDecompressor : Prop :=
  (∀ s t : State, exec .compress s = .next t →
    t.cmd = s.cmd ∧ t.host = s.host ∧
    (s.cmd.srcPresent = true → s.cmd.sinkPresent = true →
      (∀ a, Mem.read t.ring a = 0) ∧ t.inPos = 0 ∧ t.wcur = 0 ∧ t.produced = 0 ∧ t.flushed = 0 ∧
      t.nextHalf = 0 ∧ t.fsm = .readTokenHeader ∧ t.b1 = 0 ∧ t.b2 = 0 ∧ t.L = 0 ∧ t.D = 0 ∧ t.Lm = 0)) ∧
  ∀ s t : State, s.engine = .compress → step s = .next t →
    t.ring = s.ring ∧ t.inPos = s.inPos ∧ t.wcur = s.wcur ∧ t.produced = s.produced ∧
    t.flushed = s.flushed ∧ t.nextHalf = s.nextHalf ∧ t.fsm = s.fsm ∧ t.b1 = s.b1 ∧ t.b2 = s.b2 ∧
    t.L = s.L ∧ t.D = s.D ∧ t.Lm = s.Lm ∧ t.cmd = s.cmd ∧ t.host = s.host

/-- R171: COMPRESS ends, with OK, a PreconditionError or an IOError, and never with a corrupt stream; only a source
that never ends leaves it running. -/
def Obligations.CompressNeverReportsCorruption : Prop :=
  ∀ s t : State, exec .compress s = .next t ∨ (s.engine = .compress ∧ step s = .next t) →
    (t.engine = .compress ∧ t.result = s.result ∧ s.endless ≠ none) ∨
    (t.engine = .idle ∧
      (t.result = .ok ∨ (∃ w, t.result = .error (.precondition w)) ∨ ∃ w, t.result = .error (.io w)))

/-! ### The decompressor's operations -/

/-- R154, R156: RingPut writes one byte at the cursor and advances it; exactly when the cursor reaches `H` or 0
the completed half goes to the sink in one call. No other ring byte changes. -/
def Obligations.RingPutAppendsOneByte : Prop :=
  ∀ (s : State) (x : Byte), s.Quiet → DecoderOk s → Mem.WF s.ring →
    ∃ t, ringPut x s = .ok () t ∧
      t.wcur = (s.wcur + 1) % 8192 ∧ t.produced = s.produced + 1 ∧ t.fsm = s.fsm ∧
      Mem.read t.ring s.wcur = x ∧
      (∀ a, a ≠ s.wcur → Mem.read t.ring a = Mem.read s.ring a) ∧
      (t.wcur = 4096 ∨ t.wcur = 0 →
        t.sink = s.sink ++
          [(List.range 4096).map fun j => Mem.read t.ring (s.nextHalf.toNat * 4096 + j)] ∧
        t.flushed = s.flushed + 4096 ∧ t.nextHalf = 1 - s.nextHalf) ∧
      (¬(t.wcur = 4096 ∨ t.wcur = 0) →
        t.sink = s.sink ∧ t.flushed = s.flushed ∧ t.nextHalf = s.nextHalf) ∧
      DecoderOk t ∧ t.output = s.output ++ [x]

/-- R152: a copy puts out `len` bytes; byte `i` is the ring byte `D` behind the cursor for `i < D`, and byte
`i - D` of the same copy otherwise. -/
def Obligations.CopyRepeatsTheLastBytes : Prop :=
  ∀ (s : State) (D len : Nat), s.Quiet → DecoderOk s → Mem.WF s.ring →
    1 ≤ D → D ≤ 8192 → 3 ≤ len → len ≤ 255 →
    ∃ (t : State) (bytes : List Byte), copyLoop D len s = .ok () t ∧
      bytes.length = len ∧ t.output = s.output ++ bytes ∧
      (∀ i, i < len → i < D → bytes.getD i 0 = Mem.read s.ring ((s.wcur + 8192 - D + i) % 8192)) ∧
      (∀ i, i < len → D ≤ i → bytes.getD i 0 = bytes.getD (i - D) 0) ∧
      t.produced = s.produced + len ∧ t.wcur = (s.wcur + len) % 8192 ∧ DecoderOk t

/-! ### LIT, MATCH, DECOMPRESS -/

/-- R150: LIT, in each of its legal forms, puts its payload out, in order, and ends at a token boundary. -/
def Obligations.LitPutsOutItsPayload : Prop :=
  ∀ (s : State) (b1 b2 : Byte) (payload : List Byte),
    s.Quiet → DecoderOk s → Mem.WF s.ring →
    ahead (1 + payload.length) s = b2 :: payload → (Decode.field b1 b2).toNat = payload.length →
    1 ≤ payload.length → payload.length ≤ 16383 →
    ∃ t, exec (.lit b1) s = .next t ∧
      t.output = s.output ++ payload ∧
      t.source = (advance (1 + payload.length) s).source ∧
      t.endless = (advance (1 + payload.length) s).endless ∧
      t.inPos = s.inPos + 1 + payload.length ∧
      t.produced = s.produced + payload.length ∧ t.wcur = (s.wcur + payload.length) % 8192 ∧
      (∀ j, j < payload.length → payload.length ≤ j + 8192 →
        Mem.read t.ring ((s.wcur + j) % 8192) = payload.getD j 0) ∧
      DecoderOk t ∧ t.fsm = .readTokenHeader ∧ t.engine = s.engine ∧ t.result = s.result ∧
      t.b2 = b2 ∧ t.L = Decode.field b1 b2

/-- R151, R153: MATCH, in each of its legal forms, puts out the copy and then the trailing literal, and ends at a
token boundary. `copied` is the copy of R152. -/
def Obligations.MatchPutsOutCopyAndLiteral : Prop :=
  ∀ (s : State) (b1 b2 b3 b4 : Byte),
    s.Quiet → DecoderOk s → Mem.WF s.ring → ahead 3 s = [b2, b3, b4] →
    1 ≤ (Decode.field b1 b2).toNat → (Decode.field b1 b2).toNat ≤ 8192 → 3 ≤ b3.toNat →
    ∃ t, exec (.matchTok b1) s = .next t ∧
      t.output = s.output ++ copied s (Decode.field b1 b2).toNat b3.toNat ++ [b4] ∧
      t.source = (advance 3 s).source ∧ t.endless = (advance 3 s).endless ∧ t.inPos = s.inPos + 3 ∧
      t.produced = s.produced + b3.toNat + 1 ∧ t.wcur = (s.wcur + b3.toNat + 1) % 8192 ∧
      DecoderOk t ∧ t.fsm = .readTokenHeader ∧ t.engine = s.engine ∧ t.result = s.result ∧
      t.b2 = b2 ∧ t.D = Decode.field b1 b2 ∧ t.Lm = b3

/-- R150, R134, R137: LIT on a stream that ends after `b1`, has a length out of range, or ends inside the
payload. The length is checked before the next byte is requested, and the payload bytes that are there are
put out. That `b2` keeps its value at `EOF` is the model's choice (log entry 27). -/
def Obligations.LitReportsItsErrors : Prop :=
  ∀ (s : State) (b1 : Byte), s.Quiet →
    (ahead 1 s = [] → exec (.lit b1) s = .next { s with
      result := .error (.corrupt .truncatedToken), engine := .idle
      io := s.io.tail, fsm := .readLiteralBody }) ∧
    (∀ b2, ahead 1 s = [b2] →
      (Decode.field b1 b2).toNat = 0 ∨ 16383 < (Decode.field b1 b2).toNat →
      exec (.lit b1) s = .next { advance 1 s with
        result := .error (.corrupt .invalidLiteralLength), engine := .idle
        io := s.io.tail, fsm := .readLiteralBody, inPos := s.inPos + 1
        b2 := b2, L := Decode.field b1 b2 }) ∧
    (∀ b2 payload, DecoderOk s → Mem.WF s.ring →
      ahead (1 + (Decode.field b1 b2).toNat) s = b2 :: payload →
      1 ≤ (Decode.field b1 b2).toNat → (Decode.field b1 b2).toNat ≤ 16383 →
      payload.length < (Decode.field b1 b2).toNat →
      ∃ t, exec (.lit b1) s = .next t ∧ t.result = .error (.corrupt .truncatedToken) ∧
        t.engine = .idle ∧ t.output = s.output ++ payload ∧ t.source = [] ∧
        t.inPos = s.inPos + 1 + payload.length ∧ t.fsm = .readLiteralBody)

/-- R151, R135, R136, R137, R179: MATCH on a stream that ends after `b1`, `b2` or `b3`, or has a field out of
range. Each field is checked before the next byte is requested; the copy is made before the trailing byte. That `b2`
and `Lm` keep their values at `EOF` is the model's choice (log entry 27). -/
def Obligations.MatchReportsItsErrors : Prop :=
  ∀ (s : State) (b1 : Byte), s.Quiet →
    (ahead 1 s = [] → exec (.matchTok b1) s = .next { s with
      result := .error (.corrupt .truncatedToken), engine := .idle
      io := s.io.tail, fsm := .readMatchFields }) ∧
    (∀ b2, ahead 1 s = [b2] →
      (Decode.field b1 b2).toNat = 0 ∨ 8192 < (Decode.field b1 b2).toNat →
      exec (.matchTok b1) s = .next { advance 1 s with
        result := .error (.corrupt .invalidMatchDistance), engine := .idle
        io := s.io.tail, fsm := .readMatchFields, inPos := s.inPos + 1
        b2 := b2, D := Decode.field b1 b2 }) ∧
    (∀ b2, ahead 2 s = [b2] →
      1 ≤ (Decode.field b1 b2).toNat → (Decode.field b1 b2).toNat ≤ 8192 →
      exec (.matchTok b1) s = .next { advance 1 s with
        result := .error (.corrupt .truncatedToken), engine := .idle
        io := s.io.tail.tail, fsm := .readMatchFields, inPos := s.inPos + 1
        b2 := b2, D := Decode.field b1 b2 }) ∧
    (∀ b2 b3, ahead 2 s = [b2, b3] →
      1 ≤ (Decode.field b1 b2).toNat → (Decode.field b1 b2).toNat ≤ 8192 → b3.toNat < 3 →
      exec (.matchTok b1) s = .next { advance 2 s with
        result := .error (.corrupt .invalidMatchLength), engine := .idle
        io := s.io.tail.tail, fsm := .readMatchFields, inPos := s.inPos + 2
        b2 := b2, D := Decode.field b1 b2, Lm := b3 }) ∧
    (∀ b2 b3, DecoderOk s → Mem.WF s.ring → ahead 3 s = [b2, b3] →
      1 ≤ (Decode.field b1 b2).toNat → (Decode.field b1 b2).toNat ≤ 8192 → 3 ≤ b3.toNat →
      ∃ t, exec (.matchTok b1) s = .next t ∧ t.result = .error (.corrupt .truncatedToken) ∧
        t.engine = .idle ∧
        t.output = s.output ++ copied s (Decode.field b1 b2).toNat b3.toNat ∧
        t.source = [] ∧ t.inPos = s.inPos + 2 ∧ t.fsm = .readMatchFields)

/-- R150, R151 (exceptions): however LIT or MATCH ends, either the command goes on with its result untouched, or
it has ended with one of the errors the rule lists. -/
def Obligations.TokensRaiseOnlyTheirErrors : Prop :=
  ∀ (s t : State) (b1 : Byte),
    (exec (.lit b1) s = .next t →
      (t.engine = s.engine ∧ t.result = s.result ∧ t.fsm = .readTokenHeader) ∨
      (t.engine = .idle ∧
        (t.result = .error (.corrupt .truncatedToken) ∨
          t.result = .error (.corrupt .invalidLiteralLength) ∨ ∃ w, t.result = .error (.io w)))) ∧
    (exec (.matchTok b1) s = .next t →
      (t.engine = s.engine ∧ t.result = s.result ∧ t.fsm = .readTokenHeader) ∨
      (t.engine = .idle ∧
        (t.result = .error (.corrupt .truncatedToken) ∨
          t.result = .error (.corrupt .invalidMatchDistance) ∨
          t.result = .error (.corrupt .invalidMatchLength) ∨ ∃ w, t.result = .error (.io w))))

/-- The frame of LIT and MATCH, however they end: the compressor, the index, the command record, the host's
calls and `b1` are unchanged, LIT leaves `D` and `Lm`, MATCH leaves `L`, and the ring changes only at the
addresses RingPut writes: `wcur`, then the next ones modulo `C`, as many as bytes were produced (R51, R62,
R154). -/
def Obligations.TokensWriteOnlyTheRing : Prop :=
  ∀ (s t : State) (b1 : Byte) (i : Instr), i = .lit b1 ∨ i = .matchTok b1 → exec i s = .next t →
    t.wb = s.wb ∧ t.cursor = s.cursor ∧ t.border = s.border ∧ t.k = s.k ∧ t.n = s.n ∧ t.P = s.P ∧
    t.litStart = s.litStart ∧ t.search = s.search ∧ t.slots = s.slots ∧ t.rr = s.rr ∧
    t.cmd = s.cmd ∧ t.host = s.host ∧ t.b1 = s.b1 ∧
    (i = .lit b1 → t.D = s.D ∧ t.Lm = s.Lm) ∧ (i = .matchTok b1 → t.L = s.L) ∧
    s.produced ≤ t.produced ∧
    (Mem.WF s.ring → ∀ a, (∀ j, j < t.produced - s.produced → a ≠ (s.wcur + j) % 8192) →
      Mem.read t.ring a = Mem.read s.ring a)

/-- R196, R198, R199: DECOMPRESS with both streams present resets the block and begins in ReadTokenHeader: the
decompressor, the compressor and the index are at their start values (D11), and the result, the record, the streams
and the host's later calls are as before. -/
def Obligations.DecompressBeginsAtATokenHeader : Prop :=
  ∀ s : State, s.cmd.srcPresent = true → s.cmd.sinkPresent = true →
    ∃ t, exec .decompress s = .next t ∧ t.engine = .decompress ∧ t.fsm = .readTokenHeader ∧
      (∀ a, Mem.read t.ring a = 0) ∧ t.inPos = 0 ∧ t.wcur = 0 ∧ t.produced = 0 ∧ t.flushed = 0 ∧
      t.nextHalf = 0 ∧ t.b1 = 0 ∧ t.b2 = 0 ∧ t.L = 0 ∧ t.D = 0 ∧ t.Lm = 0 ∧
      (∀ i, windowByte t i = 0) ∧ t.cursor = 0 ∧ t.border = 0 ∧ t.k = 0 ∧ t.n = 0 ∧ t.P = 0 ∧
      t.litStart = 0 ∧ (∀ h j, slotOf t h j = 0) ∧ (∀ h, counterOf t h = 0) ∧
      t.host = s.host ∧ t.cmd = s.cmd ∧ t.result = s.result ∧ t.source = s.source ∧
      t.endless = s.endless ∧ t.sink = s.sink ∧ t.io = s.io

/-! ### The step -/

/-- A step runs the decoded instruction: a command of the host while the engine is Idle, the token at the
stream's position while DECOMPRESS runs; an Idle engine without a call waits (R146, R149, R200). The queue of
calls (log entry 2) and the sink emptied for each of them (log entry 7) are the model's choices. -/
def Obligations.StepRunsTheFetchedInstruction : Prop :=
  (∀ s : State, s.engine = .idle → s.host = [] → step s = .next s) ∧
  (∀ (s : State) (c : HostCall) (later : List HostCall), s.engine = .idle → s.host = c :: later →
    step s = exec (Decode.instr (.mode c.record.mode)) { s with
      host := later, cmd := c.record, source := c.source, endless := c.endless, sink := [], io := c.io }) ∧
  (∀ (s : State) (b1 : Byte), s.engine = .decompress → s.fsm = .readTokenHeader →
    s.Quiet → ahead 1 s = [b1] →
    step s = exec (Decode.instr (.header b1)) { advance 1 s with
      io := s.io.tail, inPos := s.inPos + 1, b1 := b1 })

/-- R157, R149: `EOF` at a token boundary ends DECOMPRESS with OK after one last call with the bytes that are
left, none if none are left; the sink then holds everything that was produced. That `b1` keeps its value at `EOF` is
the model's choice (log entry 27). -/
def Obligations.EndOfStreamFlushesTheRest : Prop :=
  ∀ s : State, s.engine = .decompress → s.fsm = .readTokenHeader → s.Quiet → ahead 1 s = [] →
    DecoderOk s →
    ∃ t, step s = .next t ∧ t.result = .ok ∧ t.engine = .idle ∧ t.fsm = .done ∧
      t.sink = (if s.produced = s.flushed then s.sink else s.sink ++
        [(List.range (s.produced - s.flushed)).map fun j =>
          Mem.read s.ring (s.nextHalf.toNat * 4096 + j)]) ∧
      t.sink.flatten = s.output ∧ t.flushed = s.produced ∧
      t = { s with
        result := t.result, engine := t.engine, fsm := t.fsm, sink := t.sink, io := t.io
        flushed := t.flushed }

/-- A whole token in the stream, as the decoder of whole tokens reads it, is what the next step carries out
(R79, R150, R151). -/
def Obligations.StepCarriesOutTheToken : Prop :=
  ∀ (s : State) (n : Nat) (tok : Token) (rest : List Byte),
    s.engine = .decompress → s.fsm = .readTokenHeader → s.Quiet → DecoderOk s → Mem.WF s.ring →
    Decode.token (ahead n s) = some (.ok (tok, rest)) →
    ∃ t, step s = .next t ∧ t.source = (advance tok.size s).source ∧
      t.endless = (advance tok.size s).endless ∧ t.inPos = s.inPos + tok.size ∧
      t.engine = .decompress ∧ t.fsm = .readTokenHeader ∧ t.result = s.result ∧ DecoderOk t ∧
      t.output = s.output ++ (match tok with
        | .lit payload => payload
        | .matchTok D len b => copied s D len ++ [b])

/-- A corrupt token ends the command, in the next step, with the error the decoder of whole tokens names, and
only whole halves reach the sink (R160, R174, R175). A token is truncated only where the source ends. -/
def Obligations.StepNamesTheCorruptToken : Prop :=
  ∀ (s : State) (n : Nat) (e : Corrupt),
    s.engine = .decompress → s.fsm = .readTokenHeader → s.Quiet → DecoderOk s → Mem.WF s.ring →
    Decode.token (ahead n s) = some (.error e) →
    (e = .truncatedToken → s.endless = none ∧ s.source.length ≤ n) →
    ∃ t, step s = .next t ∧ t.result = .error (.corrupt e) ∧ t.engine = .idle ∧
      ∃ halves : List (List Byte), t.sink = s.sink ++ halves ∧ ∀ half ∈ halves, half.length = 4096

/-- R160: when a corrupt stream ends the command, the sink has got whole halves and nothing else, and no
stream call was made after the detection. -/
def Obligations.CorruptionStopsTheOutput : Prop :=
  ∀ (s t : State) (e : Corrupt), s.engine = .decompress → step s = .next t → t.engine = .idle →
    t.result = .error (.corrupt e) →
    ∃ halves : List (List Byte), t.sink = s.sink ++ halves ∧ ∀ half ∈ halves, half.length = 4096

/-- R176: a failing read raises IOError(source), a failing write IOError(sink) after any leading part of its
bytes, as the oracle says; and an error raised in a command is its abort: the result, the engine Idle, every
other register as at the detection (R175). That a failing read takes no byte and leaves `inPos` is the model's choice
(log entry 6). -/
def Obligations.FailedStreamCallsRaiseIoErrors : Prop :=
  (∀ (s : State) (d n : Nat) (io : List IoEvent), s.io = .fail d :: io →
    srcRead n s = .error (.io .source) { s with io := io } ∧
    srcByte s = .error (.io .source) { s with io := io } ∧
    ∀ bytes, sinkWrite bytes s =
      .error (.io .sink) { s with io := io, sink := s.sink ++ [bytes.take d] }) ∧
  (∀ (m : M Unit) (s t : State) (e : Err), m s = .error e t →
    settle m s = { t with result := .error e, engine := .idle })

/-- A failing call, in a run: the header read of DECOMPRESS, the next byte of LIT and MATCH, the first refill
read of COMPRESS (R149, R176, R179). That a failed read takes no byte (log entry 6) and leaves the register it was
for (log entry 27) are the model's choices. -/
def Obligations.FailedReadEndsTheCommand : Prop :=
  ∀ (s : State) (d : Nat) (io : List IoEvent) (b1 : Byte), s.io = .fail d :: io →
    (s.engine = .decompress → s.fsm = .readTokenHeader →
      step s = .next { s with result := .error (.io .source), engine := .idle, io := io }) ∧
    exec (.lit b1) s = .next { s with
      result := .error (.io .source), engine := .idle, io := io, fsm := .readLiteralBody } ∧
    exec (.matchTok b1) s = .next { s with
      result := .error (.io .source), engine := .idle, io := io, fsm := .readMatchFields } ∧
    (s.cmd.srcPresent = true → s.cmd.sinkPresent = true →
      ∃ t, exec .compress s = .next t ∧ t.result = .error (.io .source) ∧ t.engine = .idle ∧
        t.sink = s.sink ∧ t.source = s.source ∧ t.endless = s.endless)

/-! ### Whole commands -/

/-- R146, R158: a host call that decompresses a program of well-formed tokens takes one step to start, one step
a token and one step at the end, ends OK, and has put the program's output into the sink. The count of steps is
the model's choice (log entry 1). -/
def Obligations.TokenProgramRunsToItsEnd : Prop :=
  ∀ (s : State) (c : HostCall) (later : List HostCall) (ts : List Token),
    s.engine = .idle → s.host = c :: later →
    c.record = { mode := 1, srcPresent := true, sinkPresent := true } → (∀ e ∈ c.io, e = .ok) →
    (∀ tok ∈ ts, tok.WellFormed) → c.source = Encode.tokens ts → c.endless = none →
    ∃ t, Host.Core.run Sys2Proof.core (ts.length + 2) s = .next t ∧
      t.result = .ok ∧ t.engine = .idle ∧ t.sink.flatten = expand ts ∧ t.host = later

/-- R126: decompressing what COMPRESS wrote for `bytes` gives `bytes` back. -/
def Obligations.DecompressOfCompressIsTheInput : Prop :=
  ∀ (s t : State) (bytes : List Byte) (io io' : List IoEvent) (later : List HostCall),
    (∀ e ∈ io, e = .ok) → (∀ e ∈ io', e = .ok) → s.engine = .idle →
    s.host = ⟨⟨0, true, true⟩, bytes, none, io⟩ :: later → step s = .next t →
    ∃ (k : Nat) (u : State),
      Host.Core.run Sys2Proof.core k
        { t with host := [⟨⟨1, true, true⟩, t.sink.flatten, none, io'⟩] } = .next u ∧
      u.result = .ok ∧ u.engine = .idle ∧ u.sink.flatten = bytes

/-! ### Rules of the whole machine -/

/-- R23, R175: the result register changes only in a step that ends a command; an Idle engine without a call ends
none. -/
def Obligations.ResultIsWrittenOnlyAtTheEnd : Prop :=
  ∀ s t : State, step s = .next t →
    t.result = s.result ∨ (t.engine = .idle ∧ (s.engine ≠ .idle ∨ s.host ≠ []))

/-- R22, R53, R54, R59: in a step of a running command, and in every instruction (COMPRESS, which starts from Idle,
among them), however it ends, the record does not change, the source is only consumed from its front, and the sink
is only appended to. -/
def Obligations.StreamsOnlyMoveForward : Prop :=
  ∀ s t : State, (s.engine ≠ .idle ∧ step s = .next t) ∨ (∃ i : Instr, exec i s = .next t) →
    t.cmd = s.cmd ∧ t.host = s.host ∧ s.sink <+: t.sink ∧
    ∃ n, t.source = (advance n s).source ∧ t.endless = (advance n s).endless

/-- R196: at power-up the engine is Idle; R197, R198: the reset at the start of a command, whichever it is, clears
the compressor and the index, and the decompressor; and it leaves the result (R46). -/
def Obligations.ResetValuesOfTheCompressor : Prop :=
  State.reset.engine = .idle ∧
  ∀ (e : Engine) (s : State),
    let t := resetBlock e s
    (∀ i, windowByte t i = 0) ∧ t.cursor = 0 ∧ t.border = 0 ∧ t.k = 0 ∧ t.n = 0 ∧ t.P = 0 ∧
    t.litStart = 0 ∧ (∀ h j, slotOf t h j = 0) ∧ (∀ h, counterOf t h = 0) ∧
    (∀ a, Mem.read t.ring a = 0) ∧ t.inPos = 0 ∧ t.wcur = 0 ∧ t.produced = 0 ∧ t.flushed = 0 ∧
    t.nextHalf = 0 ∧ t.fsm = .readTokenHeader ∧ t.engine = e ∧ t.result = s.result

/-- No step of a state that meets the decompressor's invariant stops the machine, and no step is refused
(R175: every error is an abort, never a stop). -/
def Obligations.EveryStepAnswers : Prop :=
  (∀ s : State, DecoderInv s → Safe s) ∧ ∀ (s : State) (r : Refusal), step s ≠ .refused r

/-! ### Invariants -/

/-- Every step keeps the four memories in canonical form and inside their spaces (R20, R51). -/
def Obligations.MemoriesStayCanonical : Prop :=
  ∀ s t : State, MemoryInv s → step s = .next t → MemoryInv t

/-- Every step keeps the decompressor's counters consistent (R38 to R41, R156). -/
def Obligations.DecoderCountersStayConsistent : Prop :=
  ∀ s t : State, DecoderInv s → step s = .next t → DecoderInv t

/-- Every step keeps the ring the history of the output: its last `min(produced, C)` bytes, and 0x00 where
nothing was written (R155, R159). -/
def Obligations.RingStaysTheOutputHistory : Prop :=
  ∀ s t : State, HistoryInv s → Mem.WF s.ring → step s = .next t → HistoryInv t

/-- Every step keeps the compressor's registers in range, the pending run ending at the cursor, and the guard
equal to the start of slot 0 (R24, R26, R27, R29 to R32). That the search registers hold anything between two
steps is the model's choice (log entry 11). -/
def Obligations.CompressorRegistersStayInRange : Prop :=
  ∀ s t : State, CompressorInv s → Mem.WF s.wb → step s = .next t → CompressorInv t

/-- The state at power-up meets every invariant. Where the spec gives no value at power-up it is the model's
(log entries 8 to 12). -/
def Obligations.ResetMeetsTheInvariants : Prop :=
  MemoryInv State.reset ∧ DecoderInv State.reset ∧ HistoryInv State.reset ∧ CompressorInv State.reset
end

