-- ==== Sys2Proof/Laws/Mem.lean ====
section
/-! SUPPORT. What reading and writing one element of a memory does: read after write, and that a write keeps
the canonical form. -/

namespace Sys2Proof.Machine.Mem

variable {w : Nat}

@[simp] theorem read_nil (a : Nat) : read ([] : Cells w) a = 0 := rfl

theorem read_cons (b : Nat) (v : BitVec w) (m : Cells w) (a : Nat) :
    read ((b, v) :: m) a = if a = b then v else read m a := rfl

/-- An index below every listed one reads as 0. -/
theorem read_of_lt {m : Cells w} {a : Nat} (h : ∀ x ∈ m, a < x.1) : read m a = 0 := by
  induction m with
  | nil => rfl
  | cons x m ih =>
    obtain ⟨b, v⟩ := x
    have hab : a < b := h (b, v) (by simp)
    rw [read_cons, if_neg (by omega)]
    exact ih fun x hx => h x (by simp [hx])

theorem wf_nil : WF ([] : Cells w) := by simp [WF]

theorem wf_tail {x : Nat × BitVec w} {m : Cells w} (h : WF (x :: m)) : WF m :=
  ⟨(List.pairwise_cons.mp h.1).2, fun y hy => h.2 y (by simp [hy])⟩

theorem lt_of_wf {x : Nat × BitVec w} {m : Cells w} (h : WF (x :: m)) : ∀ y ∈ m, x.1 < y.1 :=
  (List.pairwise_cons.mp h.1).1

theorem read_cons' (a : Nat) (v : BitVec w) (m : Cells w) (hm : ∀ x ∈ m, a < x.1) (i : Nat) :
    read (cons a v m) i = if i = a then v else read m i := by
  unfold cons
  split
  · next hv =>
    split
    · next hi => subst hi; rw [read_of_lt hm, hv]
    · rfl
  · exact read_cons ..

/-- A read after a write gives the value written, and a write leaves every other index alone. -/
theorem read_write {m : Cells w} (h : WF m) (a : Nat) (v : BitVec w) (i : Nat) :
    read (write m a v) i = if i = a then v else read m i := by
  induction m with
  | nil => exact read_cons' a v [] (by simp) i
  | cons x m ih =>
    obtain ⟨b, u⟩ := x
    have hlt : ∀ y ∈ m, b < y.1 := lt_of_wf h
    unfold write
    split
    · next hab =>
      refine read_cons' a v _ ?_ i
      intro y hy
      rcases List.mem_cons.mp hy with rfl | hy
      · exact hab
      · exact Nat.lt_trans hab (hlt y hy)
    · split
      · next hab =>
        subst hab
        rw [read_cons' a v m hlt i, read_cons]
        split <;> rfl
      · next hab =>
        rw [read_cons, read_cons, ih (wf_tail h)]
        by_cases hi : i = b
        · subst hi; rw [if_pos rfl, if_pos rfl, if_neg fun h => hab h.symm]
        · rw [if_neg hi, if_neg hi]

@[simp] theorem read_write_same {m : Cells w} (h : WF m) (a : Nat) (v : BitVec w) :
    read (write m a v) a = v := by
  rw [read_write h, if_pos rfl]

theorem read_write_other {m : Cells w} (h : WF m) {a i : Nat} (v : BitVec w) (hi : i ≠ a) :
    read (write m a v) i = read m i := by
  rw [read_write h, if_neg hi]

theorem mem_cons' {a : Nat} {v : BitVec w} {m : Cells w} {x : Nat × BitVec w} (hx : x ∈ cons a v m) :
    x = (a, v) ∨ x ∈ m := by
  unfold cons at hx
  split at hx
  · exact .inr hx
  · exact List.mem_cons.mp hx

/-- What a write lists was listed before or is the pair written. -/
theorem mem_write {m : Cells w} {a : Nat} {v : BitVec w} {x : Nat × BitVec w} (hx : x ∈ write m a v) :
    x = (a, v) ∨ x ∈ m := by
  induction m with
  | nil => exact mem_cons' hx
  | cons y m ih =>
    obtain ⟨b, u⟩ := y
    unfold write at hx
    split at hx
    · exact mem_cons' hx
    · split at hx
      · exact (mem_cons' hx).imp_right fun h => List.mem_cons_of_mem _ h
      · rcases List.mem_cons.mp hx with rfl | hx
        · exact .inr (by simp)
        · exact (ih hx).imp_right fun h => List.mem_cons_of_mem _ h

theorem wf_cons' {a : Nat} {v : BitVec w} {m : Cells w} (h : WF m) (hm : ∀ x ∈ m, a < x.1) :
    WF (cons a v m) := by
  unfold cons
  split
  · exact h
  · next hv =>
    refine ⟨List.pairwise_cons.mpr ⟨hm, h.1⟩, fun x hx => ?_⟩
    rcases List.mem_cons.mp hx with rfl | hx
    · exact hv
    · exact h.2 x hx

/-- A write keeps the canonical form. -/
theorem wf_write {m : Cells w} (h : WF m) (a : Nat) (v : BitVec w) : WF (write m a v) := by
  induction m with
  | nil => exact wf_cons' wf_nil (by simp)
  | cons x m ih =>
    obtain ⟨b, u⟩ := x
    have hlt : ∀ y ∈ m, b < y.1 := lt_of_wf h
    have ih := ih (wf_tail h)
    unfold write
    split
    · next hab =>
      refine wf_cons' h fun y hy => ?_
      rcases List.mem_cons.mp hy with rfl | hy
      · exact hab
      · exact Nat.lt_trans hab (hlt y hy)
    · split
      · next hab => subst hab; exact wf_cons' (wf_tail h) hlt
      · next hab hne =>
        refine ⟨List.pairwise_cons.mpr ⟨fun y hy => ?_, ih.1⟩, fun y hy => ?_⟩
        · rcases mem_write hy with rfl | hy
          · show b < a; omega
          · exact hlt y hy
        · rcases List.mem_cons.mp hy with rfl | hy
          · exact h.2 (b, u) (by simp)
          · exact ih.2 y hy

/-- A write inside a space stays inside it. -/
theorem within_write {m : Cells w} {size a : Nat} (h : Within m size) (ha : a < size) (v : BitVec w) :
    Within (write m a v) size := by
  intro x hx
  rcases mem_write hx with rfl | hx
  · exact ha
  · exact h x hx

theorem wf_writeList {m : Cells w} (h : WF m) (a : Nat) (vs : List (BitVec w)) :
    WF (writeList m a vs) := by
  induction vs generalizing m a with
  | nil => exact h
  | cons v vs ih => exact ih (wf_write h a v) (a + 1)

theorem within_writeList {m : Cells w} {size a : Nat} {vs : List (BitVec w)} (h : Within m size)
    (ha : a + vs.length ≤ size) : Within (writeList m a vs) size := by
  induction vs generalizing m a with
  | nil => exact h
  | cons v vs ih =>
    simp only [List.length_cons] at ha
    exact ih (within_write h (by omega) v) (by omega)

/-- A list write puts element `j` at `a + j` and leaves every other index alone. -/
theorem read_writeList {m : Cells w} (h : WF m) (a : Nat) (vs : List (BitVec w)) (i : Nat) :
    read (writeList m a vs) i =
      if a ≤ i ∧ i < a + vs.length then vs.getD (i - a) 0 else read m i := by
  induction vs generalizing m a with
  | nil => rw [if_neg (by simp)]; rfl
  | cons v vs ih =>
    rw [writeList, ih (wf_write h a v), read_write h]
    simp only [List.length_cons]
    by_cases hi : i = a
    · subst hi
      rw [if_neg (by omega), if_pos rfl, if_pos (by omega)]; simp
    · by_cases hin : a + 1 ≤ i ∧ i < a + 1 + vs.length
      · rw [if_pos hin, if_pos (by omega), show i - a = (i - (a + 1)) + 1 by omega]; simp
      · rw [if_neg hin, if_neg hi, if_neg (by omega)]

/-- Two canonical memories that read the same are the same data. -/
theorem ext_of_read {m m' : Cells w} (h : WF m) (h' : WF m') (he : ∀ a, read m a = read m' a) :
    m = m' := by
  induction m generalizing m' with
  | nil =>
    cases m' with
    | nil => rfl
    | cons y m' =>
      have := he y.1
      rw [read_nil, read_cons, if_pos rfl] at this
      exact absurd this.symm (h'.2 y (by simp))
  | cons x m ih =>
    cases m' with
    | nil =>
      have := he x.1
      rw [read_nil, read_cons, if_pos rfl] at this
      exact absurd this (h.2 x (by simp))
    | cons y m' =>
      obtain ⟨a, u⟩ := x
      obtain ⟨b, v⟩ := y
      have hx := he a
      have hy := he b
      simp only [read_cons, if_true] at hx hy
      have hu : u ≠ 0 := h.2 (a, u) (by simp)
      have hv : v ≠ 0 := h'.2 (b, v) (by simp)
      have hab : a = b := by
        rcases Nat.lt_trichotomy a b with hlt | heq | hgt
        · rw [if_neg (by omega), read_of_lt fun z hz => Nat.lt_trans hlt (lt_of_wf h' z hz)] at hx
          exact absurd hx hu
        · exact heq
        · rw [if_neg (by omega), read_of_lt fun z hz => Nat.lt_trans hgt (lt_of_wf h z hz)] at hy
          exact absurd hy.symm hv
      subst hab
      rw [if_pos rfl] at hx
      subst hx
      refine congrArg _ (ih (wf_tail h) (wf_tail h') fun i => ?_)
      have := he i
      simp only [read_cons] at this
      by_cases hi : i = a
      · subst hi
        rw [read_of_lt (lt_of_wf h), read_of_lt (lt_of_wf h')]
      · rwa [if_neg hi, if_neg hi] at this

end Sys2Proof.Machine.Mem
end

