-- ==== Sys2Proof/Laws/State.lean ====
section
/-! SUPPORT. What each named update of the state leaves in each field: one lemma per field per update. -/

namespace Sys2Proof.Machine

/-! ### abort -/

@[simp] theorem abort_host (e : Err) (s : State) : (abort e s).host = s.host := rfl
@[simp] theorem abort_engine (e : Err) (s : State) : (abort e s).engine = .idle := rfl
@[simp] theorem abort_cmd (e : Err) (s : State) : (abort e s).cmd = s.cmd := rfl
@[simp] theorem abort_result (e : Err) (s : State) : (abort e s).result = .error e := rfl
@[simp] theorem abort_source (e : Err) (s : State) : (abort e s).source = s.source := rfl
@[simp] theorem abort_endless (e : Err) (s : State) : (abort e s).endless = s.endless := rfl
@[simp] theorem abort_sink (e : Err) (s : State) : (abort e s).sink = s.sink := rfl
@[simp] theorem abort_io (e : Err) (s : State) : (abort e s).io = s.io := rfl
@[simp] theorem abort_cursor (e : Err) (s : State) : (abort e s).cursor = s.cursor := rfl
@[simp] theorem abort_wb (e : Err) (s : State) : (abort e s).wb = s.wb := rfl
@[simp] theorem abort_border (e : Err) (s : State) : (abort e s).border = s.border := rfl
@[simp] theorem abort_k (e : Err) (s : State) : (abort e s).k = s.k := rfl
@[simp] theorem abort_n (e : Err) (s : State) : (abort e s).n = s.n := rfl
@[simp] theorem abort_P (e : Err) (s : State) : (abort e s).P = s.P := rfl
@[simp] theorem abort_litStart (e : Err) (s : State) : (abort e s).litStart = s.litStart := rfl
@[simp] theorem abort_search (e : Err) (s : State) : (abort e s).search = s.search := rfl
@[simp] theorem abort_slots (e : Err) (s : State) : (abort e s).slots = s.slots := rfl
@[simp] theorem abort_rr (e : Err) (s : State) : (abort e s).rr = s.rr := rfl
@[simp] theorem abort_ring (e : Err) (s : State) : (abort e s).ring = s.ring := rfl
@[simp] theorem abort_inPos (e : Err) (s : State) : (abort e s).inPos = s.inPos := rfl
@[simp] theorem abort_wcur (e : Err) (s : State) : (abort e s).wcur = s.wcur := rfl
@[simp] theorem abort_produced (e : Err) (s : State) : (abort e s).produced = s.produced := rfl
@[simp] theorem abort_flushed (e : Err) (s : State) : (abort e s).flushed = s.flushed := rfl
@[simp] theorem abort_nextHalf (e : Err) (s : State) : (abort e s).nextHalf = s.nextHalf := rfl
@[simp] theorem abort_fsm (e : Err) (s : State) : (abort e s).fsm = s.fsm := rfl
@[simp] theorem abort_b1 (e : Err) (s : State) : (abort e s).b1 = s.b1 := rfl
@[simp] theorem abort_b2 (e : Err) (s : State) : (abort e s).b2 = s.b2 := rfl
@[simp] theorem abort_L (e : Err) (s : State) : (abort e s).L = s.L := rfl
@[simp] theorem abort_D (e : Err) (s : State) : (abort e s).D = s.D := rfl
@[simp] theorem abort_Lm (e : Err) (s : State) : (abort e s).Lm = s.Lm := rfl

/-! ### complete -/

@[simp] theorem complete_host (s : State) : (complete s).host = s.host := rfl
@[simp] theorem complete_engine (s : State) : (complete s).engine = .idle := rfl
@[simp] theorem complete_cmd (s : State) : (complete s).cmd = s.cmd := rfl
@[simp] theorem complete_result (s : State) : (complete s).result = .ok := rfl
@[simp] theorem complete_source (s : State) : (complete s).source = s.source := rfl
@[simp] theorem complete_endless (s : State) : (complete s).endless = s.endless := rfl
@[simp] theorem complete_sink (s : State) : (complete s).sink = s.sink := rfl
@[simp] theorem complete_io (s : State) : (complete s).io = s.io := rfl
@[simp] theorem complete_cursor (s : State) : (complete s).cursor = s.cursor := rfl
@[simp] theorem complete_wb (s : State) : (complete s).wb = s.wb := rfl
@[simp] theorem complete_border (s : State) : (complete s).border = s.border := rfl
@[simp] theorem complete_k (s : State) : (complete s).k = s.k := rfl
@[simp] theorem complete_n (s : State) : (complete s).n = s.n := rfl
@[simp] theorem complete_P (s : State) : (complete s).P = s.P := rfl
@[simp] theorem complete_litStart (s : State) : (complete s).litStart = s.litStart := rfl
@[simp] theorem complete_search (s : State) : (complete s).search = s.search := rfl
@[simp] theorem complete_slots (s : State) : (complete s).slots = s.slots := rfl
@[simp] theorem complete_rr (s : State) : (complete s).rr = s.rr := rfl
@[simp] theorem complete_ring (s : State) : (complete s).ring = s.ring := rfl
@[simp] theorem complete_inPos (s : State) : (complete s).inPos = s.inPos := rfl
@[simp] theorem complete_wcur (s : State) : (complete s).wcur = s.wcur := rfl
@[simp] theorem complete_produced (s : State) : (complete s).produced = s.produced := rfl
@[simp] theorem complete_flushed (s : State) : (complete s).flushed = s.flushed := rfl
@[simp] theorem complete_nextHalf (s : State) : (complete s).nextHalf = s.nextHalf := rfl
@[simp] theorem complete_fsm (s : State) : (complete s).fsm = s.fsm := rfl
@[simp] theorem complete_b1 (s : State) : (complete s).b1 = s.b1 := rfl
@[simp] theorem complete_b2 (s : State) : (complete s).b2 = s.b2 := rfl
@[simp] theorem complete_L (s : State) : (complete s).L = s.L := rfl
@[simp] theorem complete_D (s : State) : (complete s).D = s.D := rfl
@[simp] theorem complete_Lm (s : State) : (complete s).Lm = s.Lm := rfl

/-! ### resetCompressor -/

@[simp] theorem resetCompressor_host (s : State) : (resetCompressor s).host = s.host := rfl
@[simp] theorem resetCompressor_engine (s : State) : (resetCompressor s).engine = s.engine := rfl
@[simp] theorem resetCompressor_cmd (s : State) : (resetCompressor s).cmd = s.cmd := rfl
@[simp] theorem resetCompressor_result (s : State) : (resetCompressor s).result = s.result := rfl
@[simp] theorem resetCompressor_source (s : State) : (resetCompressor s).source = s.source := rfl
@[simp] theorem resetCompressor_endless (s : State) : (resetCompressor s).endless = s.endless := rfl
@[simp] theorem resetCompressor_sink (s : State) : (resetCompressor s).sink = s.sink := rfl
@[simp] theorem resetCompressor_io (s : State) : (resetCompressor s).io = s.io := rfl
@[simp] theorem resetCompressor_cursor (s : State) : (resetCompressor s).cursor = 0 := rfl
@[simp] theorem resetCompressor_wb (s : State) : (resetCompressor s).wb = [] := rfl
@[simp] theorem resetCompressor_border (s : State) : (resetCompressor s).border = 0 := rfl
@[simp] theorem resetCompressor_k (s : State) : (resetCompressor s).k = 0 := rfl
@[simp] theorem resetCompressor_n (s : State) : (resetCompressor s).n = 0 := rfl
@[simp] theorem resetCompressor_P (s : State) : (resetCompressor s).P = 0 := rfl
@[simp] theorem resetCompressor_litStart (s : State) : (resetCompressor s).litStart = 0 := rfl
@[simp] theorem resetCompressor_search (s : State) : (resetCompressor s).search = Search.reset := rfl
@[simp] theorem resetCompressor_slots (s : State) : (resetCompressor s).slots = [] := rfl
@[simp] theorem resetCompressor_rr (s : State) : (resetCompressor s).rr = [] := rfl
@[simp] theorem resetCompressor_ring (s : State) : (resetCompressor s).ring = s.ring := rfl
@[simp] theorem resetCompressor_inPos (s : State) : (resetCompressor s).inPos = s.inPos := rfl
@[simp] theorem resetCompressor_wcur (s : State) : (resetCompressor s).wcur = s.wcur := rfl
@[simp] theorem resetCompressor_produced (s : State) : (resetCompressor s).produced = s.produced := rfl
@[simp] theorem resetCompressor_flushed (s : State) : (resetCompressor s).flushed = s.flushed := rfl
@[simp] theorem resetCompressor_nextHalf (s : State) : (resetCompressor s).nextHalf = s.nextHalf := rfl
@[simp] theorem resetCompressor_fsm (s : State) : (resetCompressor s).fsm = s.fsm := rfl
@[simp] theorem resetCompressor_b1 (s : State) : (resetCompressor s).b1 = s.b1 := rfl
@[simp] theorem resetCompressor_b2 (s : State) : (resetCompressor s).b2 = s.b2 := rfl
@[simp] theorem resetCompressor_L (s : State) : (resetCompressor s).L = s.L := rfl
@[simp] theorem resetCompressor_D (s : State) : (resetCompressor s).D = s.D := rfl
@[simp] theorem resetCompressor_Lm (s : State) : (resetCompressor s).Lm = s.Lm := rfl

/-! ### resetDecompressor -/

@[simp] theorem resetDecompressor_host (s : State) : (resetDecompressor s).host = s.host := rfl
@[simp] theorem resetDecompressor_engine (s : State) : (resetDecompressor s).engine = s.engine := rfl
@[simp] theorem resetDecompressor_cmd (s : State) : (resetDecompressor s).cmd = s.cmd := rfl
@[simp] theorem resetDecompressor_result (s : State) : (resetDecompressor s).result = s.result := rfl
@[simp] theorem resetDecompressor_source (s : State) : (resetDecompressor s).source = s.source := rfl
@[simp] theorem resetDecompressor_endless (s : State) : (resetDecompressor s).endless = s.endless := rfl
@[simp] theorem resetDecompressor_sink (s : State) : (resetDecompressor s).sink = s.sink := rfl
@[simp] theorem resetDecompressor_io (s : State) : (resetDecompressor s).io = s.io := rfl
@[simp] theorem resetDecompressor_cursor (s : State) : (resetDecompressor s).cursor = s.cursor := rfl
@[simp] theorem resetDecompressor_wb (s : State) : (resetDecompressor s).wb = s.wb := rfl
@[simp] theorem resetDecompressor_border (s : State) : (resetDecompressor s).border = s.border := rfl
@[simp] theorem resetDecompressor_k (s : State) : (resetDecompressor s).k = s.k := rfl
@[simp] theorem resetDecompressor_n (s : State) : (resetDecompressor s).n = s.n := rfl
@[simp] theorem resetDecompressor_P (s : State) : (resetDecompressor s).P = s.P := rfl
@[simp] theorem resetDecompressor_litStart (s : State) : (resetDecompressor s).litStart = s.litStart := rfl
@[simp] theorem resetDecompressor_search (s : State) : (resetDecompressor s).search = s.search := rfl
@[simp] theorem resetDecompressor_slots (s : State) : (resetDecompressor s).slots = s.slots := rfl
@[simp] theorem resetDecompressor_rr (s : State) : (resetDecompressor s).rr = s.rr := rfl
@[simp] theorem resetDecompressor_ring (s : State) : (resetDecompressor s).ring = [] := rfl
@[simp] theorem resetDecompressor_inPos (s : State) : (resetDecompressor s).inPos = 0 := rfl
@[simp] theorem resetDecompressor_wcur (s : State) : (resetDecompressor s).wcur = 0 := rfl
@[simp] theorem resetDecompressor_produced (s : State) : (resetDecompressor s).produced = 0 := rfl
@[simp] theorem resetDecompressor_flushed (s : State) : (resetDecompressor s).flushed = 0 := rfl
@[simp] theorem resetDecompressor_nextHalf (s : State) : (resetDecompressor s).nextHalf = 0 := rfl
@[simp] theorem resetDecompressor_fsm (s : State) : (resetDecompressor s).fsm = .readTokenHeader := rfl
@[simp] theorem resetDecompressor_b1 (s : State) : (resetDecompressor s).b1 = 0 := rfl
@[simp] theorem resetDecompressor_b2 (s : State) : (resetDecompressor s).b2 = 0 := rfl
@[simp] theorem resetDecompressor_L (s : State) : (resetDecompressor s).L = 0 := rfl
@[simp] theorem resetDecompressor_D (s : State) : (resetDecompressor s).D = 0 := rfl
@[simp] theorem resetDecompressor_Lm (s : State) : (resetDecompressor s).Lm = 0 := rfl

/-! ### resetBlock -/

@[simp] theorem resetBlock_host (e : Engine) (s : State) : (resetBlock e s).host = s.host := rfl
@[simp] theorem resetBlock_engine (e : Engine) (s : State) : (resetBlock e s).engine = e := rfl
@[simp] theorem resetBlock_cmd (e : Engine) (s : State) : (resetBlock e s).cmd = s.cmd := rfl
@[simp] theorem resetBlock_result (e : Engine) (s : State) : (resetBlock e s).result = s.result := rfl
@[simp] theorem resetBlock_source (e : Engine) (s : State) : (resetBlock e s).source = s.source := rfl
@[simp] theorem resetBlock_endless (e : Engine) (s : State) : (resetBlock e s).endless = s.endless := rfl
@[simp] theorem resetBlock_sink (e : Engine) (s : State) : (resetBlock e s).sink = s.sink := rfl
@[simp] theorem resetBlock_io (e : Engine) (s : State) : (resetBlock e s).io = s.io := rfl
@[simp] theorem resetBlock_cursor (e : Engine) (s : State) : (resetBlock e s).cursor = 0 := rfl
@[simp] theorem resetBlock_wb (e : Engine) (s : State) : (resetBlock e s).wb = [] := rfl
@[simp] theorem resetBlock_border (e : Engine) (s : State) : (resetBlock e s).border = 0 := rfl
@[simp] theorem resetBlock_k (e : Engine) (s : State) : (resetBlock e s).k = 0 := rfl
@[simp] theorem resetBlock_n (e : Engine) (s : State) : (resetBlock e s).n = 0 := rfl
@[simp] theorem resetBlock_P (e : Engine) (s : State) : (resetBlock e s).P = 0 := rfl
@[simp] theorem resetBlock_litStart (e : Engine) (s : State) : (resetBlock e s).litStart = 0 := rfl
@[simp] theorem resetBlock_search (e : Engine) (s : State) : (resetBlock e s).search = Search.reset := rfl
@[simp] theorem resetBlock_slots (e : Engine) (s : State) : (resetBlock e s).slots = [] := rfl
@[simp] theorem resetBlock_rr (e : Engine) (s : State) : (resetBlock e s).rr = [] := rfl
@[simp] theorem resetBlock_ring (e : Engine) (s : State) : (resetBlock e s).ring = [] := rfl
@[simp] theorem resetBlock_inPos (e : Engine) (s : State) : (resetBlock e s).inPos = 0 := rfl
@[simp] theorem resetBlock_wcur (e : Engine) (s : State) : (resetBlock e s).wcur = 0 := rfl
@[simp] theorem resetBlock_produced (e : Engine) (s : State) : (resetBlock e s).produced = 0 := rfl
@[simp] theorem resetBlock_flushed (e : Engine) (s : State) : (resetBlock e s).flushed = 0 := rfl
@[simp] theorem resetBlock_nextHalf (e : Engine) (s : State) : (resetBlock e s).nextHalf = 0 := rfl
@[simp] theorem resetBlock_fsm (e : Engine) (s : State) : (resetBlock e s).fsm = .readTokenHeader := rfl
@[simp] theorem resetBlock_b1 (e : Engine) (s : State) : (resetBlock e s).b1 = 0 := rfl
@[simp] theorem resetBlock_b2 (e : Engine) (s : State) : (resetBlock e s).b2 = 0 := rfl
@[simp] theorem resetBlock_L (e : Engine) (s : State) : (resetBlock e s).L = 0 := rfl
@[simp] theorem resetBlock_D (e : Engine) (s : State) : (resetBlock e s).D = 0 := rfl
@[simp] theorem resetBlock_Lm (e : Engine) (s : State) : (resetBlock e s).Lm = 0 := rfl

/-! ### accept -/

@[simp] theorem accept_host (c : HostCall) (later : List HostCall) (s : State) :
    (accept c later s).host = later := rfl
@[simp] theorem accept_engine (c : HostCall) (later : List HostCall) (s : State) :
    (accept c later s).engine = s.engine := rfl
@[simp] theorem accept_cmd (c : HostCall) (later : List HostCall) (s : State) :
    (accept c later s).cmd = c.record := rfl
@[simp] theorem accept_result (c : HostCall) (later : List HostCall) (s : State) :
    (accept c later s).result = s.result := rfl
@[simp] theorem accept_source (c : HostCall) (later : List HostCall) (s : State) :
    (accept c later s).source = c.source := rfl
@[simp] theorem accept_endless (c : HostCall) (later : List HostCall) (s : State) :
    (accept c later s).endless = c.endless := rfl
@[simp] theorem accept_sink (c : HostCall) (later : List HostCall) (s : State) :
    (accept c later s).sink = [] := rfl
@[simp] theorem accept_io (c : HostCall) (later : List HostCall) (s : State) :
    (accept c later s).io = c.io := rfl
@[simp] theorem accept_cursor (c : HostCall) (later : List HostCall) (s : State) :
    (accept c later s).cursor = s.cursor := rfl
@[simp] theorem accept_wb (c : HostCall) (later : List HostCall) (s : State) :
    (accept c later s).wb = s.wb := rfl
@[simp] theorem accept_border (c : HostCall) (later : List HostCall) (s : State) :
    (accept c later s).border = s.border := rfl
@[simp] theorem accept_k (c : HostCall) (later : List HostCall) (s : State) :
    (accept c later s).k = s.k := rfl
@[simp] theorem accept_n (c : HostCall) (later : List HostCall) (s : State) :
    (accept c later s).n = s.n := rfl
@[simp] theorem accept_P (c : HostCall) (later : List HostCall) (s : State) :
    (accept c later s).P = s.P := rfl
@[simp] theorem accept_litStart (c : HostCall) (later : List HostCall) (s : State) :
    (accept c later s).litStart = s.litStart := rfl
@[simp] theorem accept_search (c : HostCall) (later : List HostCall) (s : State) :
    (accept c later s).search = s.search := rfl
@[simp] theorem accept_slots (c : HostCall) (later : List HostCall) (s : State) :
    (accept c later s).slots = s.slots := rfl
@[simp] theorem accept_rr (c : HostCall) (later : List HostCall) (s : State) :
    (accept c later s).rr = s.rr := rfl
@[simp] theorem accept_ring (c : HostCall) (later : List HostCall) (s : State) :
    (accept c later s).ring = s.ring := rfl
@[simp] theorem accept_inPos (c : HostCall) (later : List HostCall) (s : State) :
    (accept c later s).inPos = s.inPos := rfl
@[simp] theorem accept_wcur (c : HostCall) (later : List HostCall) (s : State) :
    (accept c later s).wcur = s.wcur := rfl
@[simp] theorem accept_produced (c : HostCall) (later : List HostCall) (s : State) :
    (accept c later s).produced = s.produced := rfl
@[simp] theorem accept_flushed (c : HostCall) (later : List HostCall) (s : State) :
    (accept c later s).flushed = s.flushed := rfl
@[simp] theorem accept_nextHalf (c : HostCall) (later : List HostCall) (s : State) :
    (accept c later s).nextHalf = s.nextHalf := rfl
@[simp] theorem accept_fsm (c : HostCall) (later : List HostCall) (s : State) :
    (accept c later s).fsm = s.fsm := rfl
@[simp] theorem accept_b1 (c : HostCall) (later : List HostCall) (s : State) :
    (accept c later s).b1 = s.b1 := rfl
@[simp] theorem accept_b2 (c : HostCall) (later : List HostCall) (s : State) :
    (accept c later s).b2 = s.b2 := rfl
@[simp] theorem accept_L (c : HostCall) (later : List HostCall) (s : State) :
    (accept c later s).L = s.L := rfl
@[simp] theorem accept_D (c : HostCall) (later : List HostCall) (s : State) :
    (accept c later s).D = s.D := rfl
@[simp] theorem accept_Lm (c : HostCall) (later : List HostCall) (s : State) :
    (accept c later s).Lm = s.Lm := rfl

/-! ### advance -/

@[simp] theorem advance_host (n : Nat) (s : State) : (advance n s).host = s.host := rfl
@[simp] theorem advance_engine (n : Nat) (s : State) : (advance n s).engine = s.engine := rfl
@[simp] theorem advance_cmd (n : Nat) (s : State) : (advance n s).cmd = s.cmd := rfl
@[simp] theorem advance_result (n : Nat) (s : State) : (advance n s).result = s.result := rfl
@[simp] theorem advance_source (n : Nat) (s : State) : (advance n s).source = s.source.drop n := rfl
@[simp] theorem advance_endless (n : Nat) (s : State) :
    (advance n s).endless = s.endless.map (·.skip (n - s.source.length)) := rfl
@[simp] theorem advance_sink (n : Nat) (s : State) : (advance n s).sink = s.sink := rfl
@[simp] theorem advance_io (n : Nat) (s : State) : (advance n s).io = s.io := rfl
@[simp] theorem advance_cursor (n : Nat) (s : State) : (advance n s).cursor = s.cursor := rfl
@[simp] theorem advance_wb (n : Nat) (s : State) : (advance n s).wb = s.wb := rfl
@[simp] theorem advance_border (n : Nat) (s : State) : (advance n s).border = s.border := rfl
@[simp] theorem advance_k (n : Nat) (s : State) : (advance n s).k = s.k := rfl
@[simp] theorem advance_n (n : Nat) (s : State) : (advance n s).n = s.n := rfl
@[simp] theorem advance_P (n : Nat) (s : State) : (advance n s).P = s.P := rfl
@[simp] theorem advance_litStart (n : Nat) (s : State) : (advance n s).litStart = s.litStart := rfl
@[simp] theorem advance_search (n : Nat) (s : State) : (advance n s).search = s.search := rfl
@[simp] theorem advance_slots (n : Nat) (s : State) : (advance n s).slots = s.slots := rfl
@[simp] theorem advance_rr (n : Nat) (s : State) : (advance n s).rr = s.rr := rfl
@[simp] theorem advance_ring (n : Nat) (s : State) : (advance n s).ring = s.ring := rfl
@[simp] theorem advance_inPos (n : Nat) (s : State) : (advance n s).inPos = s.inPos := rfl
@[simp] theorem advance_wcur (n : Nat) (s : State) : (advance n s).wcur = s.wcur := rfl
@[simp] theorem advance_produced (n : Nat) (s : State) : (advance n s).produced = s.produced := rfl
@[simp] theorem advance_flushed (n : Nat) (s : State) : (advance n s).flushed = s.flushed := rfl
@[simp] theorem advance_nextHalf (n : Nat) (s : State) : (advance n s).nextHalf = s.nextHalf := rfl
@[simp] theorem advance_fsm (n : Nat) (s : State) : (advance n s).fsm = s.fsm := rfl
@[simp] theorem advance_b1 (n : Nat) (s : State) : (advance n s).b1 = s.b1 := rfl
@[simp] theorem advance_b2 (n : Nat) (s : State) : (advance n s).b2 = s.b2 := rfl
@[simp] theorem advance_L (n : Nat) (s : State) : (advance n s).L = s.L := rfl
@[simp] theorem advance_D (n : Nat) (s : State) : (advance n s).D = s.D := rfl
@[simp] theorem advance_Lm (n : Nat) (s : State) : (advance n s).Lm = s.Lm := rfl

/-! ### insertPos -/

@[simp] theorem insertPos_host (h : BitVec 13) (p : Nat) (s : State) : (insertPos h p s).host = s.host := rfl
@[simp] theorem insertPos_engine (h : BitVec 13) (p : Nat) (s : State) :
    (insertPos h p s).engine = s.engine := rfl
@[simp] theorem insertPos_cmd (h : BitVec 13) (p : Nat) (s : State) : (insertPos h p s).cmd = s.cmd := rfl
@[simp] theorem insertPos_result (h : BitVec 13) (p : Nat) (s : State) :
    (insertPos h p s).result = s.result := rfl
@[simp] theorem insertPos_source (h : BitVec 13) (p : Nat) (s : State) :
    (insertPos h p s).source = s.source := rfl
@[simp] theorem insertPos_endless (h : BitVec 13) (p : Nat) (s : State) :
    (insertPos h p s).endless = s.endless := rfl
@[simp] theorem insertPos_sink (h : BitVec 13) (p : Nat) (s : State) : (insertPos h p s).sink = s.sink := rfl
@[simp] theorem insertPos_io (h : BitVec 13) (p : Nat) (s : State) : (insertPos h p s).io = s.io := rfl
@[simp] theorem insertPos_cursor (h : BitVec 13) (p : Nat) (s : State) :
    (insertPos h p s).cursor = s.cursor := rfl
@[simp] theorem insertPos_wb (h : BitVec 13) (p : Nat) (s : State) : (insertPos h p s).wb = s.wb := rfl
@[simp] theorem insertPos_border (h : BitVec 13) (p : Nat) (s : State) :
    (insertPos h p s).border = s.border := rfl
@[simp] theorem insertPos_k (h : BitVec 13) (p : Nat) (s : State) : (insertPos h p s).k = s.k := rfl
@[simp] theorem insertPos_n (h : BitVec 13) (p : Nat) (s : State) : (insertPos h p s).n = s.n := rfl
@[simp] theorem insertPos_P (h : BitVec 13) (p : Nat) (s : State) : (insertPos h p s).P = s.P := rfl
@[simp] theorem insertPos_litStart (h : BitVec 13) (p : Nat) (s : State) :
    (insertPos h p s).litStart = s.litStart := rfl
@[simp] theorem insertPos_search (h : BitVec 13) (p : Nat) (s : State) :
    (insertPos h p s).search = s.search := rfl
@[simp] theorem insertPos_slots (h : BitVec 13) (p : Nat) (s : State) :
    (insertPos h p s).slots = Mem.write s.slots (slotIndex h (counterOf s h).toNat) (BitVec.ofNat 14 p) := rfl
@[simp] theorem insertPos_rr (h : BitVec 13) (p : Nat) (s : State) :
    (insertPos h p s).rr = Mem.write s.rr h.toNat (counterOf s h + 1) := rfl
@[simp] theorem insertPos_ring (h : BitVec 13) (p : Nat) (s : State) : (insertPos h p s).ring = s.ring := rfl
@[simp] theorem insertPos_inPos (h : BitVec 13) (p : Nat) (s : State) :
    (insertPos h p s).inPos = s.inPos := rfl
@[simp] theorem insertPos_wcur (h : BitVec 13) (p : Nat) (s : State) : (insertPos h p s).wcur = s.wcur := rfl
@[simp] theorem insertPos_produced (h : BitVec 13) (p : Nat) (s : State) :
    (insertPos h p s).produced = s.produced := rfl
@[simp] theorem insertPos_flushed (h : BitVec 13) (p : Nat) (s : State) :
    (insertPos h p s).flushed = s.flushed := rfl
@[simp] theorem insertPos_nextHalf (h : BitVec 13) (p : Nat) (s : State) :
    (insertPos h p s).nextHalf = s.nextHalf := rfl
@[simp] theorem insertPos_fsm (h : BitVec 13) (p : Nat) (s : State) : (insertPos h p s).fsm = s.fsm := rfl
@[simp] theorem insertPos_b1 (h : BitVec 13) (p : Nat) (s : State) : (insertPos h p s).b1 = s.b1 := rfl
@[simp] theorem insertPos_b2 (h : BitVec 13) (p : Nat) (s : State) : (insertPos h p s).b2 = s.b2 := rfl
@[simp] theorem insertPos_L (h : BitVec 13) (p : Nat) (s : State) : (insertPos h p s).L = s.L := rfl
@[simp] theorem insertPos_D (h : BitVec 13) (p : Nat) (s : State) : (insertPos h p s).D = s.D := rfl
@[simp] theorem insertPos_Lm (h : BitVec 13) (p : Nat) (s : State) : (insertPos h p s).Lm = s.Lm := rfl

/-! ### storeByte -/

@[simp] theorem storeByte_host (x : Byte) (s : State) : (storeByte x s).host = s.host := rfl
@[simp] theorem storeByte_engine (x : Byte) (s : State) : (storeByte x s).engine = s.engine := rfl
@[simp] theorem storeByte_cmd (x : Byte) (s : State) : (storeByte x s).cmd = s.cmd := rfl
@[simp] theorem storeByte_result (x : Byte) (s : State) : (storeByte x s).result = s.result := rfl
@[simp] theorem storeByte_source (x : Byte) (s : State) : (storeByte x s).source = s.source := rfl
@[simp] theorem storeByte_endless (x : Byte) (s : State) : (storeByte x s).endless = s.endless := rfl
@[simp] theorem storeByte_sink (x : Byte) (s : State) : (storeByte x s).sink = s.sink := rfl
@[simp] theorem storeByte_io (x : Byte) (s : State) : (storeByte x s).io = s.io := rfl
@[simp] theorem storeByte_cursor (x : Byte) (s : State) : (storeByte x s).cursor = s.cursor := rfl
@[simp] theorem storeByte_wb (x : Byte) (s : State) : (storeByte x s).wb = s.wb := rfl
@[simp] theorem storeByte_border (x : Byte) (s : State) : (storeByte x s).border = s.border := rfl
@[simp] theorem storeByte_k (x : Byte) (s : State) : (storeByte x s).k = s.k := rfl
@[simp] theorem storeByte_n (x : Byte) (s : State) : (storeByte x s).n = s.n := rfl
@[simp] theorem storeByte_P (x : Byte) (s : State) : (storeByte x s).P = s.P := rfl
@[simp] theorem storeByte_litStart (x : Byte) (s : State) : (storeByte x s).litStart = s.litStart := rfl
@[simp] theorem storeByte_search (x : Byte) (s : State) : (storeByte x s).search = s.search := rfl
@[simp] theorem storeByte_slots (x : Byte) (s : State) : (storeByte x s).slots = s.slots := rfl
@[simp] theorem storeByte_rr (x : Byte) (s : State) : (storeByte x s).rr = s.rr := rfl
@[simp] theorem storeByte_ring (x : Byte) (s : State) :
    (storeByte x s).ring = Mem.write s.ring (s.wcur % Config.C) x := rfl
@[simp] theorem storeByte_inPos (x : Byte) (s : State) : (storeByte x s).inPos = s.inPos := rfl
@[simp] theorem storeByte_wcur (x : Byte) (s : State) : (storeByte x s).wcur = (s.wcur + 1) % Config.C := rfl
@[simp] theorem storeByte_produced (x : Byte) (s : State) : (storeByte x s).produced = s.produced + 1 := rfl
@[simp] theorem storeByte_flushed (x : Byte) (s : State) : (storeByte x s).flushed = s.flushed := rfl
@[simp] theorem storeByte_nextHalf (x : Byte) (s : State) : (storeByte x s).nextHalf = s.nextHalf := rfl
@[simp] theorem storeByte_fsm (x : Byte) (s : State) : (storeByte x s).fsm = s.fsm := rfl
@[simp] theorem storeByte_b1 (x : Byte) (s : State) : (storeByte x s).b1 = s.b1 := rfl
@[simp] theorem storeByte_b2 (x : Byte) (s : State) : (storeByte x s).b2 = s.b2 := rfl
@[simp] theorem storeByte_L (x : Byte) (s : State) : (storeByte x s).L = s.L := rfl
@[simp] theorem storeByte_D (x : Byte) (s : State) : (storeByte x s).D = s.D := rfl
@[simp] theorem storeByte_Lm (x : Byte) (s : State) : (storeByte x s).Lm = s.Lm := rfl

/-! ### placeChunk -/

@[simp] theorem placeChunk_host (bytes : List Byte) (s : State) : (placeChunk bytes s).host = s.host := rfl
@[simp] theorem placeChunk_engine (bytes : List Byte) (s : State) :
    (placeChunk bytes s).engine = s.engine := rfl
@[simp] theorem placeChunk_cmd (bytes : List Byte) (s : State) : (placeChunk bytes s).cmd = s.cmd := rfl
@[simp] theorem placeChunk_result (bytes : List Byte) (s : State) :
    (placeChunk bytes s).result = s.result := rfl
@[simp] theorem placeChunk_source (bytes : List Byte) (s : State) :
    (placeChunk bytes s).source = s.source := rfl
@[simp] theorem placeChunk_endless (bytes : List Byte) (s : State) :
    (placeChunk bytes s).endless = s.endless := rfl
@[simp] theorem placeChunk_sink (bytes : List Byte) (s : State) : (placeChunk bytes s).sink = s.sink := rfl
@[simp] theorem placeChunk_io (bytes : List Byte) (s : State) : (placeChunk bytes s).io = s.io := rfl
@[simp] theorem placeChunk_cursor (bytes : List Byte) (s : State) :
    (placeChunk bytes s).cursor = s.cursor := rfl
@[simp] theorem placeChunk_wb (bytes : List Byte) (s : State) :
    (placeChunk bytes s).wb = if s.k % 2 = 0 then mirror (Mem.writeList s.wb (slotBase s) bytes) else Mem.writeList s.wb (slotBase s) bytes := rfl
@[simp] theorem placeChunk_border (bytes : List Byte) (s : State) :
    (placeChunk bytes s).border = slotBase s + bytes.length := rfl
@[simp] theorem placeChunk_k (bytes : List Byte) (s : State) : (placeChunk bytes s).k = s.k := rfl
@[simp] theorem placeChunk_n (bytes : List Byte) (s : State) : (placeChunk bytes s).n = s.n := rfl
@[simp] theorem placeChunk_P (bytes : List Byte) (s : State) : (placeChunk bytes s).P = s.P := rfl
@[simp] theorem placeChunk_litStart (bytes : List Byte) (s : State) :
    (placeChunk bytes s).litStart = s.litStart := rfl
@[simp] theorem placeChunk_search (bytes : List Byte) (s : State) :
    (placeChunk bytes s).search = s.search := rfl
@[simp] theorem placeChunk_slots (bytes : List Byte) (s : State) : (placeChunk bytes s).slots = s.slots := rfl
@[simp] theorem placeChunk_rr (bytes : List Byte) (s : State) : (placeChunk bytes s).rr = s.rr := rfl
@[simp] theorem placeChunk_ring (bytes : List Byte) (s : State) : (placeChunk bytes s).ring = s.ring := rfl
@[simp] theorem placeChunk_inPos (bytes : List Byte) (s : State) : (placeChunk bytes s).inPos = s.inPos := rfl
@[simp] theorem placeChunk_wcur (bytes : List Byte) (s : State) : (placeChunk bytes s).wcur = s.wcur := rfl
@[simp] theorem placeChunk_produced (bytes : List Byte) (s : State) :
    (placeChunk bytes s).produced = s.produced := rfl
@[simp] theorem placeChunk_flushed (bytes : List Byte) (s : State) :
    (placeChunk bytes s).flushed = s.flushed := rfl
@[simp] theorem placeChunk_nextHalf (bytes : List Byte) (s : State) :
    (placeChunk bytes s).nextHalf = s.nextHalf := rfl
@[simp] theorem placeChunk_fsm (bytes : List Byte) (s : State) : (placeChunk bytes s).fsm = s.fsm := rfl
@[simp] theorem placeChunk_b1 (bytes : List Byte) (s : State) : (placeChunk bytes s).b1 = s.b1 := rfl
@[simp] theorem placeChunk_b2 (bytes : List Byte) (s : State) : (placeChunk bytes s).b2 = s.b2 := rfl
@[simp] theorem placeChunk_L (bytes : List Byte) (s : State) : (placeChunk bytes s).L = s.L := rfl
@[simp] theorem placeChunk_D (bytes : List Byte) (s : State) : (placeChunk bytes s).D = s.D := rfl
@[simp] theorem placeChunk_Lm (bytes : List Byte) (s : State) : (placeChunk bytes s).Lm = s.Lm := rfl

end Sys2Proof.Machine
end

