-- ==== Sys2Proof/Laws/Index.lean ====
section
/-! SUPPORT. The hash-chain index: where a slot is held, and that an insert keeps both memories of the index in
canonical form and inside their spaces. -/

namespace Sys2Proof.Machine

/-- Two slots held at one index are one slot. -/
theorem slotIndex_inj {g h : BitVec 13} {i j : Nat} (hi : i < 8) (hj : j < 8)
    (he : slotIndex g i = slotIndex h j) : g = h ∧ i = j := by
  unfold slotIndex Config.CHAIN at he
  exact ⟨BitVec.eq_of_toNat_eq (by omega), by omega⟩

theorem slotIndex_lt (h : BitVec 13) {j : Nat} (hj : j < 8) :
    slotIndex h j < Config.NB * Config.CHAIN := by
  have := h.isLt
  unfold slotIndex Config.NB Config.CHAIN Config.HASH_BITS
  omega

theorem counterOf_lt (s : State) (h : BitVec 13) : (counterOf s h).toNat < 8 := (counterOf s h).isLt

/-- The two memories of the index are canonical and inside their spaces. -/
abbrev IndexOk (s : State) : Prop :=
  (Mem.WF s.slots ∧ Mem.Within s.slots (Config.NB * Config.CHAIN)) ∧
  (Mem.WF s.rr ∧ Mem.Within s.rr Config.NB)

theorem indexOk_insertPos {s : State} (h : IndexOk s) (b : BitVec 13) (p : Nat) :
    IndexOk (insertPos b p s) :=
  ⟨⟨Mem.wf_write h.1.1 _ _, Mem.within_write h.1.2 (slotIndex_lt b (counterOf_lt s b)) _⟩,
    ⟨Mem.wf_write h.2.1 _ _, Mem.within_write h.2.2 b.isLt _⟩⟩

/-- A span of inserts changes the index only. -/
theorem insertSpan_eq (count q : Nat) (s : State) :
    insertSpan count q s =
      { s with slots := (insertSpan count q s).slots, rr := (insertSpan count q s).rr } := by
  induction count generalizing q s with
  | zero => rfl
  | succ count ih => rw [insertSpan, ih]; rfl

theorem indexOk_insertSpan {s : State} (h : IndexOk s) (count q : Nat) :
    IndexOk (insertSpan count q s) := by
  induction count generalizing q s with
  | zero => exact h
  | succ count ih => exact ih (indexOk_insertPos h _ _) (q + 1)

end Sys2Proof.Machine
end

