-- ==== Sys2Proof/Laws/Source.lean ====
section
/-! SUPPORT. The source as a stream (spec/20_memory.md R52, R53, R59): what `ahead` and `advance` give, for a source
that ends and for one that does not. -/

namespace Sys2Proof.Machine

/-! ### Sources that never end -/

@[simp] theorem Endless.bytes_zero (e : Endless) : e.bytes 0 = [] := rfl

@[simp] theorem Endless.skip_zero (e : Endless) : e.skip 0 = e := rfl

@[simp] theorem Endless.length_bytes (e : Endless) (n : Nat) : (e.bytes n).length = n := by
  simp [Endless.bytes]

theorem Endless.bytes_add (e : Endless) (m n : Nat) : e.bytes (m + n) = e.bytes m ++ (e.skip m).bytes n := by
  simp [Endless.bytes, Endless.skip, List.range_add, Function.comp_def, Nat.add_assoc]

theorem Endless.skip_skip (e : Endless) (m n : Nat) : (e.skip m).skip n = e.skip (m + n) := by
  simp [Endless.skip, Nat.add_assoc]

/-! ### The next bytes -/

@[simp] theorem ahead_zero (s : State) : ahead 0 s = [] := by
  cases h : s.endless <;> simp [ahead, h]

@[simp] theorem advance_zero (s : State) : advance 0 s = s := by
  cases s with | mk _ _ _ _ _ endless => cases endless <;> simp [advance]

/-- Bytes that are still in `source`. -/
theorem ahead_of_le {n : Nat} {s : State} (h : n ≤ s.source.length) : ahead n s = s.source.take n := by
  cases he : s.endless <;> simp [ahead, he, Nat.sub_eq_zero_of_le h]

theorem advance_of_le {n : Nat} {s : State} (h : n ≤ s.source.length) :
    advance n s = { s with source := s.source.drop n } := by
  cases s with | mk _ _ _ _ _ endless => cases endless <;> simp_all [advance]

/-- A source that ends. -/
theorem ahead_of_ends {s : State} (h : s.endless = none) (n : Nat) : ahead n s = s.source.take n := by
  simp [ahead, h]

theorem advance_of_ends {s : State} (h : s.endless = none) (n : Nat) :
    advance n s = { s with source := s.source.drop n } := by
  cases s with | mk _ _ _ _ _ endless => cases endless <;> simp_all [advance]

/-- A source that never ends gives as many bytes as are asked for. -/
theorem length_ahead_of_endless {s : State} (h : s.endless ≠ none) (n : Nat) : (ahead n s).length = n := by
  obtain ⟨e, he⟩ := Option.ne_none_iff_exists'.mp h
  simp [ahead, he]
  omega

theorem length_ahead_le (n : Nat) (s : State) : (ahead n s).length ≤ n := by
  cases h : s.endless with
  | none => simp [ahead, h]
  | some e => exact Nat.le_of_eq (length_ahead_of_endless (by simp [h]) n)

/-- `EOF` is where `source` is empty and nothing follows it. -/
theorem ahead_one_eq_nil {s : State} : ahead 1 s = [] ↔ s.source = [] ∧ s.endless = none := by
  cases h : s.endless with
  | none => cases hs : s.source <;> simp [ahead, h, hs]
  | some e =>
    have hl := length_ahead_of_endless (s := s) (by simp [h]) 1
    constructor
    · intro hn
      rw [hn] at hl
      cases hl
    · exact fun hn => absurd hn.2 (by simp)

/-- Bytes taken in two portions are the bytes taken at once. -/
theorem ahead_add (m n : Nat) (s : State) : ahead (m + n) s = ahead m s ++ ahead n (advance m s) := by
  cases h : s.endless with
  | none => simp [ahead, h, List.take_add]
  | some e =>
    simp only [ahead, advance, h, Option.map_some, Option.elim_some, List.length_drop]
    rcases Nat.le_total m s.source.length with hm | hm
    · simp [Nat.sub_eq_zero_of_le hm, List.take_add, show m + n - s.source.length = n - (s.source.length - m) by omega]
    · rw [List.take_of_length_le hm, List.take_of_length_le (by omega), List.drop_eq_nil_of_le hm,
        show m + n - s.source.length = m - s.source.length + n by omega, e.bytes_add]
      simp [Nat.sub_eq_zero_of_le hm]

theorem advance_add (m n : Nat) (s : State) : advance (m + n) s = advance n (advance m s) := by
  cases h : s.endless with
  | none => simp [advance, h]
  | some e =>
    simp only [advance, h, Option.map_some, List.drop_drop, List.length_drop, Endless.skip_skip]
    congr 3
    omega

end Sys2Proof.Machine
end

