-- ==== Sys2Proof/Laws/Ops.lean ====
section
/-! SUPPORT. What the shared operations do: sequencing of command pieces, the abort, the three stream calls and
the next byte of a token. -/

namespace Sys2Proof.Machine

variable {α β : Type}

/-! ### Sequencing -/

@[simp] theorem M.pure_apply (a : α) (s : State) : (pure a : M α) s = .ok a s := rfl

@[simp] theorem M.reads_apply (f : State → α) (s : State) : M.reads f s = .ok (f s) s := rfl

@[simp] theorem M.upd_apply (f : State → State) (s : State) : M.upd f s = .ok () (f s) := rfl

@[simp] theorem M.raise_apply (e : Err) (s : State) : (M.raise e : M α) s = .error e s := rfl

theorem M.bind_apply (m : M α) (f : α → M β) (s : State) :
    (m >>= f) s = match m s with
      | .ok a t => f a t
      | .error e t => .error e t := by
  simp only [bind, EStateM.bind]
  cases m s <;> rfl

@[simp] theorem M.bind_of_ok {m : M α} {f : α → M β} {s t : State} {a : α} (h : m s = .ok a t) :
    (m >>= f) s = f a t := by rw [M.bind_apply, h]

@[simp] theorem M.bind_of_error {m : M α} {f : α → M β} {s t : State} {e : Err} (h : m s = .error e t) :
    (m >>= f) s = .error e t := by rw [M.bind_apply, h]

/-- A sequence that answers has a first part that answers. -/
theorem M.bind_eq_ok {m : M α} {f : α → M β} {s t : State} {b : β} (h : (m >>= f) s = .ok b t) :
    ∃ a u, m s = .ok a u ∧ f a u = .ok b t := by
  rw [M.bind_apply] at h
  cases hm : m s with
  | ok a u => exact ⟨a, u, rfl, by rwa [hm] at h⟩
  | error e u => rw [hm] at h; cases h

/-- A sequence that raises an error raises it in its first part or in its second. -/
theorem M.bind_eq_error {m : M α} {f : α → M β} {s t : State} {e : Err} (h : (m >>= f) s = .error e t) :
    m s = .error e t ∨ ∃ a u, m s = .ok a u ∧ f a u = .error e t := by
  rw [M.bind_apply] at h
  cases hm : m s with
  | ok a u => exact .inr ⟨a, u, rfl, by rwa [hm] at h⟩
  | error e' u =>
    rw [hm] at h
    cases h
    exact .inl rfl

theorem settle_of_ok {m : M Unit} {s t : State} (h : m s = .ok () t) : settle m s = t := by
  rw [settle, h]

theorem settle_of_error {m : M Unit} {s t : State} {e : Err} (h : m s = .error e t) :
    settle m s = abort e t := by
  rw [settle, h]

/-- A piece of a command keeps a relation between the states before and after, whether it goes on or raises an
error. The relation is what `keeps_bind` carries through a sequence. -/
def Keeps (R : State → State → Prop) (m : M α) : Prop :=
  ∀ s, match m s with
    | .ok _ t => R s t
    | .error _ t => R s t

theorem keeps_bind {R : State → State → Prop} (trans : ∀ a b c, R a b → R b c → R a c)
    {m : M α} {f : α → M β} (hm : Keeps R m) (hf : ∀ a, Keeps R (f a)) : Keeps R (m >>= f) := by
  intro s
  have h := hm s
  rw [M.bind_apply]
  cases hs : m s with
  | error e t => rw [hs] at h; exact h
  | ok a t =>
    rw [hs] at h
    have h' := hf a t
    cases hu : f a t with
    | ok b u => rw [hu] at h'; simpa only [hu] using trans _ _ _ h h'
    | error e u => rw [hu] at h'; simpa only [hu] using trans _ _ _ h h'

theorem keeps_pure {R : State → State → Prop} (refl : ∀ a, R a a) (a : α) : Keeps R (pure a : M α) :=
  fun s => refl s

theorem keeps_reads {R : State → State → Prop} (refl : ∀ a, R a a) (f : State → α) :
    Keeps R (M.reads f) := fun s => refl s

theorem keeps_raise {R : State → State → Prop} (refl : ∀ a, R a a) (e : Err) :
    Keeps R (M.raise e : M α) := fun s => refl s

theorem keeps_upd {R : State → State → Prop} {f : State → State} (h : ∀ s, R s (f s)) :
    Keeps R (M.upd f) := h

/-! ### Stream calls -/

theorem srcRead_cases (n : Nat) (s : State) :
    (∃ d io, s.io = .fail d :: io ∧ srcRead n s = .error (.io .source) { s with io := io }) ∨
    ∃ m, m ≤ n ∧ srcRead n s = .ok (ahead m s) { advance m s with io := s.io.tail } := by
  unfold srcRead
  split
  · next d io h => exact .inl ⟨d, io, h, rfl⟩
  · next m io h => exact .inr ⟨min m n, Nat.min_le_right .., by rw [h]; rfl⟩
  · exact .inr ⟨n, Nat.le_refl n, rfl⟩

theorem srcByte_cases (s : State) :
    (∃ d io, s.io = .fail d :: io ∧ srcByte s = .error (.io .source) { s with io := io }) ∨
    (ahead 1 s = [] ∧ srcByte s = .ok none { s with io := s.io.tail }) ∨
    ∃ x, ahead 1 s = [x] ∧
      srcByte s = .ok (some x) { advance 1 s with io := s.io.tail, inPos := s.inPos + 1 } := by
  unfold srcByte
  split
  · next d io h => exact .inl ⟨d, io, h, rfl⟩
  · split
    · next h => exact .inr (.inl ⟨h, rfl⟩)
    · next x rest h =>
      have hl := length_ahead_le 1 s
      rw [h] at hl
      exact .inr (.inr ⟨x, by rw [h, List.length_eq_zero_iff.mp (Nat.le_zero.mp (Nat.le_of_succ_le_succ hl))], rfl⟩)

theorem sinkWrite_cases (bytes : List Byte) (s : State) :
    (∃ d io, s.io = .fail d :: io ∧ sinkWrite bytes s =
      .error (.io .sink) { s with io := io, sink := s.sink ++ [bytes.take d] }) ∨
    sinkWrite bytes s = .ok () { s with io := s.io.tail, sink := s.sink ++ [bytes] } := by
  unfold sinkWrite
  split
  · next d io h => exact .inl ⟨d, io, h, rfl⟩
  · exact .inr rfl

theorem tokenByte_cases (s : State) :
    (∃ d io, s.io = .fail d :: io ∧ tokenByte s = .error (.io .source) { s with io := io }) ∨
    (ahead 1 s = [] ∧ tokenByte s = .error (.corrupt .truncatedToken) { s with io := s.io.tail }) ∨
    ∃ x, ahead 1 s = [x] ∧
      tokenByte s = .ok x { advance 1 s with io := s.io.tail, inPos := s.inPos + 1 } := by
  unfold tokenByte
  rcases srcByte_cases s with ⟨d, io, hio, h⟩ | ⟨hs, h⟩ | ⟨x, hs, h⟩
  · exact .inl ⟨d, io, hio, M.bind_of_error h⟩
  · exact .inr (.inl ⟨hs, M.bind_of_ok h⟩)
  · exact .inr (.inr ⟨x, hs, M.bind_of_ok h⟩)

/-! ### Stream calls of a script without failures -/

theorem quiet_tail {s : State} (h : s.Quiet) : ∀ e ∈ s.io.tail, e = IoEvent.ok :=
  fun e he => h e (List.mem_of_mem_tail he)

theorem not_fail_of_quiet {s : State} (h : s.Quiet) {d : Nat} {io : List IoEvent} :
    s.io ≠ .fail d :: io := by
  intro he
  have := h (.fail d) (by rw [he]; simp)
  cases this

theorem srcRead_of_quiet {s : State} (h : s.Quiet) (n : Nat) :
    srcRead n s = .ok (ahead n s) { advance n s with io := s.io.tail } := by
  unfold srcRead
  split
  · next d io hio => exact absurd hio (not_fail_of_quiet h)
  · next m io hio => have := h (.short m) (by rw [hio]; simp); cases this
  · rfl

theorem sinkWrite_of_quiet {s : State} (h : s.Quiet) (bytes : List Byte) :
    sinkWrite bytes s = .ok () { s with io := s.io.tail, sink := s.sink ++ [bytes] } := by
  rcases sinkWrite_cases bytes s with ⟨d, io, hio, _⟩ | h'
  · exact absurd hio (not_fail_of_quiet h)
  · exact h'

theorem tokenByte_of_quiet {s : State} (h : s.Quiet) {x : Byte} (hs : ahead 1 s = [x]) :
    tokenByte s = .ok x { advance 1 s with io := s.io.tail, inPos := s.inPos + 1 } := by
  rcases tokenByte_cases s with ⟨d, io, hio, _⟩ | ⟨hn, _⟩ | ⟨y, hy, h'⟩
  · exact absurd hio (not_fail_of_quiet h)
  · rw [hs] at hn; cases hn
  · rw [hs] at hy; cases hy; exact h'

theorem tokenByte_at_end {s : State} (h : s.Quiet) (hs : ahead 1 s = []) :
    tokenByte s = .error (.corrupt .truncatedToken) { s with io := s.io.tail } := by
  rcases tokenByte_cases s with ⟨d, io, hio, _⟩ | ⟨_, h'⟩ | ⟨y, hy, _⟩
  · exact absurd hio (not_fail_of_quiet h)
  · exact h'
  · rw [hs] at hy; cases hy

end Sys2Proof.Machine
end

