-- ==== Sys2Proof/Laws/PerInstr.lean ====
section
/-! SUPPORT. Statements made instruction by instruction. Family `RoundTrip`: a well-formed instruction is decoded
from the place and value it is encoded in (spec/30_encoding.md R72, R83). -/

namespace Sys2Proof.Laws.RoundTrip

/-- Decode of encode is the instruction, if it is well-formed. -/
def Statement (i : Instr) : Prop :=
  i.WellFormed → Decode.instr (Encode.instr i) = i

theorem lit (b1 : Byte) : Statement (.lit b1) := fun h => if_pos h

theorem matchTok (b1 : Byte) : Statement (.matchTok b1) := fun h => if_neg (by rw [h]; decide)

theorem compress : Statement .compress := fun _ => rfl

theorem decompress : Statement .decompress := fun _ => rfl

end Sys2Proof.Laws.RoundTrip
end

