-- ==== Sys2Proof/Laws/Ring.lean ====
section
/-! SUPPORT. What RingPut can do, and what the pieces of LIT and MATCH keep: a relation that every primitive
piece keeps is kept by the whole instruction. -/

namespace Sys2Proof.Machine

/-- Everything MaybeFlush can do: nothing inside a half; at the end of one, the half goes to the sink, or the
sink fails. -/
theorem maybeFlush_cases (s : State) :
    (¬(s.wcur = Config.H ∨ s.wcur = 0) ∧ maybeFlush s = .ok () s) ∨
    ((s.wcur = Config.H ∨ s.wcur = 0) ∧
      ((∃ d io, s.io = .fail d :: io ∧ maybeFlush s = .error (.io .sink)
          { s with io := io, sink := s.sink ++ [(halfBytes s Config.H).take d] }) ∨
        maybeFlush s = .ok () { s with
          io := s.io.tail, sink := s.sink ++ [halfBytes s Config.H]
          flushed := s.flushed + Config.H, nextHalf := 1 - s.nextHalf })) := by
  unfold maybeFlush
  rw [M.bind_of_ok (M.reads_apply _ _)]
  by_cases h : s.wcur = Config.H ∨ s.wcur = 0
  · refine .inr ⟨h, ?_⟩
    rw [if_pos (decide_eq_true h), M.bind_of_ok (M.reads_apply _ _)]
    rcases sinkWrite_cases (halfBytes s Config.H) s with ⟨d, io, hio, hw⟩ | hw
    · exact .inl ⟨d, io, hio, M.bind_of_error hw⟩
    · refine .inr ?_
      rw [M.bind_of_ok hw]
      rfl
  · exact .inl ⟨h, by rw [if_neg (by simpa using h)]; rfl⟩

/-- RingPut in terms of MaybeFlush: the byte is stored, and the token's state is returned to. -/
theorem ringPut_eq (x : Byte) (s : State) :
    ringPut x s = match maybeFlush { storeByte x s with fsm := .maybeFlush } with
      | .ok _ t => .ok () { t with fsm := s.fsm }
      | .error e t => .error e t := by
  unfold ringPut
  rw [M.bind_of_ok (M.reads_apply _ _), M.bind_of_ok (M.upd_apply _ _), M.bind_of_ok (M.upd_apply _ _),
    M.bind_apply]
  cases maybeFlush { storeByte x s with fsm := .maybeFlush } <;> rfl

/-- The primitive pieces of a token. A relation they keep is kept by the whole token. -/
structure TokenPieces (R : State → State → Prop) : Prop where
  refl : ∀ s, R s s
  trans : ∀ a b c, R a b → R b c → R a c
  read : Keeps R srcByte
  write : ∀ bytes, Keeps R (sinkWrite bytes)
  store : ∀ s x, R s (storeByte x s)
  fsm : ∀ s f, R s { s with fsm := f }
  flushed : ∀ s, R s { s with flushed := s.flushed + Config.H, nextHalf := 1 - s.nextHalf }

/-- The pieces of LIT: those of a token, and the fields it writes. -/
structure LitPieces (R : State → State → Prop) : Prop extends TokenPieces R where
  fields : ∀ s b2 L, R s { s with b2 := b2, L := L }

/-- The pieces of MATCH: those of a token, and the fields it writes. -/
structure MatchPieces (R : State → State → Prop) : Prop extends TokenPieces R where
  fields : ∀ s b2 D, R s { s with b2 := b2, D := D }
  length : ∀ s Lm, R s { s with Lm := Lm }

variable {R : State → State → Prop}

theorem keeps_tokenByte (h : TokenPieces R) : Keeps R tokenByte := by
  unfold tokenByte
  refine keeps_bind h.trans h.read fun x => ?_
  cases x with
  | none => exact keeps_raise h.refl _
  | some x => exact keeps_pure h.refl x

theorem keeps_check (refl : ∀ s, R s s) (e : Option Corrupt) : Keeps R (check e) := by
  cases e with
  | none => exact keeps_pure refl ()
  | some e => exact keeps_raise refl _

theorem keeps_maybeFlush (h : TokenPieces R) : Keeps R maybeFlush := by
  unfold maybeFlush
  refine keeps_bind h.trans (keeps_reads h.refl _) fun full => ?_
  split
  · refine keeps_bind h.trans (keeps_reads h.refl _) fun half => ?_
    exact keeps_bind h.trans (h.write half) fun _ => keeps_upd h.flushed
  · exact keeps_pure h.refl ()

theorem keeps_ringPut (h : TokenPieces R) (x : Byte) : Keeps R (ringPut x) := by
  unfold ringPut
  refine keeps_bind h.trans (keeps_reads h.refl _) fun back => ?_
  refine keeps_bind h.trans (keeps_upd fun s => h.store s x) fun _ => ?_
  refine keeps_bind h.trans (keeps_upd fun s => h.fsm s _) fun _ => ?_
  exact keeps_bind h.trans (keeps_maybeFlush h) fun _ => keeps_upd fun s => h.fsm s back

theorem keeps_litPayload (h : TokenPieces R) (count : Nat) : Keeps R (litPayload count) := by
  induction count with
  | zero => exact keeps_pure h.refl ()
  | succ count ih =>
    exact keeps_bind h.trans (keeps_tokenByte h) fun x =>
      keeps_bind h.trans (keeps_ringPut h x) fun _ => ih

theorem keeps_copyLoop (h : TokenPieces R) (D count : Nat) : Keeps R (copyLoop D count) := by
  induction count with
  | zero => exact keeps_pure h.refl ()
  | succ count ih =>
    exact keeps_bind h.trans (keeps_reads h.refl _) fun x =>
      keeps_bind h.trans (keeps_ringPut h x) fun _ => ih

theorem keeps_litCommand (h : LitPieces R) (b1 : Byte) : Keeps R (litCommand b1) := by
  have t := h.toTokenPieces
  unfold litCommand
  refine keeps_bind t.trans (keeps_upd fun s => t.fsm s _) fun _ => ?_
  refine keeps_bind t.trans (keeps_tokenByte t) fun b2 => ?_
  refine keeps_bind t.trans (keeps_upd fun s => h.fields s b2 _) fun _ => ?_
  refine keeps_bind t.trans (keeps_check t.refl _) fun _ => ?_
  exact keeps_bind t.trans (keeps_litPayload t _) fun _ => keeps_upd fun s => t.fsm s _

theorem keeps_matchCommand (h : MatchPieces R) (b1 : Byte) : Keeps R (matchCommand b1) := by
  have t := h.toTokenPieces
  unfold matchCommand
  refine keeps_bind t.trans (keeps_upd fun s => t.fsm s _) fun _ => ?_
  refine keeps_bind t.trans (keeps_tokenByte t) fun b2 => ?_
  refine keeps_bind t.trans (keeps_upd fun s => h.fields s b2 _) fun _ => ?_
  refine keeps_bind t.trans (keeps_check t.refl _) fun _ => ?_
  refine keeps_bind t.trans (keeps_tokenByte t) fun b3 => ?_
  refine keeps_bind t.trans (keeps_upd fun s => h.length s b3) fun _ => ?_
  refine keeps_bind t.trans (keeps_check t.refl _) fun _ => ?_
  refine keeps_bind t.trans (keeps_copyLoop t _ _) fun _ => ?_
  refine keeps_bind t.trans (keeps_tokenByte t) fun x => ?_
  exact keeps_bind t.trans (keeps_ringPut t x) fun _ => keeps_upd fun s => t.fsm s _

end Sys2Proof.Machine
end

