-- ==== Sys2Proof/Laws/Window.lean ====
section
/-! SUPPORT. The window's mirror, and what the pieces of COMPRESS keep: a relation that every primitive piece
keeps is kept by the whole command. -/

namespace Sys2Proof.Machine

/-- The first `n` copies of the mirror: the guard bytes copied so far read as the start of slot 0, every other
byte as before, and the form is kept. -/
theorem mirror_foldl {m : Cells 8} (h : Mem.WF m) {n : Nat} (hn : n ≤ Config.NW) :
    Mem.WF ((List.range n).foldl (fun m j => Mem.write m (Config.NW + j) (Mem.read m j)) m) ∧
    ∀ i, Mem.read ((List.range n).foldl (fun m j => Mem.write m (Config.NW + j) (Mem.read m j)) m) i =
      if Config.NW ≤ i ∧ i < Config.NW + n then Mem.read m (i - Config.NW) else Mem.read m i := by
  induction n with
  | zero => exact ⟨h, fun i => by rw [if_neg (by omega)]; rfl⟩
  | succ n ih =>
    obtain ⟨hwf, hread⟩ := ih (by omega)
    simp only [List.range_succ, List.foldl_append, List.foldl_cons, List.foldl_nil]
    refine ⟨Mem.wf_write hwf _ _, fun i => ?_⟩
    rw [Mem.read_write hwf, hread i, hread n, if_neg (c := Config.NW ≤ n ∧ _) (by omega)]
    by_cases hi : i = Config.NW + n
    · rw [if_pos hi, if_pos (by omega), hi, Nat.add_sub_cancel_left]
    · rw [if_neg hi]
      by_cases hin : Config.NW ≤ i ∧ i < Config.NW + n
      · rw [if_pos hin, if_pos (by omega)]
      · rw [if_neg hin, if_neg (by omega)]

theorem wf_mirror {m : Cells 8} (h : Mem.WF m) : Mem.WF (mirror m) :=
  (mirror_foldl h (by decide)).1

/-- After the mirror a guard byte reads as the byte of slot 0 it mirrors, every other byte as before. -/
theorem read_mirror {m : Cells 8} (h : Mem.WF m) (i : Nat) :
    Mem.read (mirror m) i =
      if Config.NW ≤ i ∧ i < Config.NW + Config.G then Mem.read m (i - Config.NW) else Mem.read m i :=
  (mirror_foldl h (by decide)).2 i

theorem within_mirror {m : Cells 8} (h : Mem.Within m (Config.NW + Config.G)) :
    Mem.Within (mirror m) (Config.NW + Config.G) := by
  have key : ∀ n, n ≤ Config.G → Mem.Within ((List.range n).foldl
      (fun m j => Mem.write m (Config.NW + j) (Mem.read m j)) m) (Config.NW + Config.G) := by
    intro n
    induction n with
    | zero => exact fun _ => h
    | succ n ih =>
      intro hn
      simp only [List.range_succ, List.foldl_append, List.foldl_cons, List.foldl_nil]
      exact Mem.within_write (ih (by omega)) (by omega) _
  exact key _ (Nat.le_refl _)

/-- The primitive pieces of COMPRESS after its reset. A relation they keep is kept by the whole of it. -/
structure CompressPieces (R : State → State → Prop) : Prop where
  refl : ∀ s, R s s
  trans : ∀ a b c, R a b → R b c → R a c
  read : ∀ n, Keeps R (srcRead n)
  write : ∀ bytes, Keeps R (sinkWrite bytes)
  flushed : ∀ s len, R s { s with litStart := (s.litStart + len) % Config.NW, P := s.P - len }
  search : ∀ s r, R s { s with search := r }
  span : ∀ s l, R s (insertSpan (l + 1) s.cursor s)
  matched : ∀ s l, R s
    { s with cursor := s.cursor + l + 1, litStart := (s.cursor + l + 1) % Config.NW, P := 0 }
  literal : ∀ s h, R s
    { insertPos h s.cursor s with cursor := s.cursor + 1, P := s.P + 1 }
  count : ∀ s m, R s { s with n := m }
  place : ∀ s bytes, R s (placeChunk bytes s)
  wrap : ∀ s, R s (wrapCursor s)
  next : ∀ s, R s { s with k := s.k + 1 }
  done : ∀ s, R s (complete s)

variable {R : State → State → Prop}

theorem keeps_flushLoop (h : CompressPieces R) (fuel : Nat) : Keeps R (flushLoop fuel) := by
  induction fuel with
  | zero => exact keeps_pure h.refl ()
  | succ fuel ih =>
    unfold flushLoop
    refine keeps_bind h.trans (keeps_reads h.refl _) fun P => ?_
    split
    · exact keeps_pure h.refl ()
    · refine keeps_bind h.trans (keeps_reads h.refl _) fun run => ?_
      refine keeps_bind h.trans (h.write _) fun _ => ?_
      refine keeps_bind h.trans (h.write _) fun _ => ?_
      exact keeps_bind h.trans (keeps_upd fun s => h.flushed s _) fun _ => ih

theorem keeps_flushLiterals (h : CompressPieces R) : Keeps R flushLiterals :=
  keeps_bind h.trans (keeps_reads h.refl _) fun P => keeps_flushLoop h P

theorem keeps_matchStep (h : CompressPieces R) (d l : Nat) : Keeps R (matchStep d l) := by
  unfold matchStep
  refine keeps_bind h.trans (keeps_flushLiterals h) fun _ => ?_
  refine keeps_bind h.trans (keeps_reads h.refl _) fun t => ?_
  refine keeps_bind h.trans (h.write _) fun _ => ?_
  exact keeps_bind h.trans (keeps_upd fun s => h.span s l) fun _ => keeps_upd fun s => h.matched s l

theorem keeps_scanStep (h : CompressPieces R) : Keeps R scanStep := by
  unfold scanStep
  refine keeps_bind h.trans (keeps_reads h.refl _) fun b => ?_
  refine keeps_bind h.trans (keeps_upd fun s => h.search s _) fun _ => ?_
  refine keeps_bind h.trans (keeps_reads h.refl _) fun r => ?_
  split
  · exact keeps_matchStep h _ _
  · exact keeps_upd fun s => h.literal s b

theorem keeps_scanLoop (h : CompressPieces R) (fuel : Nat) : Keeps R (scanLoop fuel) := by
  induction fuel with
  | zero => exact keeps_pure h.refl ()
  | succ fuel ih =>
    unfold scanLoop
    refine keeps_bind h.trans (keeps_reads h.refl _) fun inside => ?_
    split
    · exact keeps_bind h.trans (keeps_scanStep h) fun _ => ih
    · exact keeps_pure h.refl ()

theorem keeps_forceFlush (h : CompressPieces R) : Keeps R forceFlush := by
  unfold forceFlush
  refine keeps_bind h.trans (keeps_reads h.refl _) fun P => ?_
  split
  · exact keeps_flushLiterals h
  · exact keeps_pure h.refl ()

theorem keeps_refillCycle (h : CompressPieces R) : Keeps R refillCycle := by
  unfold refillCycle
  refine keeps_bind h.trans (h.read _) fun bytes => ?_
  refine keeps_bind h.trans (keeps_upd fun s => h.count s _) fun _ => ?_
  split
  · exact keeps_pure h.refl true
  · refine keeps_bind h.trans (keeps_upd fun s => h.place s bytes) fun _ => ?_
    refine keeps_bind h.trans (keeps_reads h.refl _) fun steps => ?_
    refine keeps_bind h.trans (keeps_scanLoop h steps) fun _ => ?_
    refine keeps_bind h.trans (keeps_upd h.wrap) fun _ => ?_
    refine keeps_bind h.trans (keeps_forceFlush h) fun _ => ?_
    split
    · exact keeps_pure h.refl true
    · exact keeps_bind h.trans (keeps_upd h.next) fun _ => keeps_pure h.refl false

theorem keeps_refillLoop (h : CompressPieces R) (fuel : Nat) : Keeps R (refillLoop fuel) := by
  induction fuel with
  | zero => exact keeps_pure h.refl false
  | succ fuel ih =>
    unfold refillLoop
    refine keeps_bind h.trans (keeps_refillCycle h) fun last => ?_
    split
    · exact keeps_pure h.refl true
    · exact ih

theorem keeps_compressBody (h : CompressPieces R) : Keeps R compressBody := by
  unfold compressBody
  refine keeps_bind h.trans (keeps_reads h.refl _) fun cycles => ?_
  refine keeps_bind h.trans (keeps_refillLoop h cycles) fun ended => ?_
  split
  · exact keeps_bind h.trans (keeps_flushLiterals h) fun _ => keeps_upd h.done
  · exact keeps_pure h.refl ()

end Sys2Proof.Machine
end

