-- ==== Sys2Proof/Tests/Slice0.lean ====
section
/-! SUPPORT. The model's own tests, and a witness for the hypotheses of every statement of
Sys2Proof/Certificates/Slice0/Obligations.lean. Expected values come from spec/95_test_vectors.md (named in each
docstring) or are written out by hand from the encodings of spec/30_encoding.md. -/

namespace Sys2Proof.Tests

open Sys2Proof.Machine

/-! ### Small states -/

/-- DECOMPRESS running at a token boundary, nothing produced yet, with the bytes still to come. -/
def decoding (bytes : List Byte) : State :=
  { State.reset with
    engine := .decompress, cmd := ⟨1, true, true⟩, source := bytes }

/-- COMPRESS about to run on the bytes. -/
def compressing (bytes : List Byte) : State :=
  { State.reset with cmd := ⟨0, true, true⟩, source := bytes }

/-- A source that never ends, after the bytes. -/
def endlessly (s : State) : State :=
  { s with endless := some ⟨0, 0⟩ }

/-- An Idle engine with one call waiting. -/
def called (c : HostCall) : State :=
  { State.reset with host := [c] }

/-- `decoding` after one literal `A`: one byte in the ring, not flushed. -/
def seeded (bytes : List Byte) : State :=
  { decoding bytes with ring := [(0, 0x41#8)], wcur := 1, produced := 1 }

/-- `decoding` with `n` zero bytes produced, of which whole halves were flushed. -/
def produced (n : Nat) (bytes : List Byte) : State :=
  { decoding bytes with
    wcur := n % 8192, produced := n, flushed := n / 4096 * 4096, nextHalf := BitVec.ofNat 1 (n / 4096) }

/-- `n` bytes 0x42. -/
def run (n : Nat) : List Byte :=
  List.replicate n 0x42#8

theorem length_run (n : Nat) : (run n).length = n := List.length_replicate

/-- The state a step, or an instruction, answers with. -/
def after : Host.Outcome State Fault Refusal → Option State
  | .next t => some t
  | _ => none

/-- The state a piece of a command goes on in. -/
def goesOn (r : MResult Unit) : Option State :=
  match r with
  | .ok _ t => some t
  | .error _ _ => none

theorem exists_next {o : Host.Outcome State Fault Refusal} {p : State → Bool} (h : (after o).any p = true) :
    ∃ t, o = .next t ∧ p t = true := by
  cases o with
  | next t => exact ⟨t, rfl, h⟩
  | fault _ => cases h
  | refused _ => cases h

theorem exists_ok {r : MResult Unit} {p : State → Bool} (h : (goesOn r).any p = true) :
    ∃ t, r = .ok () t ∧ p t = true := by
  cases r with
  | ok _ t => exact ⟨t, rfl, h⟩
  | error _ _ => cases h

/-! ### WellFormed -/

/-- R72: a LIT whose `b1` has bit 0 clear is refused. -/
theorem test_wf_refuses_lit_with_match_type : ¬ (Instr.lit 0x06#8).WellFormed := by decide

/-- R72: a MATCH whose `b1` has bit 0 set is refused. -/
theorem test_wf_refuses_match_with_lit_type : ¬ (Instr.matchTok 0x07#8).WellFormed := by decide

theorem test_wf_accepts : (Instr.lit 0xff#8).WellFormed ∧ (Instr.matchTok 0xfe#8).WellFormed ∧
    Instr.compress.WellFormed ∧ Instr.decompress.WellFormed := by decide

/-- R75: an empty literal run is refused. -/
theorem test_wf_refuses_empty_lit : ¬ (Token.lit []).WellFormed := by decide

/-- R75: a literal run of 16384 bytes is refused, one of 16383 is accepted. -/
theorem test_wf_lit_max :
    ¬ (Token.lit (run 16384)).WellFormed ∧ (Token.lit (run 16383)).WellFormed := by
  simp [Token.WellFormed, Config.LIT_MAX, length_run]

/-- R76: distances 0 and 8193 are refused. -/
theorem test_wf_refuses_distance :
    ¬ (Token.matchTok 0 3 0).WellFormed ∧ ¬ (Token.matchTok 8193 3 0).WellFormed := by decide

/-- R77: lengths 2 and 256 are refused. -/
theorem test_wf_refuses_length :
    ¬ (Token.matchTok 1 2 0).WellFormed ∧ ¬ (Token.matchTok 1 256 0).WellFormed := by decide

/-- R124: what the encoder writes is narrower: no distance below 3, no length above the distance. -/
theorem test_emitted_refuses :
    ¬ (Token.matchTok 2 3 0).Emitted ∧ ¬ (Token.matchTok 8193 3 0).Emitted ∧
    ¬ (Token.matchTok 8 2 0).Emitted ∧ ¬ (Token.matchTok 4 5 0).Emitted ∧
    ¬ (Token.matchTok 8192 256 0).Emitted ∧ ¬ (Token.lit []).Emitted := by decide

/-! ### Decoding and encoding, words written out from the formats -/

/-- R72, R83: LIT `b1 = 0000011_1`, MATCH `b1 = 0000011_0`, the two modes. -/
theorem test_decode_instr :
    Decode.instr (.header 0b00000111#8) = .lit 0b00000111#8 ∧
    Decode.instr (.header 0b00000110#8) = .matchTok 0b00000110#8 ∧
    Decode.instr (.mode 0b0#1) = .compress ∧ Decode.instr (.mode 0b1#1) = .decompress := by decide

/-- R73: LIT of 3 bytes: `b1 = {3, 1}`, `b2 = {0, 0}`. R74: MATCH 3, 3, 'a' (V-E-9) and MATCH 8192, 255, 'B'
(V-E-13), `b2 = {0, 64}`. -/
theorem test_decode_tokens :
    Decode.token [0b00000111#8, 0b00000000#8, 0x61#8, 0x62#8, 0x63#8, 0x00#8] =
      some (.ok (.lit [0x61#8, 0x62#8, 0x63#8], [0x00#8])) ∧
    Decode.token [0b00000110#8, 0b00000000#8, 0b00000011#8, 0x61#8] =
      some (.ok (.matchTok 3 3 0x61#8, [])) ∧
    Decode.token [0b00000000#8, 0b01000000#8, 0b11111111#8, 0x42#8] =
      some (.ok (.matchTok 8192 255 0x42#8, [])) := by decide

/-- The table's words 1 and 0 are read as tokens (log entry 3). -/
theorem test_decode_table_words :
    decodeTableWord 8 1 = some (.lit 0x01#8) ∧ decodeTableWord 8 0 = some (.matchTok 0x00#8) := by decide

/-- V-E-1 to V-E-7: the header of a literal token. -/
theorem test_encode_lit :
    [1, 2, 127, 128, 255, 8192, 16383].map (fun L => Encode.lit (BitVec.ofNat 14 L)) =
      [[0x03#8, 0x00#8], [0x05#8, 0x00#8], [0xff#8, 0x00#8], [0x01#8, 0x01#8], [0xff#8, 0x01#8],
        [0x01#8, 0x40#8], [0xff#8, 0x7f#8]] := by decide

/-- V-E-8 to V-E-13. -/
theorem test_encode_match :
    Encode.tokens [.matchTok 1 3 0x41#8, .matchTok 127 4 0x00#8, .matchTok 128 255 0xff#8,
        .matchTok 8191 10 0x01#8, .matchTok 8192 255 0x42#8] =
      [0x02#8, 0x00#8, 0x03#8, 0x41#8, 0xfe#8, 0x00#8, 0x04#8, 0x00#8, 0x00#8, 0x01#8, 0xff#8, 0xff#8,
        0xfe#8, 0x3f#8, 0x0a#8, 0x01#8, 0x00#8, 0x40#8, 0xff#8, 0x42#8] := by decide

/-- R84: the listing. -/
theorem test_listing :
    Listing.token (.lit [0x0a#8, 0xff#8]) = "LIT [0a ff]" ∧
    Listing.token (.matchTok 6 4 0x63#8) = "MATCH 6, 4, 0x63" := by decide +kernel

/-! ### Parameters and index -/

theorem test_config_legal : Config.Legal := by unfold Config.Legal; decide

/-- V-H-1, V-H-5, V-H-6, V-H-7, V-H-15. -/
theorem test_hash :
    hash3 0x61 0x62 0x63 = 2117#13 ∧ hash3 0 0 0 = 0#13 ∧ hash3 1 0 0 = 5062#13 ∧
    hash3 0xff 0xff 0xff = 857#13 ∧ hash3 0x63 0x62 0x61 = 4452#13 := by decide

/-- V-I-1, V-I-2: nine inserts; the ninth overwrites the oldest. -/
theorem test_insert :
    candidates (insertPos 7 5 State.reset) 7 = [5, 0, 0, 0, 0, 0, 0, 0] ∧
    candidates ((List.range 9).foldl (fun s p => insertPos 7 (p + 1) s) State.reset) 7 =
      [9, 2, 3, 4, 5, 6, 7, 8] ∧
    counterOf ((List.range 9).foldl (fun s p => insertPos 7 (p + 1) s) State.reset) 7 = 1 := by decide

/-- V-LF-4: a pending run that crosses the end of the window. -/
theorem test_flush_wraps :
    (match flushLiterals { State.reset with P := 6, litStart := 16380, wb := [(0, 9#8), (16383, 7#8)] } with
      | .ok _ t => some (t.sink, t.litStart, t.P)
      | .error _ _ => none) =
    some ([[0x0d#8, 0x00#8], [0#8, 0#8, 0#8, 7#8, 9#8, 0#8]], 2, 0) := by decide

/-! ### Instructions -/

/-- V-X-7's first token: LIT "A" puts one byte into the ring. -/
theorem test_lit :
    (after (exec (.lit 0x03#8) (decoding [0x00#8, 0x41#8, 0x02#8]))).map
        (fun t => (t.ring, t.wcur, t.source, t.inPos, t.L)) =
      some ([(0, 0x41#8)], 1, [0x02#8], 2, 1#15) := by decide

/-- V-X-6: a set reserved bit makes the length 16384. -/
theorem test_lit_reserved_bit :
    (after (exec (.lit 0x01#8) (decoding [0x80#8, 0x41#8]))).map (fun t => (t.result, t.source, t.engine)) =
      some (.error (.corrupt .invalidLiteralLength), [0x41#8], .idle) := by decide

/-- P-1: the overlapping copy of E1. -/
theorem test_match_overlaps :
    (after (exec (.matchTok 0x02#8) (seeded [0x00#8, 0x05#8, 0x42#8]))).map
        (fun t => (t.output, t.wcur, t.produced, t.fsm)) =
      some ([0x41#8, 0x41#8, 0x41#8, 0x41#8, 0x41#8, 0x41#8, 0x42#8], 7, 7, .readTokenHeader) := by decide

/-- V-X-4: the distance is checked before the length byte is read. -/
theorem test_match_checks_distance_first :
    (after (exec (.matchTok 0x00#8) (decoding [0x00#8, 0x02#8]))).map (fun t => (t.result, t.source, t.inPos)) =
      some (.error (.corrupt .invalidMatchDistance), [0x02#8], 1) := by decide

/-- V-C-8: "abcabca" compresses to LIT "abc"; MATCH 3, 3, 'a'. -/
theorem test_compress :
    (after (exec .compress (compressing [0x61#8, 0x62#8, 0x63#8, 0x61#8, 0x62#8, 0x63#8, 0x61#8]))).map
        (fun t => (t.sink.flatten, t.result, t.cursor, t.P, t.litStart)) =
      some ([0x07#8, 0x00#8, 0x61#8, 0x62#8, 0x63#8, 0x06#8, 0x00#8, 0x03#8, 0x61#8], .ok, 7, 0, 7) := by
  decide +kernel

/-- V-X-18: an absent source. -/
theorem test_compress_absent_source :
    (after (exec .compress { State.reset with source := [1] })).map (fun t => (t.result.code, t.result.info)) =
      some (1#3, some .source) := by decide

/-- R198: the start of DECOMPRESS clears the ring and the counters. -/
theorem test_decompress :
    (after (exec .decompress { seeded [0x03#8] with engine := .idle, fsm := .done })).map
        (fun t => (t.ring, t.wcur, t.produced, t.fsm, t.engine)) =
      some ([], 0, 0, .readTokenHeader, .decompress) := by decide

/-- D11, R196: the reset reaches both halves, whichever command starts. -/
theorem test_reset_is_whole :
    let s : State := { seeded [] with
      wb := [(0, 7#8)], cursor := 7, P := 3, slots := [(0, 1#14)], rr := [(0, 1#3)], b2 := 9 }
    (after (exec .decompress s)).map (fun t => (t.wb, t.cursor, t.slots)) = some ([], 0, []) ∧
    (after (exec .compress s)).map (fun t => (t.ring, t.wcur, t.produced, t.b2)) = some ([], 0, 0, 0) :=
  ⟨by decide, by decide +kernel⟩

/-- V-X-19: an absent sink. -/
theorem test_decompress_absent_sink :
    (after (exec .decompress { State.reset with cmd := ⟨1, true, false⟩ })).map
        (fun t => (t.result.code, t.result.info, t.engine)) =
      some (1#3, some .sink, .idle) := by decide

/-- V-D-1: the empty stream ends OK without a sink call. -/
theorem test_step_end_of_empty_stream :
    (after (step (decoding []))).map (fun t => (t.result, t.sink, t.fsm)) = some (.ok, [], .done) := by decide

/-- A fetched word runs as the next instruction from reset: LIT 1 with zeros after it is V-X-5. -/
theorem test_step_fetch_word :
    (after (step (State.reset.withFetchWord 8 1))).map (fun t => (t.result, t.b1, t.inPos)) =
      some (.error (.corrupt .invalidLiteralLength), 0x01#8, 2) := by decide +kernel

/-- R172: the codes of OK and the six errors. -/
theorem test_result_codes :
    [Result.ok, .error (.precondition .source), .error (.corrupt .truncatedToken),
      .error (.corrupt .invalidLiteralLength), .error (.corrupt .invalidMatchDistance),
      .error (.corrupt .invalidMatchLength), .error (.io .sink)].map Result.code = [0, 1, 2, 3, 4, 5, 6] := by
  decide

/-! ### Witnesses: encoding -/

theorem witness_header : (0x01#8).getLsbD 0 = true ∧ (0xff#8).getLsbD 0 = true ∧
    (0x00#8).getLsbD 0 = false ∧ (0xfe#8).getLsbD 0 = false := by decide

/-- The checks at the ends of their ranges: lengths 0, 1, 16383, 16384; distances 0, 1, 8192, 8193; match
lengths 2, 3, 255. -/
theorem witness_field_checks :
    [(0x01#8, 0x00#8), (0x03#8, 0x00#8), (0xff#8, 0x7f#8), (0x01#8, 0x80#8)].map
        (fun b => Decode.checkLitLength (Decode.field b.1 b.2)) =
      [some .invalidLiteralLength, none, none, some .invalidLiteralLength] ∧
    [(0x00#8, 0x00#8), (0x02#8, 0x00#8), (0x00#8, 0x40#8), (0x02#8, 0x40#8)].map
        (fun b => Decode.checkDistance (Decode.field b.1 b.2)) =
      [some .invalidMatchDistance, none, none, some .invalidMatchDistance] ∧
    [0x02#8, 0x03#8, 0xff#8].map Decode.checkMatchLength = [some .invalidMatchLength, none, none] := by decide

/-- `EncodersWriteTheFields`: lengths 1 and 16383, distances 3 and 8192. -/
theorem witness_encoders : (1 ≤ 1 ∧ 1 ≤ 16383) ∧ (1 ≤ 16383 ∧ 16383 ≤ 16383) ∧ (3 ≤ 3 ∧ 3 ≤ 8192) ∧
    (3 ≤ 8192 ∧ 8192 ≤ 8192) := by decide

/-- `TokenDecodeOfEncode`: the smallest and the largest token of each type. -/
theorem witness_well_formed_tokens :
    (Token.lit [0x41#8]).WellFormed ∧ (Token.lit (run 16383)).WellFormed ∧
    (Token.matchTok 1 3 0x00#8).WellFormed ∧ (Token.matchTok 8192 255 0xff#8).WellFormed := by
  simp [Token.WellFormed, length_run, Config.LIT_MAX, Config.C, Config.MIN_MATCH, Config.MAX_MATCH]

/-- `TokenEncodeOfDecode`. -/
theorem witness_decoded_token :
    Decode.token [0x03#8, 0x00#8, 0x41#8, 0x02#8] = some (.ok (.lit [0x41#8], [0x02#8])) ∧
    Decode.token [0x02#8, 0x00#8, 0x03#8, 0x42#8] = some (.ok (.matchTok 1 3 0x42#8, [])) := by decide

/-- `IllegalEncodingsAreNamed`, clause by clause: LIT lengths 0 and 16384; MATCH distances 0, 8193 and 16384;
MATCH lengths 0 and 2 at distances 1 and 8192; the first byte alone and all but the last byte of a token. -/
theorem witness_illegal_encodings :
    ((0x01#8).getLsbD 0 = true ∧ 0x80 ≤ (0x80#8).toNat) ∧
    ((0x00#8).getLsbD 0 = false ∧ 8192 < (0x02#8).toNat / 2 + 128 * (0x40#8).toNat) ∧
    ((0x00#8).getLsbD 0 = false ∧ 8192 < (0x00#8).toNat / 2 + 128 * (0x80#8).toNat) ∧
    ((0x02#8).getLsbD 0 = false ∧ 1 ≤ (0x02#8).toNat / 2 + 128 * (0x00#8).toNat ∧
      (0x02#8).toNat / 2 + 128 * (0x00#8).toNat ≤ 8192 ∧ (0x00#8).toNat < 3) ∧
    ((0x00#8).getLsbD 0 = false ∧ 1 ≤ (0x00#8).toNat / 2 + 128 * (0x40#8).toNat ∧
      (0x00#8).toNat / 2 + 128 * (0x40#8).toNat ≤ 8192 ∧ (0x02#8).toNat < 3) ∧
    ((Token.lit [0x41#8]).WellFormed ∧ 0 < 1 ∧ 1 < (Token.lit [0x41#8]).size) ∧
    ((Token.matchTok 1 3 0).WellFormed ∧ 0 < 3 ∧ 3 < (Token.matchTok 1 3 0).size) ∧
    (Token.matchTok 8192 255 0xff#8).WellFormed := by decide

/-! ### Witnesses: the compressor's operations -/

/-- `InsertOverwritesTheNamedSlot`: the first and the last position; another slot of the bucket, another
bucket. -/
theorem witness_insert :
    Mem.WF (insertPos 7 5 State.reset).slots ∧ Mem.WF (insertPos 7 5 State.reset).rr ∧ 0 < 16384 ∧
    16383 < 16384 ∧ (counterOf (insertPos 7 5 State.reset) 7).toNat = 1 ∧ (0 : Nat) ≠ 1 ∧
    (8 : BitVec 13) ≠ 7 := by decide

/-- `RefillPlacesTheChunk`: an even and an odd refill, a full and a short chunk. -/
theorem witness_refill :
    Mem.WF ({ State.reset with k := 0 } : State).wb ∧ ({ State.reset with k := 0 } : State).k % 2 = 0 ∧
    Mem.WF ({ State.reset with k := 1 } : State).wb ∧ ({ State.reset with k := 1 } : State).k % 2 ≠ 0 ∧
    (run 8192).length ≤ 8192 ∧ (run 1).length ≤ 8192 := by
  rw [length_run, length_run]
  decide

/-- `FlushEmitsThePendingRun`: an empty and a pending run. -/
theorem witness_flush :
    State.reset.Quiet ∧ State.reset.P = 0 ∧ ({ State.reset with P := 16383, io := [.ok] } : State).Quiet ∧
    0 < ({ State.reset with P := 16383, io := [.ok] } : State).P := by decide

/-- `MatchStepEmitsTheToken`: the smallest and the largest match. -/
theorem witness_match_step :
    ({ State.reset with P := 2, io := [.ok] } : State).Quiet ∧ (3 ≤ 3 ∧ 3 ≤ 8192) ∧ (3 ≤ 3 ∧ 3 ≤ 255) ∧
    (3 ≤ 8192 ∧ 8192 ≤ 8192) ∧ (3 ≤ 255 ∧ 255 ≤ 255) := by decide

/-- `SearchKeepsTheFirstLongest`: a search that finds something (bestLen 3 at distance 3), and one that finds
nothing. -/
theorem witness_search :
    let s : State := { State.reset with
      wb := [(0, 1#8), (1, 2#8), (2, 3#8), (3, 1#8), (4, 2#8), (5, 3#8)], cursor := 3, border := 7 }
    (searchMatch s 0).bestLen = 3 ∧ (searchMatch s 0).bestDist = 3 ∧
    (searchMatch { s with cursor := 2 } 0).bestLen = 0 := by decide

/-- `ScanStepAdvancesInsideTheChunk`: a match of the least length, a shorter one, the border, a step that goes on and
one whose write fails. -/
theorem witness_scan_step :
    let s : State := { State.reset with
      wb := [(0, 1#8), (1, 2#8), (2, 3#8), (3, 1#8), (4, 2#8), (5, 3#8)], cursor := 3, border := 7 }
    3 ≤ (searchMatch s (hashAt s s.cursor)).bestLen ∧
    (searchMatch { s with border := 6 } (hashAt s s.cursor)).bestLen < 3 ∧
    ({ s with border := 3 } : State).border ≤ ({ s with border := 3 } : State).cursor ∧
    s.cursor < s.border ∧ (∃ t, scanStep s = .ok () t ∧ decide (t.cursor = 7) = true) ∧
    ∃ t, scanStep { s with io := [.fail 0] } = .error (.io .sink) t :=
  ⟨by decide, by decide, by decide, by decide, exists_ok (by decide +kernel), ⟨_, by rfl⟩⟩

/-- `CycleEndWrapsAndFlushes`: both sides of both bounds. -/
theorem witness_cycle_end :
    16384 ≤ ({ State.reset with cursor := 16384 } : State).cursor ∧
    ({ State.reset with cursor := 16383 } : State).cursor < 16384 ∧
    8192 ≤ ({ State.reset with P := 8192 } : State).P ∧ ({ State.reset with P := 8191 } : State).P < 8192 := by
  decide

/-- `LoopBoundsAreNeverReached`: the least bound and a larger one. -/
theorem witness_loop_bounds :
    (compressing [1, 2]).endless = none ∧ (compressing [1, 2]).source.length + 1 ≤ 3 ∧ (compressing [1, 2]).source.length + 1 ≤ 100 ∧
    ({ State.reset with border := 2 } : State).border - ({ State.reset with border := 2 } : State).cursor ≤ 2 ∧
    ({ State.reset with P := 5 } : State).P ≤ 5 ∧ 255 ≤ 255 := by decide

/-- The step of a refill cycle that goes on. -/
theorem exists_cycle {r : MResult Bool} {p : Bool → State → Bool} (h : (match r with
    | .ok last t => p last t
    | .error _ _ => false) = true) : ∃ last t, r = .ok last t ∧ p last t = true := by
  cases r with
  | ok last t => exact ⟨last, t, rfl, h⟩
  | error _ _ => cases h

/-- `RefillCycleRunsInOrder`: no bytes, and a short chunk whose scan and flush go on. -/
theorem witness_refill_cycle :
    (compressing []).Quiet ∧ ahead 8192 (compressing []) = [] ∧
    (compressing [1]).Quiet ∧ ahead 8192 (compressing [1]) = [1] ∧
    let u := placeChunk [1] { advance 8192 (compressing [1]) with n := 1 }
    (∃ v, scanLoop (u.border - u.cursor) u = .ok () v ∧ decide (v.P = 1) = true) ∧
    ∃ w, forceFlush (wrapCursor u) = .ok () w ∧ decide (w.P = 0) = true :=
  ⟨by decide, by decide, by decide, by decide, exists_ok (by decide +kernel), exists_ok (by decide +kernel)⟩

/-- A full chunk of a source that never ends. -/
theorem witness_full_chunk : (endlessly (compressing [])).Quiet ∧
    8192 ≤ (ahead 8192 (endlessly (compressing []))).length :=
  ⟨by decide, by rw [length_ahead_of_endless (by decide)]⟩

/-! ### Witnesses: COMPRESS -/

/-- `CompressRepeatsTheRefillCycle`: both streams; a last cycle, with a flush that goes on and one that fails; a
failing cycle. -/
theorem witness_compress_cycles :
    (compressing [1]).cmd.srcPresent = true ∧ (compressing [1]).cmd.sinkPresent = true ∧
    ({ compressing [1] with engine := .compress } : State).engine = .compress ∧
    (∃ last t, refillCycle (compressing [1]) = .ok last t ∧ (last && decide (t.P = 1)) = true) ∧
    (∃ u, flushLiterals { State.reset with P := 1 } = .ok () u ∧ decide (u.P = 0) = true) ∧
    (∃ u, flushLiterals { State.reset with P := 1, io := [.fail 0] } = .error (.io .sink) u) ∧
    ∃ t, refillCycle { compressing [1] with io := [.fail 0] } = .error (.io .source) t :=
  ⟨rfl, rfl, rfl, exists_cycle (by decide +kernel), exists_ok (by decide +kernel), ⟨_, by rfl⟩, ⟨_, by rfl⟩⟩

/-- A full chunk is not the last one: with the cursor at the chunk's end there is nothing to scan. -/
theorem full_cycle_goes_on {s : State} (hq : s.Quiet) (hl : (ahead 8192 s).length = 8192)
    (hc : s.cursor = 8192) (hk : s.k = 0) (hP : s.P = 0) : ∃ t, refillCycle s = .ok false t := by
  unfold refillCycle
  rw [M.bind_of_ok (show srcRead Config.S s = _ from srcRead_of_quiet hq 8192), M.bind_of_ok (M.upd_apply _ _),
    if_neg (by rw [hl]; decide), M.bind_of_ok (M.upd_apply _ _), M.bind_of_ok (M.reads_apply _ _)]
  simp only [placeChunk_border, placeChunk_cursor, slotBase, hk, hc, hl, advance_k, advance_cursor]
  rw [M.bind_of_ok (show scanLoop (0 % 2 * Config.W + 8192 - 8192) _ = .ok () _ from rfl), M.bind_of_ok (M.upd_apply _ _)]
  have hf : ∀ u : State, u.P = 0 → forceFlush u = .ok () u := by
    intro u hu
    unfold forceFlush
    rw [M.bind_of_ok (M.reads_apply _ _), hu, if_neg (by decide)]
    rfl
  rw [M.bind_of_ok (hf _ (by
    unfold wrapCursor
    split <;> simp only [placeChunk_P, advance_P, hP])), if_neg (by decide), M.bind_of_ok (M.upd_apply _ _)]
  exact ⟨_, rfl⟩

/-- `CompressRepeatsTheRefillCycle`: a cycle that is not the last one, of a source that ends and of one that does
not. -/
theorem witness_cycle_goes_on :
    (∃ t, refillCycle { compressing (run 8192) with cursor := 8192 } = .ok false t) ∧
    ({ compressing (run 8192) with cursor := 8192 } : State).endless = none ∧
    (∃ t, refillCycle { endlessly (compressing []) with cursor := 8192 } = .ok false t) ∧
    ({ endlessly (compressing []) with cursor := 8192 } : State).endless ≠ none := by
  refine ⟨full_cycle_goes_on (fun _ h => (List.not_mem_nil h).elim) ?_ rfl rfl rfl, rfl,
    full_cycle_goes_on (fun _ h => (List.not_mem_nil h).elim) (length_ahead_of_endless (by decide) _) rfl rfl rfl,
    by decide⟩
  rw [ahead_of_ends rfl, List.length_take]
  exact (congrArg (min 8192) (length_run 8192)).trans (by decide)

/-- `EndlessSourceNeverEnds`: a source that never ends, for COMPRESS, and for a DECOMPRESS that ends. -/
theorem witness_endless :
    (endlessly (compressing [1])).Quiet ∧ (endlessly (compressing [1])).cmd.srcPresent = true ∧
    (endlessly (compressing [1])).cmd.sinkPresent = true ∧ (endlessly (compressing [1])).endless ≠ none ∧
    (endlessly (decoding [0x01#8, 0x00#8])).engine = .decompress ∧
    (endlessly (decoding [0x01#8, 0x00#8])).endless ≠ none ∧
    ∃ t, step (endlessly (decoding [0x01#8, 0x00#8])) = .next t ∧ decide (t.engine = .idle) = true :=
  ⟨by decide, rfl, rfl, by decide, rfl, by decide, exists_next (by decide)⟩

/-- Byte by byte, what a source that never ends gives is what the host's source is. -/
theorem test_endless_byte :
    ahead 3 (endlessly (compressing [7])) = [7, Config.hostByte 0 0, Config.hostByte 0 1] := rfl

/-- R122: the next byte of such a source is the next one of the same source. -/
theorem test_endless_advance : (advance 3 (endlessly (compressing [7]))).endless = some ⟨0, 2⟩ := by decide

/-- `AbsentStreamEndsTheCommand`: each clause, for each command. -/
theorem witness_absent_stream :
    (Instr.compress = .compress ∨ Instr.compress = .decompress) ∧
    (Instr.decompress = .compress ∨ Instr.decompress = .decompress) ∧
    State.reset.cmd.srcPresent = false ∧
    ({ State.reset with cmd := ⟨0, true, false⟩ } : State).cmd.srcPresent = true ∧
    ({ State.reset with cmd := ⟨0, true, false⟩ } : State).cmd.sinkPresent = false := by decide

/-- `CompressCompletes`, `CompressWritesLegalTokens`, `CompressLeavesTheDecompressor`,
`CompressNeverReportsCorruption`: a run over one byte, with an answer in the I/O script. -/
theorem witness_compress :
    let s := { compressing [0x61#8] with io := [.ok] }
    s.Quiet ∧ s.cmd.srcPresent = true ∧ s.cmd.sinkPresent = true ∧ s.endless = none ∧
      ∃ t, exec .compress s = .next t ∧ decide (t.sink.flatten = [0x03#8, 0x00#8, 0x61#8]) = true :=
  ⟨by decide, rfl, rfl, rfl, exists_next (by decide +kernel)⟩

/-- `CompressWritesLegalTokens`, `CompressNeverReportsCorruption` and `CompressLeavesTheDecompressor` in the step of a
running COMPRESS, here one that ends. -/
theorem witness_compress_running :
    ({ compressing [0x61#8] with engine := .compress } : State).engine = .compress ∧
    ∃ t, step { compressing [0x61#8] with engine := .compress } = .next t ∧ decide (t.engine = .idle) = true :=
  ⟨rfl, exists_next (by decide +kernel)⟩

/-- `CompressWritesLegalTokens` where a write fails: the header of the literal token is cut off. -/
theorem witness_compress_failing :
    ∃ t, exec .compress { compressing [0x61#8] with io := [.ok, .fail 1] } = .next t ∧
      decide (t.sink.flatten = [0x03#8] ∧ t.result = .error (.io .sink)) = true :=
  exists_next (by decide +kernel)

/-- `CompressOfEmptyInputWritesNothing`. -/
theorem witness_compress_empty :
    (compressing []).Quiet ∧ (compressing []).cmd.srcPresent = true ∧ (compressing []).cmd.sinkPresent = true ∧
    ahead 1 (compressing []) = [] := by decide

/-- `CompressedTokensStandForTheInput`: V-C-8, a run whose tokens hold a LIT and a MATCH. -/
theorem witness_compressed_tokens :
    let s := compressing [0x61#8, 0x62#8, 0x63#8, 0x61#8, 0x62#8, 0x63#8, 0x61#8]
    let lit : Token := .lit [0x61#8, 0x62#8, 0x63#8]
    s.Quiet ∧ s.cmd.srcPresent = true ∧ s.cmd.sinkPresent = true ∧ s.endless = none ∧
      [lit, .matchTok 3 3 0x61#8] = [lit] ++ Token.matchTok 3 3 0x61#8 :: [] ∧
      [lit, .matchTok 3 3 0x61#8] = [] ++ lit :: [.matchTok 3 3 0x61#8] ∧
      ∃ t, exec .compress s = .next t ∧
        decide (t.sink.flatten = Encode.tokens [lit, .matchTok 3 3 0x61#8]) = true :=
  ⟨by decide, rfl, rfl, rfl, rfl, rfl, exists_next (by decide +kernel)⟩

/-- `CompressIgnoresEarlierState`: the same call in the reset state and in a state an earlier command left. -/
theorem witness_compress_twice :
    let s := compressing [0x61#8]
    let u := { compressing [0x61#8] with
      wb := [(0, 0x61#8)], cursor := 7, border := 7, k := 3, P := 2, litStart := 5, slots := [(0, 1#14)]
      rr := [(0, 1#3)], wcur := 3 }
    s ≠ u ∧ s.cmd = u.cmd ∧ s.source = u.source ∧ s.endless = u.endless ∧ s.sink = u.sink ∧ s.io = u.io ∧
      s.cmd.srcPresent = true ∧ s.cmd.sinkPresent = true ∧
      (∃ t, exec .compress s = .next t) ∧ ∃ v, exec .compress u = .next v :=
  ⟨by decide, rfl, rfl, rfl, rfl, rfl, rfl, rfl, ⟨_, rfl⟩, ⟨_, rfl⟩⟩

/-! ### Witnesses: the decompressor -/

/-- `RingPutAppendsOneByte`: inside a half, at the end of the first half, at the end of the second. -/
theorem witness_ring_put :
    (∀ n ∈ [0, 4095, 8191], (produced n []).Quiet ∧ DecoderOk (produced n []) ∧ Mem.WF (produced n []).ring) ∧
    ((produced 0 []).wcur + 1) % 8192 = 1 ∧ ((produced 4095 []).wcur + 1) % 8192 = 4096 ∧
    ((produced 8191 []).wcur + 1) % 8192 = 0 := by decide

/-- `CopyRepeatsTheLastBytes`: an overlapping copy, and one from the far end of the ring. -/
theorem witness_copy :
    (seeded []).Quiet ∧ DecoderOk (seeded []) ∧ Mem.WF (seeded []).ring ∧ (1 ≤ 1 ∧ 1 ≤ 8192) ∧
    (1 ≤ 8192 ∧ 8192 ≤ 8192) ∧ (3 ≤ 3 ∧ 3 ≤ 255) ∧ (3 ≤ 255 ∧ 255 ≤ 255) ∧
    ((0 < 3 ∧ 0 < 1) ∧ (2 < 3 ∧ 1 ≤ 2)) ∧ (254 < 255 ∧ 254 < 8192) := by decide

/-- `LitPutsOutItsPayload`: payloads of 1 and of 16383 bytes; the last clause at both ends. -/
theorem witness_lit :
    (seeded [0x00#8, 0x42#8, 0x99#8]).Quiet ∧ DecoderOk (seeded [0x00#8, 0x42#8, 0x99#8]) ∧
    Mem.WF (seeded [0x00#8, 0x42#8, 0x99#8]).ring ∧
    ahead (1 + 1) (seeded [0x00#8, 0x42#8, 0x99#8]) = 0x00#8 :: [0x42#8] ∧
    ahead (1 + 1) (endlessly (seeded [0x00#8, 0x42#8])) = 0x00#8 :: [0x42#8] ∧
    (Decode.field 0x03#8 0x00#8).toNat = ([0x42#8] : List Byte).length ∧ (0 < 1 ∧ 1 ≤ 0 + 8192) := by decide

theorem witness_lit_longest :
    let s := decoding (0x7f#8 :: run 16383)
    s.Quiet ∧ DecoderOk s ∧ Mem.WF s.ring ∧ ahead (1 + (run 16383).length) s = 0x7f#8 :: run 16383 ∧
    (Decode.field 0xff#8 0x7f#8).toNat = (run 16383).length ∧ 1 ≤ (run 16383).length ∧
    (run 16383).length ≤ 16383 ∧ (16382 < (run 16383).length ∧ (run 16383).length ≤ 16382 + 8192) ∧
    (run 16383).length ≤ 8191 + 8192 := by
  refine ⟨fun _ h => (List.not_mem_nil h).elim, by decide, Mem.wf_nil, ?_, by rw [length_run]; decide⟩
  rw [ahead_of_ends rfl]
  exact List.take_of_length_le (by rw [Nat.add_comm]; exact Nat.le_refl _)

/-- `MatchPutsOutCopyAndLiteral`: distance 1 and length 3, distance 8192 and length 255. -/
theorem witness_match :
    (∀ bytes ∈ [[0x00#8, 0x03#8, 0x42#8], [0x40#8, 0xff#8, 0x42#8]],
      (seeded bytes).Quiet ∧ DecoderOk (seeded bytes) ∧ Mem.WF (seeded bytes).ring ∧
        ahead 3 (seeded bytes) = bytes) ∧
    (1 ≤ (Decode.field 0x02#8 0x00#8).toNat ∧ (Decode.field 0x02#8 0x00#8).toNat ≤ 8192 ∧ 3 ≤ (0x03#8).toNat) ∧
    (1 ≤ (Decode.field 0x00#8 0x40#8).toNat ∧ (Decode.field 0x00#8 0x40#8).toNat ≤ 8192 ∧
      3 ≤ (0xff#8).toNat) := by decide

/-- `LitReportsItsErrors`: V-X-1; V-X-5 and V-X-6; V-X-13 and V-X-11. -/
theorem witness_lit_errors :
    ((decoding []).Quiet ∧ ahead 1 (decoding []) = []) ∧
    (ahead 1 (decoding [0x00#8]) = [0x00#8] ∧ (Decode.field 0x01#8 0x00#8).toNat = 0) ∧
    (ahead 1 (decoding [0x80#8]) = [0x80#8] ∧ 16383 < (Decode.field 0x01#8 0x80#8).toNat) ∧
    (DecoderOk (decoding [0x7f#8]) ∧ Mem.WF (decoding [0x7f#8]).ring ∧
      ahead (1 + (Decode.field 0xff#8 0x7f#8).toNat) (decoding [0x7f#8]) = 0x7f#8 :: [] ∧
      1 ≤ (Decode.field 0xff#8 0x7f#8).toNat ∧ (Decode.field 0xff#8 0x7f#8).toNat ≤ 16383 ∧
      ([] : List Byte).length < (Decode.field 0xff#8 0x7f#8).toNat) ∧
    (DecoderOk (decoding [0x00#8, 0x61#8]) ∧ Mem.WF (decoding [0x00#8, 0x61#8]).ring ∧
      ahead (1 + (Decode.field 0x07#8 0x00#8).toNat) (decoding [0x00#8, 0x61#8]) = 0x00#8 :: [0x61#8] ∧
      ([0x61#8] : List Byte).length < (Decode.field 0x07#8 0x00#8).toNat) := by decide

/-- `MatchReportsItsErrors`: V-X-14; V-X-2, V-X-10; V-X-15; V-X-7, V-X-8; V-X-16. -/
theorem witness_match_errors :
    ((seeded []).Quiet ∧ ahead 1 (seeded []) = []) ∧
    (ahead 1 (decoding [0x00#8, 0x05#8]) = [0x00#8] ∧ (Decode.field 0x00#8 0x00#8).toNat = 0) ∧
    (ahead 1 (seeded [0x40#8, 0x03#8]) = [0x40#8] ∧ 8192 < (Decode.field 0x02#8 0x40#8).toNat) ∧
    (ahead 2 (seeded [0x00#8]) = [0x00#8] ∧ 1 ≤ (Decode.field 0x02#8 0x00#8).toNat ∧
      (Decode.field 0x02#8 0x00#8).toNat ≤ 8192) ∧
    (ahead 2 (seeded [0x00#8, 0x00#8, 0x42#8]) = [0x00#8, 0x00#8] ∧ (0x00#8).toNat < 3) ∧
    (ahead 2 (seeded [0x40#8, 0x02#8]) = [0x40#8, 0x02#8] ∧ 1 ≤ (Decode.field 0x00#8 0x40#8).toNat ∧
      (Decode.field 0x00#8 0x40#8).toNat ≤ 8192 ∧ (0x02#8).toNat < 3) ∧
    (DecoderOk (seeded [0x00#8, 0x03#8]) ∧ Mem.WF (seeded [0x00#8, 0x03#8]).ring ∧
      ahead 3 (seeded [0x00#8, 0x03#8]) = [0x00#8, 0x03#8] ∧ 3 ≤ (0x03#8).toNat) := by decide

/-- `TokensRaiseOnlyTheirErrors`, `TokensWriteOnlyTheRing`: a token that is carried out, one that aborts, and a
ring address that is written beside one that is not. -/
theorem witness_tokens_end :
    (∃ t, exec (.lit 0x03#8) (seeded [0x00#8, 0x41#8]) = .next t ∧
      decide (t.engine = .decompress ∧ t.produced = 2) = true) ∧
    (∃ t, exec (.lit 0x01#8) (seeded [0x00#8]) = .next t ∧ decide (t.engine = .idle) = true) ∧
    (∃ t, exec (.matchTok 0x02#8) (seeded [0x00#8, 0x03#8, 0x42#8]) = .next t ∧
      decide (t.engine = .decompress ∧ t.produced = 5) = true) ∧
    (∃ t, exec (.matchTok 0x02#8) (seeded [0x40#8]) = .next t ∧ decide (t.engine = .idle) = true) ∧
    Mem.WF (seeded [0x00#8, 0x41#8]).ring ∧
    (Instr.lit 0x03#8 = .lit 0x03#8 ∨ Instr.lit 0x03#8 = .matchTok 0x03#8) ∧
    (Instr.matchTok 0x02#8 = .lit 0x02#8 ∨ Instr.matchTok 0x02#8 = .matchTok 0x02#8) ∧
    (∀ j, j < 2 - 1 → 0 ≠ ((seeded [0x00#8, 0x41#8]).wcur + j) % 8192) :=
  ⟨exists_next (by decide), exists_next (by decide), exists_next (by decide), exists_next (by decide), by decide,
    by decide, by decide, by decide⟩

/-- `DecompressBeginsAtATokenHeader`. -/
theorem witness_decompress :
    (decoding []).cmd.srcPresent = true ∧ (decoding []).cmd.sinkPresent = true := by decide

/-! ### Witnesses: the step -/

/-- `StepRunsTheFetchedInstruction`: an Idle engine without a call, with a call, and a token of each type. -/
theorem witness_step_runs :
    (State.reset.engine = .idle ∧ State.reset.host = []) ∧
    ((called ⟨⟨1, true, true⟩, [0x03#8], none, [.ok]⟩).engine = .idle ∧
      (called ⟨⟨1, true, true⟩, [0x03#8], none, [.ok]⟩).host = ⟨⟨1, true, true⟩, [0x03#8], none, [.ok]⟩ :: []) ∧
    (∀ b1 ∈ [0x00#8, 0x03#8, 0xff#8],
      (decoding [b1, 0x00#8]).engine = .decompress ∧ (decoding [b1, 0x00#8]).fsm = .readTokenHeader ∧
      (decoding [b1, 0x00#8]).Quiet ∧ ahead 1 (decoding [b1, 0x00#8]) = [b1]) := by decide

/-- `EndOfStreamFlushesTheRest`: nothing left, one byte left, and all but one byte of a half. -/
theorem witness_end_of_stream :
    ∀ n ∈ [0, 1, 4095, 4096, 8191], (produced n []).engine = .decompress ∧
      (produced n []).fsm = .readTokenHeader ∧ (produced n []).Quiet ∧ ahead 1 (produced n []) = [] ∧
      DecoderOk (produced n []) := by decide

/-- `StepCarriesOutTheToken`: a LIT, and MATCHes at distance 1 and 8192. -/
theorem witness_step_token :
    ∀ x ∈ [([0x03#8, 0x00#8, 0x41#8], Token.lit [0x41#8]), ([0x02#8, 0x00#8, 0x03#8, 0x42#8], .matchTok 1 3 0x42#8),
        ([0x00#8, 0x40#8, 0xff#8, 0x42#8], .matchTok 8192 255 0x42#8)],
      (seeded x.1).engine = .decompress ∧ (seeded x.1).fsm = .readTokenHeader ∧ (seeded x.1).Quiet ∧
      DecoderOk (seeded x.1) ∧ Mem.WF (seeded x.1).ring ∧
      Decode.token (ahead 4 (seeded x.1)) = some (.ok (x.2, [])) := by decide

/-- `StepNamesTheCorruptToken`: one stream for each of the four errors. -/
theorem witness_step_corrupt :
    ∀ x ∈ [([0x03#8], Corrupt.truncatedToken), ([0x01#8, 0x00#8], .invalidLiteralLength),
        ([0x00#8, 0x00#8], .invalidMatchDistance), ([0x02#8, 0x00#8, 0x02#8], .invalidMatchLength)],
      (seeded x.1).engine = .decompress ∧ (seeded x.1).fsm = .readTokenHeader ∧ (seeded x.1).Quiet ∧
      DecoderOk (seeded x.1) ∧ Mem.WF (seeded x.1).ring ∧
      Decode.token (ahead 4 (seeded x.1)) = some (.error x.2) ∧
      (seeded x.1).endless = none ∧ (seeded x.1).source.length ≤ 4 := by decide

/-- `CorruptionStopsTheOutput`: a MATCH that completes a half and is then cut off. -/
theorem witness_corruption :
    let s := produced 4094 [0x02#8, 0x00#8, 0x03#8]
    s.engine = .decompress ∧ ∃ t, step s = .next t ∧
      decide (t.engine = .idle ∧ t.result = .error (.corrupt .truncatedToken) ∧ t.sink.length = 1) = true :=
  ⟨by decide, exists_next (by decide +kernel)⟩

/-- `FailedStreamCallsRaiseIoErrors`, `FailedReadEndsTheCommand`. -/
theorem witness_failed_call :
    let s := { decoding [0x03#8] with io := [.fail 0, .ok] }
    s.io = .fail 0 :: [.ok] ∧ s.engine = .decompress ∧ s.fsm = .readTokenHeader ∧ s.cmd.srcPresent = true ∧
      s.cmd.sinkPresent = true ∧ (M.raise (.io .sink) : M Unit) s = .error (.io .sink) s :=
  ⟨rfl, rfl, rfl, rfl, rfl, rfl⟩

/-! ### Witnesses: whole commands and rules of the whole machine -/

/-- `TokenProgramRunsToItsEnd`: E1 as a host call. -/
theorem witness_token_program :
    let ts := [Token.lit [0x41#8], .matchTok 1 5 0x42#8]
    let c : HostCall := ⟨⟨1, true, true⟩, [0x03#8, 0x00#8, 0x41#8, 0x02#8, 0x00#8, 0x05#8, 0x42#8], none, [.ok]⟩
    (called c).engine = .idle ∧ (called c).host = c :: [] ∧
    c.record = { mode := 1, srcPresent := true, sinkPresent := true } ∧ (∀ e ∈ c.io, e = .ok) ∧
    (∀ tok ∈ ts, tok.WellFormed) ∧ c.source = Encode.tokens ts ∧ c.endless = none :=
  ⟨rfl, rfl, rfl, by decide,
    by simp [Token.WellFormed, Config.LIT_MAX, Config.C, Config.MIN_MATCH, Config.MAX_MATCH], by decide, rfl⟩

/-- `DecompressOfCompressIsTheInput`. -/
theorem witness_round_trip :
    let s := called ⟨⟨0, true, true⟩, [0x61#8, 0x62#8], none, [.ok]⟩
    (∀ e ∈ [IoEvent.ok], e = .ok) ∧ (∀ e ∈ ([] : List IoEvent), e = .ok) ∧ s.engine = .idle ∧
      s.host = ⟨⟨0, true, true⟩, [0x61#8, 0x62#8], none, [.ok]⟩ :: [] ∧ ∃ t, step s = .next t :=
  ⟨by decide, by decide, rfl, rfl, ⟨_, rfl⟩⟩

/-- `ResultIsWrittenOnlyAtTheEnd`, `StreamsOnlyMoveForward`: a step of a running command. -/
theorem witness_running_step :
    (decoding [0x03#8, 0x00#8, 0x41#8]).engine ≠ .idle ∧
    (∃ t, step (decoding [0x03#8, 0x00#8, 0x41#8]) = .next t ∧ decide (t.engine = .decompress) = true) ∧
    ∃ t, exec .compress { compressing [1] with io := [.fail 0] } = .next t ∧ decide (t.engine = .idle) = true :=
  ⟨by decide, exists_next (by decide), exists_next (by decide)⟩

/-- `EveryStepAnswers`, `DecoderCountersStayConsistent`: the decompressor's invariant, at rest and in a run. -/
theorem witness_decoder_inv : DecoderInv State.reset ∧ DecoderInv (seeded []) ∧
    DecoderInv (produced 8191 [0x03#8, 0x00#8, 0x41#8]) := by decide

/-- `MemoriesStayCanonical`. -/
theorem witness_memory_inv : MemoryInv (seeded [0x03#8, 0x00#8, 0x41#8]) ∧
    ∃ t, step (seeded [0x03#8, 0x00#8, 0x41#8]) = .next t ∧ decide (t.produced = 2) = true :=
  ⟨by decide, exists_next (by decide)⟩

/-- `RingStaysTheOutputHistory`: one byte in the ring, and a token to come. -/
theorem witness_history_inv : HistoryInv (seeded [0x03#8, 0x00#8, 0x41#8]) ∧
    Mem.WF (seeded [0x03#8, 0x00#8, 0x41#8]).ring := by
  refine ⟨⟨by decide, fun _ => ⟨by decide, fun D h1 h2 => ?_⟩⟩, by decide⟩
  have hout : (seeded [0x03#8, 0x00#8, 0x41#8]).output = [0x41#8] := by decide
  rw [hout]
  simp only [Config.C] at h2
  by_cases hD : D = 1
  · subst hD; decide
  · rw [if_neg (show ¬ D ≤ (seeded [0x03#8, 0x00#8, 0x41#8]).produced from fun h => hD (le_antisymm h h1))]
    simp only [copyByte, ringByte, seeded, decoding, Config.C, Mem.read]
    rw [if_neg (by omega)]

/-- `CompressorRegistersStayInRange`: a call that is about to start, and a COMPRESS that goes on in slot 1. -/
theorem witness_compressor_inv :
    (CompressorInv (called ⟨⟨0, true, true⟩, [0x61#8], none, []⟩) ∧
      Mem.WF (called ⟨⟨0, true, true⟩, [0x61#8], none, []⟩).wb ∧
      ∃ t, step (called ⟨⟨0, true, true⟩, [0x61#8], none, []⟩) = .next t) ∧
    let s := { endlessly (compressing []) with
      engine := .compress, k := 1, cursor := 8192, border := 8192, litStart := 8191, P := 1, n := 8192 }
    CompressorInv s ∧ Mem.WF s.wb ∧ ∃ t, step s = .next t := by
  refine ⟨⟨⟨?_, by decide, by decide, by decide, by decide, by decide, by decide, by decide, by decide, by decide,
    by decide, by decide, fun j _ => rfl⟩, Mem.wf_nil, ⟨_, rfl⟩⟩, ⟨?_, by decide, by decide, by decide, by decide,
    by decide, by decide, by decide, by decide, by decide, by decide, by decide, fun j _ => rfl⟩, Mem.wf_nil,
    ⟨_, rfl⟩⟩
  · exact fun h => absurd h (by decide)
  · exact fun _ => by decide

end Sys2Proof.Tests
end

/-! The parameters (spec/00_scope.md R6 to R17), and the four memories between two steps (R20, R51). -/

namespace Sys2Proof.Config

/-- R17 at this hardware's values. -/
theorem legal : Legal := by
  unfold Legal
  decide

/-- Settles O1: the constraints are arithmetic on the values the definitions give. -/
theorem parametersMeetTheConstraints : Obligations.ParametersMeetTheConstraints :=
  ⟨legal, rfl, rfl, rfl, rfl, rfl, rfl, rfl, rfl⟩

end Sys2Proof.Config

namespace Sys2Proof.Machine

variable {α β : Type} {R : State → State → Prop}

/-! ### Keeping a relation: sequences, the abort, the checks -/

/-- `keeps_bind` where the second part may rest on what the first part's answers have in common. -/
theorem keeps_bind_of_answer (trans : ∀ a b c, R a b → R b c → R a c) {m : M α} {f : α → M β}
    {p : α → Prop} (hp : ∀ s a t, m s = .ok a t → p a) (hm : Keeps R m)
    (hf : ∀ a, p a → Keeps R (f a)) : Keeps R (m >>= f) := by
  intro s
  have h := hm s
  rw [M.bind_apply]
  cases hs : m s with
  | error e t => rw [hs] at h; exact h
  | ok a t =>
    rw [hs] at h
    have h' := hf a (hp s a t hs) t
    cases hu : f a t with
    | ok b u => rw [hu] at h'; simpa only [hu] using trans _ _ _ h h'
    | error e u => rw [hu] at h'; simpa only [hu] using trans _ _ _ h h'

/-- A relation that a command piece and the abort keep holds between the states before and after the settled
piece. -/
theorem rel_settle_of_keeps (trans : ∀ a b c, R a b → R b c → R a c) (habort : ∀ e s, R s (abort e s))
    {m : M Unit} (hm : Keeps R m) (s : State) : R s (settle m s) := by
  have h := hm s
  cases hs : m s with
  | ok u t => rw [hs] at h; rwa [settle_of_ok hs]
  | error e t => rw [hs] at h; rw [settle_of_error hs]; exact trans _ _ _ h (habort e t)

theorem keeps_checkPreconditions (refl : ∀ s, R s s) : Keeps R checkPreconditions := by
  intro s
  by_cases hsrc : s.cmd.srcPresent = false
  · simpa only [checkPreconditions, if_pos hsrc] using refl s
  · by_cases hsink : s.cmd.sinkPresent = false
    · simpa only [checkPreconditions, if_neg hsrc, if_pos hsink] using refl s
    · simpa only [checkPreconditions, if_neg hsrc, if_neg hsink] using refl s

/-- R52: `SrcRead(n)` delivers at most `n` bytes. -/
theorem length_le_of_srcRead {n : Nat} {s t : State} {bytes : List Byte} (h : srcRead n s = .ok bytes t) :
    bytes.length ≤ n := by
  rcases srcRead_cases n s with ⟨d, io, -, hr⟩ | ⟨m, hm, hr⟩
  · rw [hr] at h; cases h
  · rw [hr] at h; cases h
    exact Nat.le_trans (length_ahead_le m s) hm

/-! ### COMPRESS with the chunks a refill can read

`CompressPieces` asks that a relation be kept by the placement of any list of bytes. A relation about the window's
space is not: it needs that a refill reads at most `S` bytes (R9, R103). So here the pieces of the scan, which place
nothing, stand apart from those of the refill cycle. -/

/-- The primitive pieces of the scan and of the literal flush. -/
structure ScanPieces (R : State → State → Prop) : Prop where
  refl : ∀ s, R s s
  trans : ∀ a b c, R a b → R b c → R a c
  write : ∀ bytes, Keeps R (sinkWrite bytes)
  flushed : ∀ s len, R s { s with litStart := (s.litStart + len) % Config.NW, P := s.P - len }
  search : ∀ s r, R s { s with search := r }
  span : ∀ s l, R s (insertSpan (l + 1) s.cursor s)
  matched : ∀ s l, R s
    { s with cursor := s.cursor + l + 1, litStart := (s.cursor + l + 1) % Config.NW, P := 0 }
  literal : ∀ s h, R s { insertPos h s.cursor s with cursor := s.cursor + 1, P := s.P + 1 }

/-- The primitive pieces of COMPRESS after its reset, a placed chunk having at most `S` bytes. -/
structure RefillPieces (R : State → State → Prop) : Prop extends ScanPieces R where
  read : ∀ n, Keeps R (srcRead n)
  count : ∀ s m, R s { s with n := m }
  place : ∀ s bytes, bytes.length ≤ Config.S → R s (placeChunk bytes s)
  wrap : ∀ s, R s (wrapCursor s)
  next : ∀ s, R s { s with k := s.k + 1 }
  done : ∀ s, R s (complete s)

theorem ScanPieces.keeps_flushLoop (h : ScanPieces R) (fuel : Nat) : Keeps R (flushLoop fuel) := by
  induction fuel with
  | zero => exact keeps_pure h.refl ()
  | succ fuel ih =>
    unfold flushLoop
    refine keeps_bind h.trans (keeps_reads h.refl _) fun P => ?_
    split
    · exact keeps_pure h.refl ()
    · exact keeps_bind h.trans (keeps_reads h.refl _) fun run =>
        keeps_bind h.trans (h.write _) fun _ =>
        keeps_bind h.trans (h.write _) fun _ =>
        keeps_bind h.trans (keeps_upd fun s => h.flushed s _) fun _ => ih

theorem ScanPieces.keeps_flushLiterals (h : ScanPieces R) : Keeps R flushLiterals :=
  keeps_bind h.trans (keeps_reads h.refl _) h.keeps_flushLoop

theorem ScanPieces.keeps_forceFlush (h : ScanPieces R) : Keeps R forceFlush := by
  refine keeps_bind h.trans (keeps_reads h.refl _) fun P => ?_
  split
  · exact h.keeps_flushLiterals
  · exact keeps_pure h.refl ()

theorem ScanPieces.keeps_matchStep (h : ScanPieces R) (d l : Nat) : Keeps R (matchStep d l) :=
  keeps_bind h.trans h.keeps_flushLiterals fun _ =>
    keeps_bind h.trans (keeps_reads h.refl _) fun _ =>
    keeps_bind h.trans (h.write _) fun _ =>
    keeps_bind h.trans (keeps_upd fun s => h.span s l) fun _ => keeps_upd fun s => h.matched s l

theorem ScanPieces.keeps_scanStep (h : ScanPieces R) : Keeps R scanStep := by
  refine keeps_bind h.trans (keeps_reads h.refl _) fun b =>
    keeps_bind h.trans (keeps_upd fun s => h.search s _) fun _ =>
    keeps_bind h.trans (keeps_reads h.refl _) fun r => ?_
  split
  · exact h.keeps_matchStep _ _
  · exact keeps_upd fun s => h.literal s b

theorem ScanPieces.keeps_scanLoop (h : ScanPieces R) (fuel : Nat) : Keeps R (scanLoop fuel) := by
  induction fuel with
  | zero => exact keeps_pure h.refl ()
  | succ fuel ih =>
    refine keeps_bind h.trans (keeps_reads h.refl _) fun inside => ?_
    split
    · exact keeps_bind h.trans h.keeps_scanStep fun _ => ih
    · exact keeps_pure h.refl ()

theorem RefillPieces.keeps_refillCycle (h : RefillPieces R) : Keeps R refillCycle := by
  refine keeps_bind_of_answer h.trans (fun _ _ _ => length_le_of_srcRead) (h.read _) fun bytes hlen =>
    keeps_bind h.trans (keeps_upd fun s => h.count s _) fun _ => ?_
  split
  · exact keeps_pure h.refl true
  · refine keeps_bind h.trans (keeps_upd fun s => h.place s bytes hlen) fun _ =>
      keeps_bind h.trans (keeps_reads h.refl _) fun steps =>
      keeps_bind h.trans (h.keeps_scanLoop steps) fun _ =>
      keeps_bind h.trans (keeps_upd h.wrap) fun _ =>
      keeps_bind h.trans h.keeps_forceFlush fun _ => ?_
    split
    · exact keeps_pure h.refl true
    · exact keeps_bind h.trans (keeps_upd h.next) fun _ => keeps_pure h.refl false

theorem RefillPieces.keeps_refillLoop (h : RefillPieces R) (fuel : Nat) : Keeps R (refillLoop fuel) := by
  induction fuel with
  | zero => exact keeps_pure h.refl false
  | succ fuel ih =>
    refine keeps_bind h.trans h.keeps_refillCycle fun last => ?_
    split
    · exact keeps_pure h.refl true
    · exact ih

theorem RefillPieces.keeps_compressBody (h : RefillPieces R) : Keeps R compressBody := by
  refine keeps_bind h.trans (keeps_reads h.refl _) fun cycles =>
    keeps_bind h.trans (h.keeps_refillLoop cycles) fun ended => ?_
  split
  · exact keeps_bind h.trans h.keeps_flushLiterals fun _ => keeps_upd h.done
  · exact keeps_pure h.refl ()

/-! ### What each piece does to the four memories -/

/-- From `s` to `t` the four memories stay canonical and inside their spaces. -/
def MemoryKept (s t : State) : Prop :=
  MemoryInv s → MemoryInv t

theorem MemoryKept.refl (s : State) : MemoryKept s s := id

theorem MemoryKept.trans (a b c : State) (hab : MemoryKept a b) (hbc : MemoryKept b c) : MemoryKept a c :=
  hbc ∘ hab

theorem memoryKept_of_eq {s t : State} (hwb : t.wb = s.wb) (hslots : t.slots = s.slots) (hrr : t.rr = s.rr)
    (hring : t.ring = s.ring) : MemoryKept s t := by
  intro h
  rwa [MemoryInv, hwb, hslots, hrr, hring]

theorem memoryKept_resetBlock (e : Engine) (s : State) : MemoryKept s (resetBlock e s) :=
  fun _ => by simp [MemoryInv, Mem.WF, Mem.Within]

/-- A ring write is at an index modulo `C` (R62). -/
theorem memoryKept_storeByte (s : State) (x : Byte) : MemoryKept s (storeByte x s) := by
  rintro ⟨hwb, hslots, hrr, hwf, hwithin⟩
  have hlt : s.wcur % Config.C < Config.C := Nat.mod_lt _ (by decide)
  exact ⟨hwb, hslots, hrr, Mem.wf_write hwf _ x, Mem.within_write hwithin hlt x⟩

theorem memoryKept_insertPos (s : State) (h : BitVec 13) (p : Nat) : MemoryKept s (insertPos h p s) := by
  rintro ⟨hwb, hslots, hrr, hring⟩
  obtain ⟨hslots', hrr'⟩ := indexOk_insertPos (s := s) ⟨hslots, hrr⟩ h p
  exact ⟨hwb, hslots', hrr', hring⟩

theorem memoryKept_insertSpan (s : State) (count q : Nat) : MemoryKept s (insertSpan count q s) := by
  rintro ⟨hwb, hslots, hrr, hring⟩
  obtain ⟨hslots', hrr'⟩ := indexOk_insertSpan (s := s) ⟨hslots, hrr⟩ count q
  rw [insertSpan_eq]
  exact ⟨hwb, hslots', hrr', hring⟩

/-- A chunk of at most `S` bytes ends at or before the end of its slot, so its write stays in the window (R103,
R105); the mirror then writes the guard only (R106). -/
theorem memoryKept_placeChunk (s : State) (bytes : List Byte) (hlen : bytes.length ≤ Config.S) :
    MemoryKept s (placeChunk bytes s) := by
  rintro ⟨⟨hwf, hwithin⟩, hindexAndRing⟩
  have hend : slotBase s + bytes.length ≤ Config.NW + Config.G := by
    simp only [slotBase, Config.NW, Config.G, Config.S, Config.W] at hlen ⊢
    omega
  have hwf' := Mem.wf_writeList hwf (slotBase s) bytes
  have hwithin' := Mem.within_writeList hwithin hend
  refine ⟨?_, hindexAndRing⟩
  rw [placeChunk_wb]
  split
  · exact ⟨wf_mirror hwf', within_mirror hwithin'⟩
  · exact ⟨hwf', hwithin'⟩

theorem memoryKept_wrapCursor (s : State) : MemoryKept s (wrapCursor s) := by
  unfold wrapCursor
  split
  · exact memoryKept_of_eq rfl rfl rfl rfl
  · exact MemoryKept.refl s

theorem keeps_memory_srcRead (n : Nat) : Keeps MemoryKept (srcRead n) := by
  intro s
  rcases srcRead_cases n s with ⟨d, io, -, h⟩ | ⟨m, -, h⟩ <;> rw [h] <;>
    exact memoryKept_of_eq rfl rfl rfl rfl

theorem keeps_memory_srcByte : Keeps MemoryKept srcByte := by
  intro s
  rcases srcByte_cases s with ⟨d, io, -, h⟩ | ⟨-, h⟩ | ⟨x, -, h⟩ <;> rw [h] <;>
    exact memoryKept_of_eq rfl rfl rfl rfl

theorem keeps_memory_sinkWrite (bytes : List Byte) : Keeps MemoryKept (sinkWrite bytes) := by
  intro s
  rcases sinkWrite_cases bytes s with ⟨d, io, -, h⟩ | h <;> rw [h] <;>
    exact memoryKept_of_eq rfl rfl rfl rfl

/-! ### The commands and the tokens -/

theorem refillPieces_memory : RefillPieces MemoryKept where
  refl := MemoryKept.refl
  trans := MemoryKept.trans
  write := keeps_memory_sinkWrite
  flushed _ _ := memoryKept_of_eq rfl rfl rfl rfl
  search _ _ := memoryKept_of_eq rfl rfl rfl rfl
  span s l := memoryKept_insertSpan s (l + 1) s.cursor
  matched _ _ := memoryKept_of_eq rfl rfl rfl rfl
  literal s h := memoryKept_insertPos s h s.cursor
  read := keeps_memory_srcRead
  count _ _ := memoryKept_of_eq rfl rfl rfl rfl
  place := memoryKept_placeChunk
  wrap := memoryKept_wrapCursor
  next _ := memoryKept_of_eq rfl rfl rfl rfl
  done _ := memoryKept_of_eq rfl rfl rfl rfl

theorem tokenPieces_memory : TokenPieces MemoryKept where
  refl := MemoryKept.refl
  trans := MemoryKept.trans
  read := keeps_memory_srcByte
  write := keeps_memory_sinkWrite
  store := memoryKept_storeByte
  fsm _ _ := memoryKept_of_eq rfl rfl rfl rfl
  flushed _ := memoryKept_of_eq rfl rfl rfl rfl

theorem litPieces_memory : LitPieces MemoryKept where
  toTokenPieces := tokenPieces_memory
  fields _ _ _ := memoryKept_of_eq rfl rfl rfl rfl

theorem matchPieces_memory : MatchPieces MemoryKept where
  toTokenPieces := tokenPieces_memory
  fields _ _ _ := memoryKept_of_eq rfl rfl rfl rfl
  length _ _ := memoryKept_of_eq rfl rfl rfl rfl

theorem keeps_memory_compressCommand : Keeps MemoryKept compressCommand :=
  keeps_bind MemoryKept.trans (keeps_checkPreconditions MemoryKept.refl) fun _ =>
    keeps_bind MemoryKept.trans (keeps_upd (memoryKept_resetBlock .compress)) fun _ =>
    refillPieces_memory.keeps_compressBody

theorem keeps_memory_decompressCommand : Keeps MemoryKept decompressCommand :=
  keeps_bind MemoryKept.trans (keeps_checkPreconditions MemoryKept.refl) fun _ =>
    keeps_upd (memoryKept_resetBlock .decompress)

/-- Done (R157): whether or not a rest is written, the counter and the result are written after it. -/
theorem keeps_memory_doneCommand : Keeps MemoryKept doneCommand := by
  refine keeps_bind MemoryKept.trans (keeps_upd fun _ => memoryKept_of_eq rfl rfl rfl rfl) fun _ =>
    keeps_bind MemoryKept.trans (keeps_reads MemoryKept.refl _) fun count =>
    keeps_bind MemoryKept.trans (keeps_reads MemoryKept.refl _) fun rest => ?_
  have hend : Keeps MemoryKept (do
      M.upd fun s => { s with flushed := s.flushed + count }
      M.upd complete) :=
    keeps_bind MemoryKept.trans (keeps_upd fun _ => memoryKept_of_eq rfl rfl rfl rfl) fun _ =>
      keeps_upd fun _ => memoryKept_of_eq rfl rfl rfl rfl
  dsimp only
  split
  · exact hend
  · exact keeps_bind MemoryKept.trans (keeps_memory_sinkWrite rest) fun _ => hend

/-! ### The step -/

theorem memoryKept_settle {m : M Unit} (hm : Keeps MemoryKept m) (s : State) : MemoryKept s (settle m s) :=
  rel_settle_of_keeps MemoryKept.trans (fun _ _ => memoryKept_of_eq rfl rfl rfl rfl) hm s

theorem memoryKept_exec {i : Instr} {s t : State} (h : exec i s = .next t) : MemoryKept s t := by
  cases i with
  | lit b1 => cases h; exact memoryKept_settle (keeps_litCommand litPieces_memory b1) s
  | matchTok b1 => cases h; exact memoryKept_settle (keeps_matchCommand matchPieces_memory b1) s
  | compress => cases h; exact memoryKept_settle keeps_memory_compressCommand s
  | decompress => cases h; exact memoryKept_settle keeps_memory_decompressCommand s

/-- The state a fetch leaves, whether an instruction runs in it or the step ends there. -/
def Fetched.state? : Fetched → Option State
  | .run _ t => some t
  | .settled t => some t
  | .stuck _ => none

theorem memoryKept_fetchToken {s t : State} (h : (fetchToken s).state? = some t) : MemoryKept s t := by
  have hread := keeps_memory_srcByte s
  unfold fetchToken at h
  cases hs : srcByte s with
  | error e u =>
    rw [hs] at h hread
    cases h
    exact hread
  | ok x u =>
    rw [hs] at h hread
    cases x with
    | none => cases h; exact MemoryKept.trans _ _ _ hread (memoryKept_settle keeps_memory_doneCommand u)
    | some b1 => cases h; exact hread

theorem memoryKept_fetch {s t : State} (h : (fetch s).state? = some t) : MemoryKept s t := by
  unfold fetch at h
  split at h
  · split at h
    · cases h; exact MemoryKept.refl s
    · cases h; exact memoryKept_of_eq rfl rfl rfl rfl
  · cases h; exact memoryKept_settle refillPieces_memory.keeps_compressBody s
  · split at h
    · exact memoryKept_fetchToken h
    · cases h

theorem memoryKept_step {s t : State} (h : step s = .next t) : MemoryKept s t := by
  unfold step at h
  cases hf : fetch s with
  | run i u =>
    rw [hf] at h
    exact MemoryKept.trans _ _ _ (memoryKept_fetch (by rw [hf]; rfl)) (memoryKept_exec h)
  | settled u =>
    rw [hf] at h
    cases h
    exact memoryKept_fetch (by rw [hf]; rfl)
  | stuck r => rw [hf] at h; cases h

/-- Settles O56: every piece of a step keeps the four memories, a refill's chunk because it has at most `S`
bytes. -/
theorem memoriesStayCanonical : Obligations.MemoriesStayCanonical :=
  fun _ _ hinv hstep => memoryKept_step hstep hinv

end Sys2Proof.Machine

/-! The registers between two steps (spec/10_state.md): what one step can be, what the commands leave alone, and the
ranges the registers keep. -/

namespace Sys2Proof.Machine

variable {α β : Type} {R : State → State → Prop}

/-! ### What one step can be -/

/-- The step of a running DECOMPRESS as one command piece: the header byte, then the token it selects, or the end of
the stream (R146, R149). -/
def tokenStep : M Unit := do
  match ← srcByte with
  | none => doneCommand
  | some b1 =>
    M.upd fun s => { s with b1 := b1 }
    if b1.getLsbD 0 then litCommand b1 else matchCommand b1

/-- The engine takes a call: the step runs the command its mode names. -/
theorem step_of_call {s : State} {c : HostCall} {later : List HostCall} (he : s.engine = .idle)
    (hh : s.host = c :: later) : step s = exec (Decode.mode c.record.mode) (accept c later s) := by
  simp only [step, fetch, he, hh, Decode.instr]

theorem step_of_compress {s : State} (he : s.engine = .compress) : step s = .next (settle compressBody s) := by
  simp only [step, fetch, he]

/-- The fetch of a token and its execution are `tokenStep`, with the abort taken if it raised an error. -/
theorem step_of_decompress {s : State} (he : s.engine = .decompress) (hf : s.fsm = .readTokenHeader) :
    step s = .next (settle tokenStep s) := by
  simp only [step, fetch, he, if_pos hf, fetchToken]
  cases hs : srcByte s with
  | error e u => simp only [tokenStep, settle, M.bind_of_error hs]
  | ok x u =>
    cases x with
    | none => simp only [tokenStep, settle, M.bind_of_ok hs]
    | some b1 =>
      have hsettle : settle tokenStep s =
          settle (if b1.getLsbD 0 then litCommand b1 else matchCommand b1) { u with b1 := b1 } := by
        simp only [tokenStep, settle, M.bind_of_ok hs, M.bind_of_ok (M.upd_apply _ _)]
      rw [hsettle]
      simp only [Decode.instr, Decode.header]
      split
      · rfl
      · rfl

theorem fsm_of_step_of_decompress {s t : State} (he : s.engine = .decompress) (h : step s = .next t) :
    s.fsm = .readTokenHeader := by
  by_contra hf
  simp [step, fetch, he, hf] at h

/-- The next states of one step, by what the engine is doing. -/
inductive StepsTo (s : State) : State → Prop where
  /-- An Idle engine without a call waits. -/
  | waits (he : s.engine = .idle) (hh : s.host = []) : StepsTo s s
  /-- A call whose command is COMPRESS. -/
  | compress (c : HostCall) (later : List HostCall) (he : s.engine = .idle) (hh : s.host = c :: later) :
    StepsTo s (settle compressCommand (accept c later s))
  /-- A call whose command is DECOMPRESS. -/
  | decompress (c : HostCall) (later : List HostCall) (he : s.engine = .idle) (hh : s.host = c :: later) :
    StepsTo s (settle decompressCommand (accept c later s))
  /-- A COMPRESS that goes on. -/
  | refills (he : s.engine = .compress) : StepsTo s (settle compressBody s)
  /-- A token of a running DECOMPRESS, or the end of its stream. -/
  | token (he : s.engine = .decompress) (hf : s.fsm = .readTokenHeader) : StepsTo s (settle tokenStep s)

theorem stepsTo_of_step {s t : State} (h : step s = .next t) : StepsTo s t := by
  cases he : s.engine with
  | idle =>
    cases hh : s.host with
    | nil => simp only [step, fetch, he, hh] at h; cases h; exact .waits he hh
    | cons c later =>
      rw [step_of_call he hh, Decode.mode] at h
      split at h
      · cases h; exact .compress c later he hh
      · cases h; exact .decompress c later he hh
  | compress => rw [step_of_compress he] at h; cases h; exact .refills he
  | decompress =>
    have hf := fsm_of_step_of_decompress he h
    rw [step_of_decompress he hf] at h
    cases h
    exact .token he hf

/-! ### The start of a command -/

theorem checkPreconditions_of_present {s : State} (hsrc : s.cmd.srcPresent = true)
    (hsink : s.cmd.sinkPresent = true) : checkPreconditions s = .ok () s := by
  simp [checkPreconditions, hsrc, hsink]

/-- With an absent stream a command raises an error before it changes anything (R173). -/
theorem checkPreconditions_cases (s : State) :
    (∃ e, checkPreconditions s = .error e s) ∨ checkPreconditions s = .ok () s := by
  by_cases hsrc : s.cmd.srcPresent = false
  · exact .inl ⟨_, if_pos hsrc⟩
  · by_cases hsink : s.cmd.sinkPresent = false
    · exact .inl ⟨_, by rw [checkPreconditions, if_neg hsrc, if_pos hsink]⟩
    · exact .inr (by rw [checkPreconditions, if_neg hsrc, if_neg hsink])

theorem compressCommand_of_checked {s : State} (h : checkPreconditions s = .ok () s) :
    compressCommand s = compressBody (resetBlock .compress s) :=
  (M.bind_of_ok h).trans (M.bind_of_ok (M.upd_apply _ _))

theorem settle_compressCommand_of_checked {s : State} (h : checkPreconditions s = .ok () s) :
    settle compressCommand s = settle compressBody (resetBlock .compress s) := by
  rw [settle, compressCommand_of_checked h, settle]

/-- COMPRESS aborts with its registers untouched, or runs its body from the reset block. -/
theorem settle_compressCommand_cases (s : State) :
    (∃ e, settle compressCommand s = abort e s) ∨
    settle compressCommand s = settle compressBody (resetBlock .compress s) := by
  rcases checkPreconditions_cases s with ⟨e, h⟩ | h
  · exact .inl ⟨e, settle_of_error (M.bind_of_error h)⟩
  · exact .inr (settle_compressCommand_of_checked h)

/-- The start of DECOMPRESS aborts with its registers untouched, or leaves the reset block. -/
theorem settle_decompressCommand_cases (s : State) :
    (∃ e, settle decompressCommand s = abort e s) ∨
    settle decompressCommand s = resetBlock .decompress s := by
  rcases checkPreconditions_cases s with ⟨e, h⟩ | h
  · exact .inl ⟨e, settle_of_error (M.bind_of_error h)⟩
  · exact .inr (settle_of_ok (M.bind_of_ok h))

/-! ### Relations the stream calls keep -/

theorem keeps_srcRead (hfail : ∀ s io, R s { s with io := io })
    (htake : ∀ s m io, R s { advance m s with io := io }) (n : Nat) : Keeps R (srcRead n) := by
  intro s
  rcases srcRead_cases n s with ⟨d, io, -, h⟩ | ⟨m, -, h⟩ <;> rw [h]
  · exact hfail s io
  · exact htake s m _

theorem keeps_srcByte (hnone : ∀ s io, R s { s with io := io })
    (htake : ∀ s io pos, R s { advance 1 s with io := io, inPos := pos }) : Keeps R srcByte := by
  intro s
  rcases srcByte_cases s with ⟨d, io, -, h⟩ | ⟨-, h⟩ | ⟨x, -, h⟩ <;> rw [h]
  · exact hnone s io
  · exact hnone s _
  · exact htake s _ _

theorem keeps_sinkWrite (hput : ∀ s io delivered, R s { s with io := io, sink := s.sink ++ [delivered] })
    (bytes : List Byte) : Keeps R (sinkWrite bytes) := by
  intro s
  rcases sinkWrite_cases bytes s with ⟨d, io, -, h⟩ | h <;> rw [h] <;> exact hput s _ _

theorem wrapCursor_of_le {s : State} (h : Config.NW ≤ s.cursor) :
    wrapCursor s = { s with cursor := s.cursor - Config.NW } := if_pos h

theorem wrapCursor_of_not_le {s : State} (h : ¬Config.NW ≤ s.cursor) : wrapCursor s = s := if_neg h

/-- The cursor wrap changes the cursor only. -/
theorem wrapCursor_eq (s : State) : wrapCursor s = { s with cursor := (wrapCursor s).cursor } := by
  by_cases h : Config.NW ≤ s.cursor
  · rw [wrapCursor_of_le h]
  · rw [wrapCursor_of_not_le h]

/-! ### Relations a running DECOMPRESS keeps -/

/-- The primitive pieces of a step of a running DECOMPRESS. A relation they keep is kept by the step. -/
structure DecompressPieces (R : State → State → Prop) : Prop where
  lit : LitPieces R
  matchTok : MatchPieces R
  header : ∀ s b1, R s { s with b1 := b1 }
  rest : ∀ s n, R s { s with flushed := s.flushed + n }
  done : ∀ s, R s (complete s)

theorem DecompressPieces.keeps_doneCommand (h : DecompressPieces R) : Keeps R doneCommand := by
  have hend : ∀ count, Keeps R (do
      M.upd fun s => { s with flushed := s.flushed + count }
      M.upd complete) := fun count =>
    keeps_bind h.lit.trans (keeps_upd fun s => h.rest s count) fun _ => keeps_upd h.done
  refine keeps_bind h.lit.trans (keeps_upd fun s => h.lit.fsm s _) fun _ =>
    keeps_bind h.lit.trans (keeps_reads h.lit.refl _) fun count =>
    keeps_bind h.lit.trans (keeps_reads h.lit.refl _) fun rest => ?_
  dsimp only
  split
  · exact hend count
  · exact keeps_bind h.lit.trans (h.lit.write rest) fun _ => hend count

theorem DecompressPieces.keeps_tokenStep (h : DecompressPieces R) : Keeps R tokenStep := by
  refine keeps_bind h.lit.trans h.lit.read fun x => ?_
  cases x with
  | none => exact h.keeps_doneCommand
  | some b1 =>
    refine keeps_bind h.lit.trans (keeps_upd fun s => h.header s b1) fun _ => ?_
    split
    · exact keeps_litCommand h.lit b1
    · exact keeps_matchCommand h.matchTok b1

/-! ### The command record and the streams -/

/-- From `s` to `t` the command record and the host's calls stand, the source is only consumed from its front, and
the sink is only appended to (R22, R53, R54, R59). -/
structure StreamsForward (s t : State) : Prop where
  cmd : t.cmd = s.cmd
  host : t.host = s.host
  sink : s.sink <+: t.sink
  source : ∃ n, t.source = (advance n s).source ∧ t.endless = (advance n s).endless

theorem StreamsForward.of_eq {s t : State} (cmd : t.cmd = s.cmd) (host : t.host = s.host)
    (sink : t.sink = s.sink) (source : t.source = s.source) (endless : t.endless = s.endless) :
    StreamsForward s t :=
  ⟨cmd, host, sink ▸ List.prefix_rfl, 0, by simpa using source, by simpa using endless⟩

theorem StreamsForward.refl (s : State) : StreamsForward s s := .of_eq rfl rfl rfl rfl rfl

/-- What `advance` leaves of the source depends on the source alone. -/
theorem advance_congr {s t : State} (hsource : t.source = s.source) (hendless : t.endless = s.endless) (n : Nat) :
    (advance n t).source = (advance n s).source ∧ (advance n t).endless = (advance n s).endless := by
  simp [hsource, hendless]

theorem StreamsForward.trans (a b c : State) (hab : StreamsForward a b) (hbc : StreamsForward b c) :
    StreamsForward a c := by
  obtain ⟨m, hm, hm'⟩ := hab.source
  obtain ⟨n, hn, hn'⟩ := hbc.source
  obtain ⟨hadv, hadv'⟩ := advance_congr hm hm' n
  refine ⟨hbc.cmd.trans hab.cmd, hbc.host.trans hab.host, hab.sink.trans hbc.sink, m + n, ?_, ?_⟩
  · rw [advance_add, hn, hadv]
  · rw [advance_add, hn', hadv']

theorem keeps_streams_sinkWrite (bytes : List Byte) : Keeps StreamsForward (sinkWrite bytes) :=
  keeps_sinkWrite (fun _ _ _ => ⟨rfl, rfl, List.prefix_append .., 0, by simp, by simp⟩) bytes

theorem refillPieces_streams : RefillPieces StreamsForward where
  refl := StreamsForward.refl
  trans := StreamsForward.trans
  write := keeps_streams_sinkWrite
  flushed _ _ := .of_eq rfl rfl rfl rfl rfl
  search _ _ := .of_eq rfl rfl rfl rfl rfl
  span s l := by rw [insertSpan_eq]; exact .of_eq rfl rfl rfl rfl rfl
  matched _ _ := .of_eq rfl rfl rfl rfl rfl
  literal _ _ := .of_eq rfl rfl rfl rfl rfl
  read := keeps_srcRead (fun _ _ => .of_eq rfl rfl rfl rfl rfl) fun _ n _ =>
    ⟨rfl, rfl, List.prefix_rfl, n, rfl, rfl⟩
  count _ _ := .of_eq rfl rfl rfl rfl rfl
  place _ _ _ := .of_eq rfl rfl rfl rfl rfl
  wrap s := by rw [wrapCursor_eq]; exact .of_eq rfl rfl rfl rfl rfl
  next _ := .of_eq rfl rfl rfl rfl rfl
  done _ := .of_eq rfl rfl rfl rfl rfl

theorem tokenPieces_streams : TokenPieces StreamsForward where
  refl := StreamsForward.refl
  trans := StreamsForward.trans
  read := keeps_srcByte (fun _ _ => .of_eq rfl rfl rfl rfl rfl) fun _ _ _ =>
    ⟨rfl, rfl, List.prefix_rfl, 1, rfl, rfl⟩
  write := keeps_streams_sinkWrite
  store _ _ := .of_eq rfl rfl rfl rfl rfl
  fsm _ _ := .of_eq rfl rfl rfl rfl rfl
  flushed _ := .of_eq rfl rfl rfl rfl rfl

theorem decompressPieces_streams : DecompressPieces StreamsForward where
  lit := { tokenPieces_streams with fields := fun _ _ _ => .of_eq rfl rfl rfl rfl rfl }
  matchTok :=
    { tokenPieces_streams with
      fields := fun _ _ _ => .of_eq rfl rfl rfl rfl rfl
      length := fun _ _ => .of_eq rfl rfl rfl rfl rfl }
  header _ _ := .of_eq rfl rfl rfl rfl rfl
  rest _ _ := .of_eq rfl rfl rfl rfl rfl
  done _ := .of_eq rfl rfl rfl rfl rfl

theorem streamsForward_settle {m : M Unit} (hm : Keeps StreamsForward m) (s : State) :
    StreamsForward s (settle m s) :=
  rel_settle_of_keeps StreamsForward.trans (fun _ _ => .of_eq rfl rfl rfl rfl rfl) hm s

theorem streamsForward_resetBlock (e : Engine) (s : State) : StreamsForward s (resetBlock e s) :=
  .of_eq rfl rfl rfl rfl rfl

theorem streamsForward_compressCommand (s : State) : StreamsForward s (settle compressCommand s) :=
  streamsForward_settle (keeps_bind StreamsForward.trans (keeps_checkPreconditions StreamsForward.refl) fun _ =>
    keeps_bind StreamsForward.trans (keeps_upd (streamsForward_resetBlock .compress)) fun _ =>
    refillPieces_streams.keeps_compressBody) s

theorem streamsForward_decompressCommand (s : State) : StreamsForward s (settle decompressCommand s) :=
  streamsForward_settle (keeps_bind StreamsForward.trans (keeps_checkPreconditions StreamsForward.refl) fun _ =>
    keeps_upd (streamsForward_resetBlock .decompress)) s

theorem streamsForward_exec {i : Instr} {s t : State} (h : exec i s = .next t) : StreamsForward s t := by
  cases i with
  | lit b1 => cases h; exact streamsForward_settle (keeps_litCommand decompressPieces_streams.lit b1) s
  | matchTok b1 => cases h; exact streamsForward_settle (keeps_matchCommand decompressPieces_streams.matchTok b1) s
  | compress => cases h; exact streamsForward_compressCommand s
  | decompress => cases h; exact streamsForward_decompressCommand s

theorem streamsForward_of_running {s t : State} (he : s.engine ≠ .idle) (h : step s = .next t) :
    StreamsForward s t := by
  cases stepsTo_of_step h with
  | waits hidle => exact absurd hidle he
  | compress _ _ hidle => exact absurd hidle he
  | decompress _ _ hidle => exact absurd hidle he
  | refills => exact streamsForward_settle refillPieces_streams.keeps_compressBody s
  | token => exact streamsForward_settle decompressPieces_streams.keeps_tokenStep s

/-- Settles O53: every piece of a running step, and of every instruction, moves the streams forward only. -/
theorem streamsOnlyMoveForward : Obligations.StreamsOnlyMoveForward := by
  rintro s t (⟨he, h⟩ | ⟨i, h⟩)
  · obtain ⟨hcmd, hhost, hsink, hsource⟩ := streamsForward_of_running he h
    exact ⟨hcmd, hhost, hsink, hsource⟩
  · obtain ⟨hcmd, hhost, hsink, hsource⟩ := streamsForward_exec h
    exact ⟨hcmd, hhost, hsink, hsource⟩

/-! ### The engine and the result -/

/-- From `s` to `t` the engine and the result stand, or the command ends (R23, R175). -/
def ResultHeld (s t : State) : Prop :=
  (t.engine = s.engine ∧ t.result = s.result) ∨ t.engine = .idle

theorem ResultHeld.of_eq {s t : State} (he : t.engine = s.engine) (hr : t.result = s.result) : ResultHeld s t :=
  .inl ⟨he, hr⟩

theorem ResultHeld.refl (s : State) : ResultHeld s s := .of_eq rfl rfl

theorem ResultHeld.trans (a b c : State) (hab : ResultHeld a b) (hbc : ResultHeld b c) : ResultHeld a c := by
  rcases hbc with ⟨hce, hcr⟩ | hidle
  · rcases hab with ⟨hbe, hbr⟩ | hidle
    · exact .inl ⟨hce.trans hbe, hcr.trans hbr⟩
    · exact .inr (hce.trans hidle)
  · exact .inr hidle

/-- A step that changes the engine makes it Idle. -/
theorem ResultHeld.engine_eq {s t : State} (h : ResultHeld s t) (he : t.engine ≠ .idle) : t.engine = s.engine :=
  h.elim And.left fun hidle => absurd hidle he

theorem ResultHeld.result_or_idle {s t : State} (h : ResultHeld s t) :
    t.result = s.result ∨ t.engine = .idle :=
  h.imp_left And.right

theorem refillPieces_result : RefillPieces ResultHeld where
  refl := ResultHeld.refl
  trans := ResultHeld.trans
  write := keeps_sinkWrite fun _ _ _ => .of_eq rfl rfl
  flushed _ _ := .of_eq rfl rfl
  search _ _ := .of_eq rfl rfl
  span s l := by rw [insertSpan_eq]; exact .of_eq rfl rfl
  matched _ _ := .of_eq rfl rfl
  literal _ _ := .of_eq rfl rfl
  read := keeps_srcRead (fun _ _ => .of_eq rfl rfl) fun _ _ _ => .of_eq rfl rfl
  count _ _ := .of_eq rfl rfl
  place _ _ _ := .of_eq rfl rfl
  wrap s := by rw [wrapCursor_eq]; exact .of_eq rfl rfl
  next _ := .of_eq rfl rfl
  done _ := .inr rfl

theorem tokenPieces_result : TokenPieces ResultHeld where
  refl := ResultHeld.refl
  trans := ResultHeld.trans
  read := keeps_srcByte (fun _ _ => .of_eq rfl rfl) fun _ _ _ => .of_eq rfl rfl
  write := keeps_sinkWrite fun _ _ _ => .of_eq rfl rfl
  store _ _ := .of_eq rfl rfl
  fsm _ _ := .of_eq rfl rfl
  flushed _ := .of_eq rfl rfl

theorem decompressPieces_result : DecompressPieces ResultHeld where
  lit := { tokenPieces_result with fields := fun _ _ _ => .of_eq rfl rfl }
  matchTok :=
    { tokenPieces_result with fields := fun _ _ _ => .of_eq rfl rfl, length := fun _ _ => .of_eq rfl rfl }
  header _ _ := .of_eq rfl rfl
  rest _ _ := .of_eq rfl rfl
  done _ := .inr rfl

theorem resultHeld_settle {m : M Unit} (hm : Keeps ResultHeld m) (s : State) : ResultHeld s (settle m s) :=
  rel_settle_of_keeps ResultHeld.trans (fun _ _ => .inr rfl) hm s

theorem resultHeld_compressBody (s : State) : ResultHeld s (settle compressBody s) :=
  resultHeld_settle refillPieces_result.keeps_compressBody s

theorem resultHeld_tokenStep (s : State) : ResultHeld s (settle tokenStep s) :=
  resultHeld_settle decompressPieces_result.keeps_tokenStep s

/-- The reset enters the command's engine state and leaves the result (R46). -/
theorem compressCommand_result_or_idle (s : State) :
    (settle compressCommand s).result = s.result ∨ (settle compressCommand s).engine = .idle := by
  rcases settle_compressCommand_cases s with ⟨e, h⟩ | h <;> rw [h]
  · exact .inr rfl
  · exact (resultHeld_compressBody (resetBlock .compress s)).result_or_idle

theorem decompressCommand_result_or_idle (s : State) :
    (settle decompressCommand s).result = s.result ∨ (settle decompressCommand s).engine = .idle := by
  rcases settle_decompressCommand_cases s with ⟨e, h⟩ | h <;> rw [h]
  · exact .inr rfl
  · exact .inl rfl

/-- Settles O52: only the abort and the normal end write the result, and both make the engine Idle. -/
theorem resultIsWrittenOnlyAtTheEnd : Obligations.ResultIsWrittenOnlyAtTheEnd := by
  intro s t h
  cases stepsTo_of_step h with
  | waits => exact .inl rfl
  | compress c later he hh =>
    exact (compressCommand_result_or_idle _).imp_right fun hidle => ⟨hidle, .inr (by simp [hh])⟩
  | decompress c later he hh =>
    exact (decompressCommand_result_or_idle _).imp_right fun hidle => ⟨hidle, .inr (by simp [hh])⟩
  | refills he =>
    exact (resultHeld_compressBody s).result_or_idle.imp_right fun hidle => ⟨hidle, .inl (by simp [he])⟩
  | token he =>
    exact (resultHeld_tokenStep s).result_or_idle.imp_right fun hidle => ⟨hidle, .inl (by simp [he])⟩

end Sys2Proof.Machine

/-! What the two commands leave alone, and the counters of the decompressor (spec/10_state.md R36 to R42, R46). -/

namespace Sys2Proof.Machine

variable {α β : Type} {R : State → State → Prop}

/-! ### Registers a command does not reach -/

/-- From `s` to `t` the part `f` of the state stands. -/
def Leaves (f : State → State) (s t : State) : Prop :=
  f t = f s

theorem Leaves.refl {f : State → State} (s : State) : Leaves f s s := rfl

theorem Leaves.trans {f : State → State} (a b c : State) (hab : Leaves f a b) (hbc : Leaves f b c) :
    Leaves f a c :=
  Eq.trans hbc hab

/-- The decompressor's registers and its ring, in an otherwise fixed state (R36 to R42). -/
def decompressorOf (s : State) : State :=
  { State.reset with
    ring := s.ring, inPos := s.inPos, wcur := s.wcur, produced := s.produced, flushed := s.flushed
    nextHalf := s.nextHalf, fsm := s.fsm, b1 := s.b1, b2 := s.b2, L := s.L, D := s.D, Lm := s.Lm }

/-- The compressor's registers, its window and the index, in an otherwise fixed state (R24 to R34). -/
def compressorOf (s : State) : State :=
  { State.reset with
    cursor := s.cursor, wb := s.wb, border := s.border, k := s.k, n := s.n, P := s.P, litStart := s.litStart
    search := s.search, slots := s.slots, rr := s.rr }

theorem leaves_decompressorOf_iff {s t : State} : Leaves decompressorOf s t ↔
    t.ring = s.ring ∧ t.inPos = s.inPos ∧ t.wcur = s.wcur ∧ t.produced = s.produced ∧ t.flushed = s.flushed ∧
    t.nextHalf = s.nextHalf ∧ t.fsm = s.fsm ∧ t.b1 = s.b1 ∧ t.b2 = s.b2 ∧ t.L = s.L ∧ t.D = s.D ∧
    t.Lm = s.Lm := by
  simp [Leaves, decompressorOf]

theorem refillPieces_leaves_decompressorOf : RefillPieces (Leaves decompressorOf) where
  refl := Leaves.refl
  trans := Leaves.trans
  write := keeps_sinkWrite fun _ _ _ => rfl
  flushed _ _ := rfl
  search _ _ := rfl
  span s l := by rw [insertSpan_eq]; rfl
  matched _ _ := rfl
  literal _ _ := rfl
  read := keeps_srcRead (fun _ _ => rfl) fun _ _ _ => rfl
  count _ _ := rfl
  place _ _ _ := rfl
  wrap s := by rw [wrapCursor_eq]; rfl
  next _ := rfl
  done _ := rfl

theorem tokenPieces_leaves_compressorOf : TokenPieces (Leaves compressorOf) where
  refl := Leaves.refl
  trans := Leaves.trans
  read := keeps_srcByte (fun _ _ => rfl) fun _ _ _ => rfl
  write := keeps_sinkWrite fun _ _ _ => rfl
  store _ _ := rfl
  fsm _ _ := rfl
  flushed _ := rfl

theorem decompressPieces_leaves_compressorOf : DecompressPieces (Leaves compressorOf) where
  lit := { tokenPieces_leaves_compressorOf with fields := fun _ _ _ => rfl }
  matchTok :=
    { tokenPieces_leaves_compressorOf with fields := fun _ _ _ => rfl, length := fun _ _ => rfl }
  header _ _ := rfl
  rest _ _ := rfl
  done _ := rfl

/-- COMPRESS does not reach the decompressor (R51). -/
theorem compressBody_leaves_decompressorOf (s : State) : Leaves decompressorOf s (settle compressBody s) :=
  rel_settle_of_keeps (R := Leaves decompressorOf) Leaves.trans (fun _ _ => rfl)
    refillPieces_leaves_decompressorOf.keeps_compressBody s

/-- A step of a running DECOMPRESS does not reach the compressor. -/
theorem tokenStep_leaves_compressorOf (s : State) : Leaves compressorOf s (settle tokenStep s) :=
  rel_settle_of_keeps (R := Leaves compressorOf) Leaves.trans (fun _ _ => rfl)
    decompressPieces_leaves_compressorOf.keeps_tokenStep s

/-- Settles O32: the body of COMPRESS leaves the decompressor alone, and the reset before it gives it its start
values. -/
theorem compressLeavesTheDecompressor : Obligations.CompressLeavesTheDecompressor := by
  refine ⟨fun s t h => ?_, fun s t he h => ?_⟩
  · have hstreams := streamsForward_exec h
    refine ⟨hstreams.cmd, hstreams.host, fun hsrc hsink => ?_⟩
    cases h
    rw [settle_compressCommand_of_checked (checkPreconditions_of_present hsrc hsink)]
    obtain ⟨hring, hregisters⟩ :=
      leaves_decompressorOf_iff.mp (compressBody_leaves_decompressorOf (resetBlock .compress s))
    exact ⟨fun a => by rw [hring, resetBlock_ring, Mem.read_nil], hregisters⟩
  · have hstreams := streamsForward_of_running (by simp [he]) h
    rw [step_of_compress he] at h
    cases h
    simpa only [leaves_decompressorOf_iff, and_assoc] using
      And.intro (compressBody_leaves_decompressorOf s) (And.intro hstreams.cmd hstreams.host)

/-! ### Pre- and postconditions of a command piece -/

/-- From a state in `P` the piece answers in a state that meets `Q` with the answer, or raises an error in a state in
`E`, where the abort is taken. -/
structure Ensures (E P : State → Prop) (m : M α) (Q : α → State → Prop) : Prop where
  ok : ∀ {s a t}, P s → m s = .ok a t → Q a t
  error : ∀ {s e t}, P s → m s = .error e t → E t

variable {E P P' : State → Prop} {m : M α} {Q Q' : α → State → Prop}

theorem Ensures.bind {f : α → M β} {Q' : β → State → Prop} (hm : Ensures E P m Q)
    (hf : ∀ a, Ensures E (Q a) (f a) Q') : Ensures E P (m >>= f) Q' where
  ok hs h := by
    obtain ⟨a, u, hu, ht⟩ := M.bind_eq_ok h
    exact (hf a).ok (hm.ok hs hu) ht
  error hs h := by
    rcases M.bind_eq_error h with ht | ⟨a, u, hu, ht⟩
    · exact hm.error hs ht
    · exact (hf a).error (hm.ok hs hu) ht

theorem ensures_pure {a : α} (h : ∀ s, P s → Q a s) : Ensures E P (pure a) Q where
  ok hs hr := by cases hr; exact h _ hs
  error _ hr := by cases hr

theorem ensures_reads {f : State → α} (h : ∀ s, P s → Q (f s) s) : Ensures E P (M.reads f) Q where
  ok hs hr := by cases hr; exact h _ hs
  error _ hr := by cases hr

theorem ensures_upd {f : State → State} {Q : Unit → State → Prop} (h : ∀ s, P s → Q () (f s)) :
    Ensures E P (M.upd f) Q where
  ok hs hr := by cases hr; exact h _ hs
  error _ hr := by cases hr

theorem ensures_raise {e : Err} (h : ∀ s, P s → E s) : Ensures E P (M.raise e : M α) Q where
  ok _ hr := by cases hr
  error hs hr := by cases hr; exact h _ hs

theorem Ensures.of_imp (h : Ensures E P m Q) (hP : ∀ s, P' s → P s) (hQ : ∀ a s, Q a s → Q' a s) :
    Ensures E P' m Q' :=
  ⟨fun hs hr => hQ _ _ (h.ok (hP _ hs) hr), fun hs hr => h.error (hP _ hs) hr⟩

/-- A piece that keeps a relation keeps every predicate the relation carries over. -/
theorem ensures_of_keeps (hm : Keeps R m) (hR : ∀ s t, R s t → P s → P t) (hE : ∀ s, P s → E s) :
    Ensures E P m fun _ => P where
  ok {s _ t} hs hr := by
    have h := hm s
    rw [hr] at h
    exact hR s t h hs
  error {s _ t} hs hr := by
    have h := hm s
    rw [hr] at h
    exact hE t (hR s t h hs)

theorem settle_of_ensures {m : M Unit} {T : State → Prop} (h : Ensures E P m fun _ => T)
    (habort : ∀ e s, E s → T (abort e s)) {s : State} (hs : P s) : T (settle m s) := by
  cases hr : m s with
  | ok u t => rw [settle_of_ok hr]; exact h.ok hs hr
  | error e t => rw [settle_of_error hr]; exact habort e t (h.error hs hr)

/-! ### The counters of the decompressor -/

/-- What the counters keep even where a ring write is cut off by a failing sink: a whole half may be unflushed. -/
def CountersOk (s : State) : Prop :=
  s.wcur = s.produced % Config.C ∧ s.flushed ≤ s.produced ∧ s.produced - s.flushed ≤ Config.H ∧
    s.nextHalf.toNat = s.flushed / Config.H % 2

theorem DecoderOk.countersOk {s : State} (h : DecoderOk s) : CountersOk s := by
  obtain ⟨hw, hle, hlt, -, hn⟩ := h
  exact ⟨hw, hle, hlt.le, hn⟩

theorem decoderInv_iff {s : State} : DecoderInv s ↔
    CountersOk s ∧ (s.engine = .decompress → s.fsm = .readTokenHeader ∧ DecoderOk s) := by
  simp only [DecoderInv, CountersOk, and_assoc]

theorem decoderInv_of_boundary {s : State} (h : s.fsm = .readTokenHeader ∧ DecoderOk s) : DecoderInv s :=
  decoderInv_iff.mpr ⟨h.2.countersOk, fun _ => h⟩

theorem decoderInv_of_ne {s : State} (h : CountersOk s) (he : s.engine ≠ .decompress) : DecoderInv s :=
  decoderInv_iff.mpr ⟨h, fun h => absurd h he⟩

theorem decoderInv_abort (e : Err) (s : State) (h : CountersOk s) : DecoderInv (abort e s) :=
  decoderInv_of_ne h (by simp)

theorem CountersOk.of_leaves {s t : State} (h : Leaves decompressorOf s t) (hs : CountersOk s) : CountersOk t := by
  obtain ⟨-, -, hw, hp, hf, hn, -⟩ := leaves_decompressorOf_iff.mp h
  rwa [CountersOk, hw, hp, hf, hn]

/-- Everything RingPut can do: the byte is stored, and where the cursor reaches the end of a half, that half is
flushed or the sink fails (R154, R156). -/
theorem ringPut_cases (x : Byte) (s : State) :
    let cursor := (s.wcur + 1) % Config.C
    (¬(cursor = Config.H ∨ cursor = 0) ∧ ringPut x s = .ok () (storeByte x s)) ∨
    ((cursor = Config.H ∨ cursor = 0) ∧ ∃ io sink,
      ringPut x s = .error (.io .sink) { storeByte x s with io := io, sink := sink, fsm := .maybeFlush } ∨
      ringPut x s = .ok () { storeByte x s with
        io := io, sink := sink, flushed := s.flushed + Config.H, nextHalf := 1 - s.nextHalf }) := by
  rcases maybeFlush_cases { storeByte x s with fsm := .maybeFlush } with
    ⟨hin, hm⟩ | ⟨hend, ⟨d, io, -, hm⟩ | hm⟩
  · exact .inl ⟨hin, by rw [ringPut_eq, hm]; rfl⟩
  · exact .inr ⟨hend, _, _, .inl (by rw [ringPut_eq, hm])⟩
  · exact .inr ⟨hend, _, _, .inr (by rw [ringPut_eq, hm]; rfl)⟩

/-- Inside a half the stored byte leaves less than a half unflushed. -/
theorem decoderOk_store {s : State} {x : Byte} (h : DecoderOk s)
    (hin : ¬((s.wcur + 1) % Config.C = Config.H ∨ (s.wcur + 1) % Config.C = 0)) :
    DecoderOk (storeByte x s) := by
  simp only [DecoderOk, storeByte_wcur, storeByte_produced, storeByte_flushed, storeByte_nextHalf, Config.C,
    Config.H] at h hin ⊢
  omega

theorem countersOk_store {s : State} (h : DecoderOk s) (x : Byte) : CountersOk (storeByte x s) := by
  simp only [DecoderOk, CountersOk, storeByte_wcur, storeByte_produced, storeByte_flushed, storeByte_nextHalf,
    Config.C, Config.H] at h ⊢
  omega

/-- At the end of a half everything produced is flushed, and the parity of the flushed halves flips. -/
theorem decoderOk_flush {s : State} {x : Byte} (h : DecoderOk s)
    (hend : (s.wcur + 1) % Config.C = Config.H ∨ (s.wcur + 1) % Config.C = 0) :
    DecoderOk { storeByte x s with flushed := s.flushed + Config.H, nextHalf := 1 - s.nextHalf } := by
  have hflip : ∀ b : BitVec 1, (1 - b).toNat = 1 - b.toNat := by decide
  simp only [DecoderOk, storeByte_wcur, storeByte_produced, hflip, Config.C, Config.H] at h hend ⊢
  omega

theorem ensures_ringPut (x : Byte) : Ensures CountersOk DecoderOk (ringPut x) fun _ => DecoderOk := by
  constructor
  · intro s _ t hs hr
    rcases ringPut_cases x s with ⟨hin, h⟩ | ⟨hend, io, sink, h | h⟩ <;> rw [h] at hr <;> cases hr
    · exact decoderOk_store hs hin
    · exact decoderOk_flush hs hend
  · intro s e t hs hr
    rcases ringPut_cases x s with ⟨hin, h⟩ | ⟨hend, io, sink, h | h⟩ <;> rw [h] at hr <;> cases hr
    exact countersOk_store hs x

/-! ### A step of a running DECOMPRESS -/

theorem ensures_srcByte : Ensures CountersOk DecoderOk srcByte fun _ => DecoderOk :=
  ensures_of_keeps (R := fun s t => DecoderOk s → DecoderOk t) (keeps_srcByte (fun _ _ => id) fun _ _ _ => id)
    (fun _ _ h => h) fun _ => DecoderOk.countersOk

theorem ensures_tokenByte : Ensures CountersOk DecoderOk tokenByte fun _ => DecoderOk := by
  refine ensures_srcByte.bind fun x => ?_
  cases x with
  | none => exact ensures_raise fun _ => DecoderOk.countersOk
  | some x => exact ensures_pure fun _ h => h

theorem ensures_check (c : Option Corrupt) : Ensures CountersOk DecoderOk (check c) fun _ => DecoderOk := by
  cases c with
  | none => exact ensures_pure fun _ h => h
  | some e => exact ensures_raise fun _ => DecoderOk.countersOk

theorem ensures_litPayload (count : Nat) : Ensures CountersOk DecoderOk (litPayload count) fun _ => DecoderOk := by
  induction count with
  | zero => exact ensures_pure fun _ h => h
  | succ count ih => exact ensures_tokenByte.bind fun x => (ensures_ringPut x).bind fun _ => ih

theorem ensures_copyLoop (D count : Nat) : Ensures CountersOk DecoderOk (copyLoop D count) fun _ => DecoderOk := by
  induction count with
  | zero => exact ensures_pure fun _ h => h
  | succ count ih =>
    exact (ensures_reads (Q := fun _ => DecoderOk) fun _ h => h).bind fun x =>
      (ensures_ringPut x).bind fun _ => ih

/-- An update of registers that are no counters: `DecoderOk` before and after it are the same statement. -/
theorem ensures_upd_decoderOk {f : State → State}
    (h : ∀ s, DecoderOk s → DecoderOk (f s) := by exact fun _ h => h) :
    Ensures CountersOk DecoderOk (M.upd f) fun _ => DecoderOk :=
  ensures_upd h

/-- A token that runs to its end is followed by ReadTokenHeader (R148). -/
theorem ensures_endToken : Ensures CountersOk DecoderOk (M.upd fun s => { s with fsm := .readTokenHeader })
    fun _ => DecoderInv :=
  ensures_upd fun _ h => decoderInv_of_boundary ⟨rfl, h⟩

theorem ensures_litCommand (b1 : Byte) : Ensures CountersOk DecoderOk (litCommand b1) fun _ => DecoderInv :=
  Ensures.bind ensures_upd_decoderOk fun _ =>
  ensures_tokenByte.bind fun _ =>
  Ensures.bind ensures_upd_decoderOk fun _ =>
  (ensures_check _).bind fun _ =>
  (ensures_litPayload _).bind fun _ => ensures_endToken

theorem ensures_matchCommand (b1 : Byte) : Ensures CountersOk DecoderOk (matchCommand b1) fun _ => DecoderInv :=
  Ensures.bind ensures_upd_decoderOk fun _ =>
  ensures_tokenByte.bind fun _ =>
  Ensures.bind ensures_upd_decoderOk fun _ =>
  (ensures_check _).bind fun _ =>
  ensures_tokenByte.bind fun _ =>
  Ensures.bind ensures_upd_decoderOk fun _ =>
  (ensures_check _).bind fun _ =>
  (ensures_copyLoop _ _).bind fun _ =>
  ensures_tokenByte.bind fun x =>
  (ensures_ringPut x).bind fun _ => ensures_endToken

/-- The counters when the rest of less than a half is flushed at the end of the stream (R157). -/
theorem countersOk_flushRest {s : State} (h : DecoderOk s) :
    CountersOk { s with flushed := s.flushed + (s.produced - s.flushed) } := by
  simp only [DecoderOk, CountersOk, Config.C, Config.H] at h ⊢
  omega

/-- The counters while Done flushes a rest of `count` bytes. -/
def Flushing (count : Nat) (s : State) : Prop :=
  DecoderOk s ∧ count = s.produced - s.flushed

theorem ensures_flushRest (count : Nat) : Ensures CountersOk (Flushing count) (do
    M.upd fun s => { s with flushed := s.flushed + count }
    M.upd complete) fun _ => DecoderInv := by
  refine (ensures_upd (Q := fun _ => CountersOk) ?_).bind fun _ =>
    ensures_upd fun s h => decoderInv_of_ne h (by simp)
  rintro s ⟨h, rfl⟩
  exact countersOk_flushRest h

theorem ensures_doneCommand : Ensures CountersOk DecoderOk doneCommand fun _ => DecoderInv := by
  refine Ensures.bind ensures_upd_decoderOk fun _ =>
    (ensures_reads (Q := Flushing) fun _ h => ⟨h, rfl⟩).bind fun count =>
    (ensures_reads (Q := fun _ => Flushing count) fun _ h => h).bind fun rest => ?_
  dsimp only
  split
  · exact ensures_flushRest count
  · have hwrite : Ensures CountersOk (Flushing count) (sinkWrite rest) fun _ => Flushing count :=
      ensures_of_keeps (R := fun s t => Flushing count s → Flushing count t)
        (keeps_sinkWrite (fun _ _ _ => id) rest) (fun _ _ h => h) fun _ h => h.1.countersOk
    exact hwrite.bind fun _ => ensures_flushRest count

theorem ensures_tokenStep : Ensures CountersOk DecoderOk tokenStep fun _ => DecoderInv := by
  refine ensures_srcByte.bind fun x => ?_
  cases x with
  | none => exact ensures_doneCommand
  | some b1 =>
    refine Ensures.bind ensures_upd_decoderOk fun _ => ?_
    split
    · exact ensures_litCommand b1
    · exact ensures_matchCommand b1

/-! ### Every step -/

/-- A COMPRESS that runs leaves the counters alone, and DECOMPRESS does not run after it. -/
theorem decoderInv_compressBody {s : State} (he : s.engine = .compress) (h : CountersOk s) :
    DecoderInv (settle compressBody s) := by
  refine decoderInv_of_ne (h.of_leaves (compressBody_leaves_decompressorOf s)) fun hd => ?_
  have heq := (resultHeld_compressBody s).engine_eq (by simp [hd])
  simp [hd, he] at heq

theorem countersOk_resetBlock (e : Engine) (s : State) : CountersOk (resetBlock e s) := by
  simp [CountersOk]

/-- Settles O57: a ring write keeps the counters consistent, so every token does; COMPRESS leaves them alone, and a
new command starts them at 0. -/
theorem decoderCountersStayConsistent : Obligations.DecoderCountersStayConsistent := by
  intro s t hinv h
  obtain ⟨hcounters, hrunning⟩ := decoderInv_iff.mp hinv
  cases stepsTo_of_step h with
  | waits => exact hinv
  | compress c later =>
    rcases settle_compressCommand_cases (accept c later s) with ⟨e, hs⟩ | hs <;> rw [hs]
    · exact decoderInv_abort e _ hcounters
    · exact decoderInv_compressBody rfl (countersOk_resetBlock _ _)
  | decompress c later =>
    rcases settle_decompressCommand_cases (accept c later s) with ⟨e, hs⟩ | hs <;> rw [hs]
    · exact decoderInv_abort e _ hcounters
    · exact decoderInv_of_boundary ⟨rfl, by simp [DecoderOk, Config.H, Config.C]⟩
  | refills he => exact decoderInv_compressBody he hcounters
  | token he => exact settle_of_ensures ensures_tokenStep decoderInv_abort (hrunning he).2

end Sys2Proof.Machine

/-! The ranges of the compressor's registers (spec/10_state.md R24 to R32). -/

namespace Sys2Proof.Machine

variable {α : Type} {I : State → Prop}

/-- The ranges of the match-search registers (R32). -/
structure SearchInRange (r : Search) : Prop where
  bestLen : r.bestLen ≤ 255
  bestDist : r.bestDist ≤ 8192
  la : r.la ≤ 8191
  cand : r.cand.length = 8
  len : r.len ≤ 255

/-- What the compressor's registers keep at every point of COMPRESS, in a canonical window: `CompressorInv` without
its clause about a COMPRESS that goes on. -/
structure RegistersInRange (s : State) : Prop where
  cursor : s.cursor ≤ 16384
  border : s.border ≤ 16384
  n : s.n ≤ 8192
  P : s.P ≤ 16383
  litStart : s.litStart < 16384
  run : (s.litStart + s.P) % 16384 = s.cursor % 16384
  search : SearchInRange s.search
  guard : GuardOk s
  window : Mem.WF s.wb

/-- The state before a refill: the cursor is at the base of the slot to fill, and the pending run is shorter than
`W` (R103, R119). -/
def BeforeRefill (s : State) : Prop :=
  RegistersInRange s ∧ s.cursor = slotBase s ∧ s.P < 8192

theorem compressorInv_iff {s : State} : CompressorInv s ∧ Mem.WF s.wb ↔
    RegistersInRange s ∧ (s.engine = .compress → BeforeRefill s) := by
  constructor
  · rintro ⟨⟨hrefill, hc, hb, hn, hP, hl, hrun, h1, h2, h3, h4, h5, hg⟩, hwf⟩
    have hregs : RegistersInRange s := ⟨hc, hb, hn, hP, hl, hrun, ⟨h1, h2, h3, h4, h5⟩, hg, hwf⟩
    exact ⟨hregs, fun he => ⟨hregs, hrefill he⟩⟩
  · rintro ⟨⟨hc, hb, hn, hP, hl, hrun, ⟨h1, h2, h3, h4, h5⟩, hg, hwf⟩, hrefill⟩
    exact ⟨⟨fun he => (hrefill he).2, hc, hb, hn, hP, hl, hrun, h1, h2, h3, h4, h5, hg⟩, hwf⟩

theorem RegistersInRange.of_leaves {s t : State} (h : RegistersInRange s) (hl : Leaves compressorOf s t) :
    RegistersInRange t := by
  have hof : RegistersInRange (compressorOf s) := { h with }
  rw [← show compressorOf t = compressorOf s from hl] at hof
  exact { hof with }

theorem compressorInv_of_ne {s : State} (h : RegistersInRange s) (he : s.engine ≠ .compress) : CompressorInv s :=
  (compressorInv_iff.mpr ⟨h, fun h => absurd h he⟩).1

theorem compressorInv_abort (e : Err) (s : State) (h : RegistersInRange s) : CompressorInv (abort e s) :=
  compressorInv_of_ne { h with } (by simp)

theorem registersInRange_resetBlock (e : Engine) (s : State) : RegistersInRange (resetBlock e s) where
  cursor := by simp
  border := by simp
  n := by simp
  P := by simp
  litStart := by simp
  run := by simp
  search := ⟨by simp [Search.reset], by simp [Search.reset], by simp [Search.reset], rfl, by simp [Search.reset]⟩
  guard _ _ := rfl
  window := Mem.wf_nil

theorem beforeRefill_resetBlock (e : Engine) (s : State) : BeforeRefill (resetBlock e s) :=
  ⟨registersInRange_resetBlock e s, by simp [slotBase], by simp⟩

/-! ### The search -/

/-- Extend never passes the longest match nor the lookahead limit (R110, R112). -/
theorem extendLoop_le (wb : Cells 8) (cursor p d la fuel : Nat) {len : Nat} (hmax : len ≤ 255) (hla : len ≤ la) :
    extendLoop wb cursor p d la fuel len ≤ 255 ∧ extendLoop wb cursor p d la fuel len ≤ la := by
  induction fuel generalizing len with
  | zero => exact ⟨hmax, hla⟩
  | succ fuel ih =>
    unfold extendLoop
    split
    · next hgo =>
      obtain ⟨hlt, -, hltLa, -⟩ := hgo
      exact ih hlt hltLa
    · exact ⟨hmax, hla⟩

/-- What a search under the lookahead limit `limit` keeps from candidate to candidate. -/
structure Searching (limit : Nat) (r : Search) : Prop extends SearchInRange r where
  la_eq : r.la = limit
  bestLen_le : r.bestLen ≤ limit

theorem searching_tryCandidate {limit : Nat} {r : Search} (h : Searching limit r) (wb : Cells 8) (cursor : Nat)
    (p : BitVec 14) : Searching limit (tryCandidate wb cursor r p) := by
  obtain ⟨hmax, hla⟩ :=
    extendLoop_le wb cursor p.toNat (distance cursor p) r.la 255 (Nat.zero_le _) (Nat.zero_le _)
  unfold tryCandidate
  dsimp only
  split
  · exact h
  · next hd =>
    have hdist : distance cursor p ≤ 8192 := by simpa only [Config.W, not_or, not_lt] using (not_or.mp hd).2
    split
    · exact { h with bestLen := hmax, bestDist := hdist, len := hmax, bestLen_le := hla.trans_eq h.la_eq }
    · exact { h with len := hmax }

theorem searching_foldl {limit : Nat} {r : Search} (h : Searching limit r) (wb : Cells 8) (cursor : Nat)
    (ps : List (BitVec 14)) : Searching limit (ps.foldl (tryCandidate wb cursor) r) := by
  induction ps generalizing r with
  | nil => exact h
  | cons p ps ih => exact ih (searching_tryCandidate h wb cursor p)

theorem searching_searchMatch {s : State} (hs : SearchInRange s.search) (hla : s.border - s.cursor - 1 ≤ 8191)
    (b : BitVec 13) : Searching (s.border - s.cursor - 1) (searchMatch s b) := by
  unfold searchMatch
  refine searching_foldl ?_ _ _ _
  exact { bestLen := Nat.zero_le _, bestDist := Nat.zero_le _, la := hla, cand := by simp [candidates, Config.CHAIN]
          len := hs.len, la_eq := rfl, bestLen_le := Nat.zero_le _ }

/-! ### The literal flush -/

/-- A predicate that the pieces of FlushLiterals keep, and that keeps the registers in their ranges. -/
structure FlushStable (I : State → Prop) : Prop where
  stream : ∀ s io sink, I s → I { s with io := io, sink := sink }
  taken : ∀ s len, len ≤ s.P → I s → I { s with litStart := (s.litStart + len) % Config.NW, P := s.P - len }
  inRange : ∀ s, I s → RegistersInRange s

theorem ensures_sinkWrite (hstream : ∀ s io sink, I s → I { s with io := io, sink := sink })
    (hrange : ∀ s, I s → RegistersInRange s) (bytes : List Byte) :
    Ensures RegistersInRange I (sinkWrite bytes) fun _ => I :=
  ensures_of_keeps (R := fun s t => I s → I t) (keeps_sinkWrite (fun s io _ => hstream s io _) bytes)
    (fun _ _ h => h) hrange

/-- Each pass takes at least one byte of the pending run, so a flush with a bound of its length empties it
(R121). -/
theorem FlushStable.ensures_flushLoop (h : FlushStable I) (fuel : Nat) :
    Ensures RegistersInRange (fun s => I s ∧ s.P ≤ fuel) (flushLoop fuel) fun _ s => I s ∧ s.P = 0 := by
  induction fuel with
  | zero => exact ensures_pure fun s hs => ⟨hs.1, Nat.le_zero.mp hs.2⟩
  | succ fuel ih =>
    refine (ensures_reads (Q := fun P s => I s ∧ s.P = P ∧ P ≤ fuel + 1) fun s hs => ⟨hs.1, rfl, hs.2⟩).bind
      fun P => ?_
    have hwrite := ensures_sinkWrite (I := fun s => I s ∧ s.P = P ∧ P ≤ fuel + 1)
      (fun s io sink hs => ⟨h.stream s io sink hs.1, hs.2⟩) (fun s hs => h.inRange s hs.1)
    split
    · next hP => exact ensures_pure fun s hs => ⟨hs.1, hs.2.1.trans hP⟩
    · next hP =>
      refine (ensures_reads (Q := fun _ s => I s ∧ s.P = P ∧ P ≤ fuel + 1) fun s hs => hs).bind fun run =>
        (hwrite _).bind fun _ => (hwrite _).bind fun _ => (ensures_upd ?_).bind fun _ => ih
      rintro s ⟨hs, hsP, hfuel⟩
      refine ⟨h.taken s _ (by omega) hs, ?_⟩
      simp only [Config.LIT_MAX]
      omega

theorem FlushStable.ensures_flushLiterals (h : FlushStable I) :
    Ensures RegistersInRange I flushLiterals fun _ s => I s ∧ s.P = 0 :=
  (ensures_reads (Q := fun P s => I s ∧ s.P ≤ P) fun _ hs => ⟨hs, Nat.le_refl _⟩).bind fun P =>
    h.ensures_flushLoop P

/-- The end of the pending run stays where it is when its first `len` bytes are taken. -/
theorem RegistersInRange.taken {s : State} (h : RegistersInRange s) {len : Nat} (hlen : len ≤ s.P) :
    RegistersInRange { s with litStart := (s.litStart + len) % Config.NW, P := s.P - len } := by
  have hP := h.P
  have hrun := h.run
  refine { h with P := ?_, litStart := ?_, run := ?_ }
  all_goals
    simp only [Config.NW, Config.W]
    omega

theorem flushStable_registersInRange : FlushStable RegistersInRange where
  stream _ _ _ h := { h with }
  taken _ _ hlen h := h.taken hlen
  inRange _ h := h

/-! ### The scan -/

/-- The state between two scan steps of a chunk of `len` bytes: the cursor is between the slot's base and the
border, and the pending run has grown by at most the bytes scanned (R104, R107). -/
structure Scanning (len : Nat) (s : State) : Prop extends RegistersInRange s where
  len_le : len ≤ 8192
  border_eq : s.border = slotBase s + len
  base_le : slotBase s ≤ s.cursor
  cursor_le : s.cursor ≤ s.border
  run_lt : s.P + slotBase s < s.cursor + 8192

/-- The state inside a scan step that is about to take `l + 1` bytes, with at most `fuel + 1` bytes to scan. -/
structure Room (len fuel l : Nat) (s : State) : Prop extends Scanning len s where
  room : s.cursor + l + 1 ≤ s.border
  border_le : s.border ≤ s.cursor + fuel + 1

variable {len fuel l : Nat}

theorem slotBase_le (s : State) : slotBase s ≤ 8192 := by
  simp only [slotBase, Config.W]
  omega

theorem flushStable_room : FlushStable (Room len fuel l) where
  stream _ _ _ h := { h with }
  taken _ _ hn h := { h with
    toRegistersInRange := h.toRegistersInRange.taken hn
    run_lt := Nat.lt_of_le_of_lt (Nat.add_le_add_right (Nat.sub_le ..) _) h.run_lt }
  inRange _ h := h.toRegistersInRange

/-- After a match the cursor is past the match and its trailing byte, and the pending run is empty there (R115). -/
theorem scanning_matched {s : State} (h : Room len fuel l s) : Scanning len
    { s with cursor := s.cursor + l + 1, litStart := (s.cursor + l + 1) % Config.NW, P := 0 } := by
  have hroom := h.room
  have hbase := h.base_le
  have hborder := h.border
  refine { h with cursor := ?_, P := ?_, litStart := ?_, run := ?_, base_le := ?_, cursor_le := ?_, run_lt := ?_ }
  all_goals
    simp only [slotBase, Config.NW, Config.W] at *
    omega

theorem ensures_matchStep (d : Nat) : Ensures RegistersInRange (Room len fuel l) (matchStep d l)
    fun _ s => Scanning len s ∧ s.border ≤ s.cursor + fuel := by
  refine flushStable_room.ensures_flushLiterals.bind fun _ =>
    (ensures_reads (Q := fun _ => Room len fuel l) fun _ h => h.1).bind fun _ =>
    (ensures_sinkWrite flushStable_room.stream flushStable_room.inRange _).bind fun _ =>
    (ensures_upd (Q := fun _ => Room len fuel l) fun s h => ?_).bind fun _ => ensures_upd fun s h => ?_
  · rw [insertSpan_eq]
    exact { h with }
  · have hborder := h.border_le
    exact ⟨scanning_matched h, by show s.border ≤ s.cursor + l + 1 + fuel; omega⟩

/-- A literal moves the cursor and the end of the pending run by one byte (R117). -/
theorem scanning_literal {s : State} (h : Room len fuel 0 s) (b : BitVec 13) :
    Scanning len { insertPos b s.cursor s with cursor := s.cursor + 1, P := s.P + 1 } := by
  have hroom := h.room
  have hbase := h.base_le
  have hborder := h.border
  have hborder_eq := h.border_eq
  have hlen := h.len_le
  have hrun := h.run
  have hrun_lt := h.run_lt
  refine { h with cursor := ?_, P := ?_, run := ?_, base_le := ?_, cursor_le := ?_, run_lt := ?_ }
  all_goals
    simp only [insertPos_litStart, insertPos_border, slotBase, insertPos_k, Config.W] at *
    omega

theorem ensures_literalStep (b : BitVec 13) : Ensures RegistersInRange (Room len fuel 0) (literalStep b)
    fun _ s => Scanning len s ∧ s.border ≤ s.cursor + fuel := by
  refine ensures_upd fun s h => ⟨scanning_literal h b, ?_⟩
  have hborder := h.border_le
  show s.border ≤ s.cursor + 1 + fuel
  omega

/-- The search ends with a best length that leaves a byte after the match before the border (R110). -/
theorem room_search {s : State} (h : Room len fuel 0 s) (b : BitVec 13) :
    Room len fuel (searchMatch s b).bestLen { s with search := searchMatch s b } := by
  have hroom := h.room
  have hla : s.border - s.cursor - 1 ≤ 8191 := by
    have hbase := h.base_le
    have hborder := h.border_eq
    have hlen := h.len_le
    omega
  have hsearch := searching_searchMatch h.search hla b
  have hbest := hsearch.bestLen_le
  refine { h with search := hsearch.toSearchInRange, room := ?_ }
  show s.cursor + (searchMatch s b).bestLen + 1 ≤ s.border
  omega

theorem ensures_scanStep : Ensures RegistersInRange (Room len fuel 0) scanStep
    fun _ s => Scanning len s ∧ s.border ≤ s.cursor + fuel := by
  refine (ensures_reads (Q := fun _ => Room len fuel 0) fun _ h => h).bind fun b =>
    (ensures_upd (Q := fun _ s => Room len fuel s.search.bestLen s) fun s h => room_search h b).bind fun _ =>
    (ensures_reads (Q := fun r : Search => Room len fuel r.bestLen) fun _ h => h).bind fun r => ?_
  split
  · exact ensures_matchStep _
  · refine (ensures_literalStep b).of_imp (fun s h => { h with room := ?_ }) fun _ _ h => h
    have hroom := h.room
    omega

/-- Each scan step advances the cursor, so the scan ends at the border (R104, R203). -/
theorem ensures_scanLoop (fuel : Nat) : Ensures RegistersInRange
    (fun s => Scanning len s ∧ s.border ≤ s.cursor + fuel) (scanLoop fuel)
    fun _ s => Scanning len s ∧ s.border ≤ s.cursor := by
  induction fuel with
  | zero => exact ensures_pure fun _ h => h
  | succ fuel ih =>
    refine (ensures_reads (Q := fun inside s => (Scanning len s ∧ s.border ≤ s.cursor + (fuel + 1)) ∧
      inside = decide (s.cursor < s.border)) fun _ h => ⟨h, rfl⟩).bind fun inside => ?_
    split
    · next hin =>
      refine (ensures_scanStep.of_imp ?_ fun _ _ h => h).bind fun _ => ih
      rintro s ⟨⟨h, hborder⟩, hinside⟩
      exact { h with room := of_decide_eq_true (hinside.symm.trans hin), border_le := hborder }
    · next hin =>
      refine ensures_pure ?_
      rintro s ⟨⟨h, -⟩, rfl⟩
      exact ⟨h, by simpa using hin⟩

/-! ### The refill cycle -/

/-- After an even refill the guard is the mirror of slot 0; an odd one writes neither (R26, R105, R106). -/
theorem guardOk_placeChunk {s : State} {bytes : List Byte} (hwf : Mem.WF s.wb) (hguard : GuardOk s)
    (hlen : bytes.length ≤ 8192) : GuardOk (placeChunk bytes s) := by
  intro j hj
  simp only [Config.G] at hj
  have hwf' := Mem.wf_writeList hwf (slotBase s) bytes
  unfold windowByte
  rw [placeChunk_wb]
  split
  · rw [read_mirror hwf', read_mirror hwf', if_pos (by simp only [Config.G]; omega),
      if_neg (by simp only [Config.NW, Config.W]; omega), Nat.add_sub_cancel_left]
  · next hodd =>
    have hbase : slotBase s = 8192 := by
      simp only [slotBase, Config.W]
      omega
    rw [Mem.read_writeList hwf, Mem.read_writeList hwf, if_neg (by simp only [Config.NW, Config.W]; omega),
      if_neg (by omega)]
    exact hguard j hj

theorem wf_placeChunk {s : State} (hwf : Mem.WF s.wb) (bytes : List Byte) : Mem.WF (placeChunk bytes s).wb := by
  have hwf' := Mem.wf_writeList hwf (slotBase s) bytes
  rw [placeChunk_wb]
  split
  · exact wf_mirror hwf'
  · exact hwf'

theorem scanning_placeChunk {s : State} {bytes : List Byte} (h : BeforeRefill s) (hlen : bytes.length ≤ 8192) :
    Scanning bytes.length (placeChunk bytes s) := by
  obtain ⟨hregs, hcursor, hP⟩ := h
  have hbase := slotBase_le s
  exact { hregs with
    border := by rw [placeChunk_border]; omega
    guard := guardOk_placeChunk hregs.window hregs.guard hlen
    window := wf_placeChunk hregs.window bytes
    len_le := hlen
    border_eq := rfl
    base_le := Nat.le_of_eq hcursor.symm
    cursor_le := by rw [placeChunk_border, placeChunk_cursor]; omega
    run_lt := by show s.P + slotBase s < s.cursor + 8192; omega }

/-- The state after the scan of a chunk of `len` bytes and the cursor wrap: a full chunk leaves the cursor at the
base of the other slot (R118). -/
def Scanned (len : Nat) (s : State) : Prop :=
  RegistersInRange s ∧ (8192 ≤ len → s.cursor = (s.k + 1) % 2 * 8192)

/-- Only the cursor modulo `NW` is tied to the pending run. -/
theorem RegistersInRange.moved {s : State} (h : RegistersInRange s) {cursor : Nat} (hle : cursor ≤ 16384)
    (hmod : cursor % 16384 = s.cursor % 16384) : RegistersInRange { s with cursor := cursor } :=
  { h with cursor := hle, run := h.run.trans hmod.symm }

theorem scanned_wrapCursor {s : State} (h : Scanning len s) (hend : s.border ≤ s.cursor) :
    Scanned len (wrapCursor s) := by
  have hborder := h.border_eq
  have hle := h.cursor_le
  have hrange := h.cursor
  have hlen := h.len_le
  simp only [slotBase, Config.W] at hborder
  by_cases hwrap : Config.NW ≤ s.cursor
  · rw [wrapCursor_of_le hwrap]
    simp only [Config.NW, Config.W] at hwrap ⊢
    exact ⟨h.toRegistersInRange.moved (by omega) (by omega), fun _ => by dsimp only; omega⟩
  · rw [wrapCursor_of_not_le hwrap]
    simp only [Config.NW, Config.W] at hwrap
    exact ⟨h.toRegistersInRange, fun _ => by omega⟩

theorem flushStable_scanned : FlushStable (Scanned len) where
  stream _ _ _ h := ⟨{ h.1 with }, h.2⟩
  taken _ _ hn h := ⟨h.1.taken hn, h.2⟩
  inRange _ h := h.1

theorem ensures_forceFlush : Ensures RegistersInRange (Scanned len) forceFlush
    fun _ s => Scanned len s ∧ s.P < 8192 := by
  refine (ensures_reads (Q := fun P s => Scanned len s ∧ s.P = P) fun _ h => ⟨h, rfl⟩).bind fun P => ?_
  split
  · exact flushStable_scanned.ensures_flushLiterals.of_imp (fun _ h => h.1)
      fun _ s h => ⟨h.1, by rw [h.2]; decide⟩
  · next hP => exact ensures_pure fun s h => ⟨h.1, by rw [h.2]; exact Nat.lt_of_not_le hP⟩

theorem ensures_srcRead : Ensures RegistersInRange BeforeRefill (srcRead Config.S)
    fun bytes s => BeforeRefill s ∧ bytes.length ≤ 8192 := by
  have h : Ensures RegistersInRange BeforeRefill (srcRead Config.S) fun _ => BeforeRefill :=
    ensures_of_keeps (R := fun s t => BeforeRefill s → BeforeRefill t)
      (keeps_srcRead (fun _ _ h => ⟨{ h.1 with }, h.2⟩) (fun _ _ _ h => ⟨{ h.1 with }, h.2⟩) _)
      (fun _ _ h => h) fun _ h => h.1
  exact ⟨fun hs hr => ⟨h.ok hs hr, length_le_of_srcRead hr⟩, h.error⟩

/-- A refill cycle that is not the last one ends before a refill. -/
def AfterCycle (last : Bool) (s : State) : Prop :=
  RegistersInRange s ∧ (last = false → BeforeRefill s)

theorem ensures_refillCycle : Ensures RegistersInRange BeforeRefill refillCycle AfterCycle := by
  refine ensures_srcRead.bind fun bytes =>
    (ensures_upd (Q := fun _ s => BeforeRefill s ∧ bytes.length ≤ 8192) fun s h =>
      ⟨⟨{ h.1.1 with n := h.2 }, h.1.2⟩, h.2⟩).bind fun _ => ?_
  split
  · exact ensures_pure fun s h => ⟨h.1.1, fun h => by cases h⟩
  · refine (ensures_upd (Q := fun _ => Scanning bytes.length) fun s h => scanning_placeChunk h.1 h.2).bind fun _ =>
      (ensures_reads (Q := fun steps s => Scanning bytes.length s ∧ s.border ≤ s.cursor + steps) fun s h =>
        ⟨h, le_add_tsub⟩).bind fun steps =>
      (ensures_scanLoop steps).bind fun _ =>
      (ensures_upd (Q := fun _ => Scanned bytes.length) fun s h => scanned_wrapCursor h.1 h.2).bind fun _ =>
      ensures_forceFlush.bind fun _ => ?_
    split
    · exact ensures_pure fun s h => ⟨h.1.1, fun h => by cases h⟩
    · next hfull =>
      refine (ensures_upd (Q := fun _ => BeforeRefill) ?_).bind fun _ => ensures_pure fun s h => ⟨h.1, fun _ => h⟩
      rintro s ⟨⟨hregs, hcursor⟩, hP⟩
      exact ⟨{ hregs with }, hcursor (Nat.le_of_not_lt hfull), hP⟩

theorem ensures_refillLoop (fuel : Nat) : Ensures RegistersInRange BeforeRefill (refillLoop fuel) AfterCycle := by
  induction fuel with
  | zero => exact ensures_pure fun s h => ⟨h.1, fun _ => h⟩
  | succ fuel ih =>
    refine ensures_refillCycle.bind fun last => ?_
    split
    · exact ensures_pure fun s h => ⟨h.1, fun h => by cases h⟩
    · next hlast => exact ih.of_imp (fun s h => h.2 (by simpa using hlast)) fun _ _ h => h

theorem ensures_compressBody : Ensures RegistersInRange BeforeRefill compressBody
    fun _ => CompressorInv := by
  refine (ensures_reads (Q := fun _ => BeforeRefill) fun _ h => h).bind fun cycles =>
    (ensures_refillLoop cycles).bind fun ended => ?_
  split
  · exact (flushStable_registersInRange.ensures_flushLiterals.of_imp (fun _ h => h.1) fun _ _ h => h.1).bind
      fun _ => ensures_upd fun s h => compressorInv_of_ne { h with } (by simp)
  · next hended =>
    exact ensures_pure fun s h => (compressorInv_iff.mpr ⟨h.1, fun _ => h.2 (by simpa using hended)⟩).1

/-! ### Every step -/

/-- Settles O59: the refill cycles keep the registers in their ranges and end before a refill; DECOMPRESS leaves
them alone, and a new command starts them at 0. -/
theorem compressorRegistersStayInRange : Obligations.CompressorRegistersStayInRange := by
  intro s t hinv hwf h
  obtain ⟨hregs, hrunning⟩ := compressorInv_iff.mp ⟨hinv, hwf⟩
  cases stepsTo_of_step h with
  | waits => exact hinv
  | compress c later =>
    rcases settle_compressCommand_cases (accept c later s) with ⟨e, hs⟩ | hs <;> rw [hs]
    · exact compressorInv_abort e _ { hregs with }
    · exact settle_of_ensures ensures_compressBody compressorInv_abort (beforeRefill_resetBlock _ _)
  | decompress c later =>
    rcases settle_decompressCommand_cases (accept c later s) with ⟨e, hs⟩ | hs <;> rw [hs]
    · exact compressorInv_abort e _ { hregs with }
    · exact compressorInv_of_ne (registersInRange_resetBlock _ _) (by simp)
  | refills he => exact settle_of_ensures ensures_compressBody compressorInv_abort (hrunning he)
  | token he =>
    refine compressorInv_of_ne (hregs.of_leaves (tokenStep_leaves_compressorOf s)) fun hc => ?_
    have heq := (resultHeld_tokenStep s).engine_eq (by simp [hc])
    simp [hc, he] at heq

end Sys2Proof.Machine

/-! Two runs of COMPRESS from states that an earlier command left different (spec/10_state.md R46,
spec/41_compressor.md R123). -/

namespace Sys2Proof.Machine

variable {α β : Type}

/-! ### States that COMPRESS cannot tell apart -/

/-- `u` with the host's later calls and the result of another state. -/
def withHostResult (host : List HostCall) (result : Result) (u : State) : State :=
  { u with host := host, result := result }

/-- `s` and `u` differ in the host's later calls at most, and in the result while a command runs. -/
def Agree (s u : State) : Prop :=
  s = withHostResult s.host s.result u ∧ (u.engine = .idle → s.result = u.result)

/-- An update that neither reads nor writes the host's calls and the result, and leaves the engine. -/
structure Inert (f : State → State) : Prop where
  comm : ∀ host result u, f (withHostResult host result u) = withHostResult host result (f u)
  engine : ∀ u, (f u).engine = u.engine
  result : ∀ u, (f u).result = u.result

theorem Inert.agree {f : State → State} (hf : Inert f) {s u : State} (h : Agree s u) : Agree (f s) (f u) := by
  obtain ⟨hs, hidle⟩ := h
  refine ⟨?_, fun hi => ?_⟩
  · rw [hs, hf.comm]
    rfl
  · rw [hf.result, hf.result, hidle ((hf.engine u).symm.trans hi)]

theorem agree_abort {s u : State} (h : Agree s u) (e : Err) : Agree (abort e s) (abort e u) :=
  ⟨by rw [h.1]; rfl, fun _ => rfl⟩

theorem agree_complete {s u : State} (h : Agree s u) : Agree (complete s) (complete u) :=
  ⟨by rw [h.1]; rfl, fun _ => rfl⟩

/-- What does not read the host's calls and the result is the same in both states. -/
theorem Agree.read_eq {s u : State} (h : Agree s u) {f : State → α}
    (hf : ∀ host result u, f (withHostResult host result u) = f u) : f s = f u := by
  rw [h.1, hf]

/-! ### Command pieces that go the same way from both -/

/-- Two runs of a command piece give the same answer, or raise the same error, in states that agree. -/
inductive SameWay : MResult α → MResult α → Prop where
  | ok {a : α} {t v : State} (h : Agree t v) : SameWay (.ok a t) (.ok a v)
  | error {e : Err} {t v : State} (h : Agree t v) : SameWay (.error e t) (.error e v)

/-- From states that agree the piece goes the same way. -/
def Respects (m : M α) : Prop :=
  ∀ s u, Agree s u → SameWay (m s) (m u)

theorem respects_bind {m : M α} {f : α → M β} (hm : Respects m) (hf : ∀ a, Respects (f a)) :
    Respects (m >>= f) := by
  intro s u h
  have hway := hm s u h
  rw [M.bind_apply, M.bind_apply]
  generalize m s = x, m u = y at hway
  cases hway with
  | ok h => exact hf _ _ _ h
  | error h => exact .error h

theorem respects_pure (a : α) : Respects (pure a : M α) :=
  fun _ _ h => .ok h

theorem respects_reads {f : State → α}
    (hf : ∀ host result u, f (withHostResult host result u) = f u := by exact fun _ _ _ => rfl) :
    Respects (M.reads f) := by
  intro s u h
  rw [M.reads_apply, M.reads_apply, h.read_eq hf]
  exact .ok h

theorem respects_upd {f : State → State}
    (hf : Inert f := by exact ⟨fun _ _ _ => rfl, fun _ => rfl, fun _ => rfl⟩) : Respects (M.upd f) :=
  fun _ _ h => .ok (hf.agree h)

theorem respects_srcRead (n : Nat) : Respects (srcRead n) := by
  intro s u h
  have hahead : ∀ m, ahead m s = ahead m u := fun m => h.read_eq fun _ _ _ => rfl
  have hfail : ∀ io, Inert fun s => { s with io := io } := fun _ =>
    ⟨fun _ _ _ => rfl, fun _ => rfl, fun _ => rfl⟩
  have htake : ∀ m io, Inert fun s => { advance m s with io := io } := fun _ _ =>
    ⟨fun _ _ _ => rfl, fun _ => rfl, fun _ => rfl⟩
  unfold srcRead
  rw [show s.io = u.io from h.read_eq fun _ _ _ => rfl]
  split
  · exact .error ((hfail _).agree h)
  · rw [hahead]
    exact .ok ((htake _ _).agree h)
  · rw [hahead]
    exact .ok ((htake _ _).agree h)

theorem respects_sinkWrite (bytes : List Byte) : Respects (sinkWrite bytes) := by
  intro s u h
  have hput : ∀ io delivered, Inert fun s => { s with io := io, sink := s.sink ++ [delivered] } := fun _ _ =>
    ⟨fun _ _ _ => rfl, fun _ => rfl, fun _ => rfl⟩
  unfold sinkWrite
  rw [show s.io = u.io from h.read_eq fun _ _ _ => rfl]
  split
  · exact .error ((hput _ _).agree h)
  · exact .ok ((hput _ _).agree h)

/-! ### COMPRESS -/

theorem respects_flushLoop (fuel : Nat) : Respects (flushLoop fuel) := by
  induction fuel with
  | zero => exact respects_pure ()
  | succ fuel ih =>
    refine respects_bind respects_reads fun P => ?_
    split
    · exact respects_pure ()
    · exact respects_bind respects_reads fun run =>
        respects_bind (respects_sinkWrite _) fun _ =>
        respects_bind (respects_sinkWrite _) fun _ =>
        respects_bind respects_upd fun _ => ih

theorem respects_flushLiterals : Respects flushLiterals :=
  respects_bind respects_reads fun P => respects_flushLoop P

theorem insertSpan_withHostResult (count q : Nat) (host : List HostCall) (result : Result) (u : State) :
    insertSpan count q (withHostResult host result u) = withHostResult host result (insertSpan count q u) := by
  induction count generalizing q u with
  | zero => rfl
  | succ count ih => exact ih (q + 1) (insertPos (hashAt u q) q u)

theorem inert_insertSpan (count : Nat) : Inert fun s => insertSpan count s.cursor s where
  comm host result u := insertSpan_withHostResult count u.cursor host result u
  engine u := by rw [insertSpan_eq]
  result u := by rw [insertSpan_eq]

theorem respects_matchStep (d l : Nat) : Respects (matchStep d l) :=
  respects_bind respects_flushLiterals fun _ =>
    respects_bind respects_reads fun _ =>
    respects_bind (respects_sinkWrite _) fun _ =>
    respects_bind (respects_upd (inert_insertSpan (l + 1))) fun _ => respects_upd

theorem respects_scanStep : Respects scanStep := by
  refine respects_bind respects_reads fun h =>
    respects_bind respects_upd fun _ =>
    respects_bind respects_reads fun r => ?_
  split
  · exact respects_matchStep _ _
  · exact respects_upd

theorem respects_scanLoop (fuel : Nat) : Respects (scanLoop fuel) := by
  induction fuel with
  | zero => exact respects_pure ()
  | succ fuel ih =>
    refine respects_bind respects_reads fun inside => ?_
    split
    · exact respects_bind respects_scanStep fun _ => ih
    · exact respects_pure ()

theorem inert_wrapCursor : Inert wrapCursor where
  comm host result u := by
    by_cases h : Config.NW ≤ u.cursor
    · exact (wrapCursor_of_le (s := withHostResult host result u) h).trans (by rw [wrapCursor_of_le h]; rfl)
    · exact (wrapCursor_of_not_le (s := withHostResult host result u) h).trans (by rw [wrapCursor_of_not_le h])
  engine u := by rw [wrapCursor_eq]
  result u := by rw [wrapCursor_eq]

theorem respects_forceFlush : Respects forceFlush := by
  refine respects_bind respects_reads fun P => ?_
  split
  · exact respects_flushLiterals
  · exact respects_pure ()

theorem respects_refillCycle : Respects refillCycle := by
  refine respects_bind (respects_srcRead _) fun bytes =>
    respects_bind respects_upd fun _ => ?_
  split
  · exact respects_pure true
  · refine respects_bind respects_upd fun _ =>
      respects_bind respects_reads fun steps =>
      respects_bind (respects_scanLoop steps) fun _ =>
      respects_bind (respects_upd inert_wrapCursor) fun _ =>
      respects_bind respects_forceFlush fun _ => ?_
    split
    · exact respects_pure true
    · exact respects_bind respects_upd fun _ => respects_pure false

theorem respects_refillLoop (fuel : Nat) : Respects (refillLoop fuel) := by
  induction fuel with
  | zero => exact respects_pure false
  | succ fuel ih =>
    refine respects_bind respects_refillCycle fun last => ?_
    split
    · exact respects_pure true
    · exact ih

theorem respects_compressBody : Respects compressBody := by
  refine respects_bind respects_reads fun cycles =>
    respects_bind (respects_refillLoop cycles) fun ended => ?_
  split
  · exact respects_bind respects_flushLiterals fun _ _ _ h => .ok (agree_complete h)
  · exact respects_pure ()

theorem agree_settle {m : M Unit} (hm : Respects m) {s u : State} (h : Agree s u) :
    Agree (settle m s) (settle m u) := by
  have hway := hm s u h
  unfold settle
  generalize m s = x, m u = y at hway
  cases hway with
  | ok h => exact h
  | error h => exact agree_abort h _

/-- The reset leaves nothing an earlier command left but the result. -/
theorem agree_resetBlock {s u : State} (hcmd : s.cmd = u.cmd) (hsource : s.source = u.source)
    (hendless : s.endless = u.endless) (hsink : s.sink = u.sink) (hio : s.io = u.io) :
    Agree (resetBlock .compress s) (resetBlock .compress u) := by
  refine ⟨?_, fun h => by cases h⟩
  simp only [resetBlock, resetCompressor, resetDecompressor, withHostResult, hcmd, hsource, hendless, hsink, hio]

/-- Settles O31: after the reset the two states agree, and no piece of COMPRESS tells them apart. -/
theorem compressIgnoresEarlierState : Obligations.CompressIgnoresEarlierState := by
  intro s u t v hcmd hsource hendless hsink hio hsrcPresent hsinkPresent ht hv
  have hhost := (streamsForward_exec ht).host
  cases ht
  cases hv
  have hs := checkPreconditions_of_present hsrcPresent hsinkPresent
  have hu := checkPreconditions_of_present (hcmd ▸ hsrcPresent) (hcmd ▸ hsinkPresent)
  rw [settle_compressCommand_of_checked hs] at hhost ⊢
  rw [settle_compressCommand_of_checked hu]
  obtain ⟨heq, hresult⟩ := agree_settle respects_compressBody (agree_resetBlock hcmd hsource hendless hsink hio)
  rw [hhost] at heq
  exact ⟨heq, fun hidle => hresult (by rw [heq] at hidle; exact hidle)⟩

end Sys2Proof.Machine

/-! What LIT and MATCH leave alone, and where they write the ring (spec/20_memory.md R51, R62; spec/43_decompressor.md
R154). -/

namespace Sys2Proof.Machine

/-! ### The registers outside a token -/

/-- `s` with the streams, the ring and the decoder's counters of `u`: all that the pieces LIT and MATCH share can
write. -/
def withTokenWrites (u s : State) : State :=
  { s with
    source := u.source, endless := u.endless, sink := u.sink, io := u.io, ring := u.ring, inPos := u.inPos
    wcur := u.wcur, produced := u.produced, flushed := u.flushed, nextHalf := u.nextHalf, fsm := u.fsm }

/-- The pieces of a token leave every part of the state that does not depend on what they write. -/
theorem tokenPieces_leaves {f : State → State} (hf : ∀ u s, f (withTokenWrites u s) = f s) :
    TokenPieces (Leaves f) where
  refl := Leaves.refl
  trans := Leaves.trans
  read := keeps_srcByte (fun s io => hf { s with io := io } s) fun s io pos =>
    hf { advance 1 s with io := io, inPos := pos } s
  write := keeps_sinkWrite fun s io delivered => hf { s with io := io, sink := s.sink ++ [delivered] } s
  store s x := hf (storeByte x s) s
  fsm s state := hf { s with fsm := state } s
  flushed s := hf { s with flushed := s.flushed + Config.H, nextHalf := 1 - s.nextHalf } s

/-- What no token reaches: the compressor, the index, the command record, the host's calls and `b1`. -/
def outsideTokens (s : State) : State :=
  { compressorOf s with cmd := s.cmd, host := s.host, b1 := s.b1 }

/-- What LIT leaves: it writes none of the fields of a match. -/
def outsideLit (s : State) : State :=
  { outsideTokens s with D := s.D, Lm := s.Lm }

/-- What MATCH leaves: it does not write the literal length. -/
def outsideMatch (s : State) : State :=
  { outsideTokens s with L := s.L }

theorem leaves_outsideTokens_iff {s t : State} : Leaves outsideTokens s t ↔
    t.host = s.host ∧ t.cmd = s.cmd ∧ t.cursor = s.cursor ∧ t.wb = s.wb ∧ t.border = s.border ∧ t.k = s.k ∧
    t.n = s.n ∧ t.P = s.P ∧ t.litStart = s.litStart ∧ t.search = s.search ∧ t.slots = s.slots ∧ t.rr = s.rr ∧
    t.b1 = s.b1 := by
  simp [Leaves, outsideTokens, compressorOf]

theorem leaves_outsideLit_iff {s t : State} : Leaves outsideLit s t ↔
    Leaves outsideTokens s t ∧ t.D = s.D ∧ t.Lm = s.Lm := by
  simp [Leaves, outsideLit, outsideTokens, compressorOf, and_assoc]

theorem leaves_outsideMatch_iff {s t : State} : Leaves outsideMatch s t ↔
    Leaves outsideTokens s t ∧ t.L = s.L := by
  simp [Leaves, outsideMatch, outsideTokens, compressorOf, and_assoc]

theorem litPieces_leaves_outsideLit : LitPieces (Leaves outsideLit) where
  toTokenPieces := tokenPieces_leaves fun _ _ => rfl
  fields _ _ _ := rfl

theorem matchPieces_leaves_outsideMatch : MatchPieces (Leaves outsideMatch) where
  toTokenPieces := tokenPieces_leaves fun _ _ => rfl
  fields _ _ _ := rfl
  length _ _ := rfl

theorem litCommand_leaves_outsideLit (b1 : Byte) (s : State) : Leaves outsideLit s (settle (litCommand b1) s) :=
  rel_settle_of_keeps (R := Leaves outsideLit) Leaves.trans (fun _ _ => rfl)
    (keeps_litCommand litPieces_leaves_outsideLit b1) s

theorem matchCommand_leaves_outsideMatch (b1 : Byte) (s : State) :
    Leaves outsideMatch s (settle (matchCommand b1) s) :=
  rel_settle_of_keeps (R := Leaves outsideMatch) Leaves.trans (fun _ _ => rfl)
    (keeps_matchCommand matchPieces_leaves_outsideMatch b1) s

/-! ### The ring addresses a token writes -/

/-- From `s` to `t` a number `n` of bytes was put: at `wcur` and the next addresses modulo `C`, and at no other. -/
structure RingPuts (n : Nat) (s t : State) : Prop where
  produced : t.produced = s.produced + n
  wcur : t.wcur ≡ s.wcur + n [MOD Config.C]
  wf : Mem.WF s.ring → Mem.WF t.ring
  frame : Mem.WF s.ring → ∀ a, (∀ j, j < n → a ≠ (s.wcur + j) % Config.C) →
    Mem.read t.ring a = Mem.read s.ring a

theorem RingPuts.of_eq {s t : State} (hproduced : t.produced = s.produced) (hwcur : t.wcur = s.wcur)
    (hring : t.ring = s.ring) : RingPuts 0 s t :=
  ⟨hproduced, congrArg (· % Config.C) hwcur, fun h => by rwa [hring], fun _ _ _ => by rw [hring]⟩

/-- One RingPut writes the one address `wcur` modulo `C` (R154). -/
theorem ringPuts_storeByte (s : State) (x : Byte) : RingPuts 1 s (storeByte x s) where
  produced := rfl
  wcur := Nat.mod_modEq _ _
  wf h := Mem.wf_write h _ x
  frame h _ ha := Mem.read_write_other h x (ha 0 Nat.one_pos)

/-- The second run of puts begins where the first one ended. -/
theorem RingPuts.trans {m n : Nat} {s t u : State} (hst : RingPuts m s t) (htu : RingPuts n t u) :
    RingPuts (m + n) s u where
  produced := by rw [htu.produced, hst.produced, Nat.add_assoc]
  wcur := by
    rw [← Nat.add_assoc]
    exact htu.wcur.trans (hst.wcur.add_right n)
  wf := htu.wf ∘ hst.wf
  frame hwf a ha := by
    have hfirst : ∀ j, j < m → a ≠ (s.wcur + j) % Config.C := fun j hj => ha j (by omega)
    have hsecond : ∀ j, j < n → a ≠ (t.wcur + j) % Config.C := fun j hj => by
      have haddr : (t.wcur + j) % Config.C = (s.wcur + m + j) % Config.C := hst.wcur.add_right j
      rw [haddr, Nat.add_assoc]
      exact ha (m + j) (by omega)
    rw [htu.frame (hst.wf hwf) a hsecond, hst.frame hwf a hfirst]

/-- From `s` to `t` the ring changes only by puts. -/
def OnlyRingPuts (s t : State) : Prop :=
  ∃ n, RingPuts n s t

theorem OnlyRingPuts.of_eq {s t : State} (hproduced : t.produced = s.produced) (hwcur : t.wcur = s.wcur)
    (hring : t.ring = s.ring) : OnlyRingPuts s t :=
  ⟨0, .of_eq hproduced hwcur hring⟩

theorem OnlyRingPuts.trans (a b c : State) (hab : OnlyRingPuts a b) (hbc : OnlyRingPuts b c) :
    OnlyRingPuts a c := by
  obtain ⟨m, hm⟩ := hab
  obtain ⟨n, hn⟩ := hbc
  exact ⟨m + n, hm.trans hn⟩

theorem tokenPieces_onlyRingPuts : TokenPieces OnlyRingPuts where
  refl _ := .of_eq rfl rfl rfl
  trans := OnlyRingPuts.trans
  read := keeps_srcByte (fun _ _ => .of_eq rfl rfl rfl) fun _ _ _ => .of_eq rfl rfl rfl
  write := keeps_sinkWrite fun _ _ _ => .of_eq rfl rfl rfl
  store s x := ⟨1, ringPuts_storeByte s x⟩
  fsm _ _ := .of_eq rfl rfl rfl
  flushed _ := .of_eq rfl rfl rfl

theorem onlyRingPuts_settle {m : M Unit} (hm : Keeps OnlyRingPuts m) (s : State) : OnlyRingPuts s (settle m s) :=
  rel_settle_of_keeps OnlyRingPuts.trans (fun _ _ => .of_eq rfl rfl rfl) hm s

theorem onlyRingPuts_litCommand (b1 : Byte) (s : State) : OnlyRingPuts s (settle (litCommand b1) s) :=
  onlyRingPuts_settle
    (keeps_litCommand { tokenPieces_onlyRingPuts with fields := fun _ _ _ => .of_eq rfl rfl rfl } b1) s

theorem onlyRingPuts_matchCommand (b1 : Byte) (s : State) : OnlyRingPuts s (settle (matchCommand b1) s) :=
  onlyRingPuts_settle
    (keeps_matchCommand
      { tokenPieces_onlyRingPuts with
        fields := fun _ _ _ => .of_eq rfl rfl rfl
        length := fun _ _ => .of_eq rfl rfl rfl } b1) s

/-- The number of puts is what `produced` grew by. -/
theorem OnlyRingPuts.ringPuts {s t : State} (h : OnlyRingPuts s t) : RingPuts (t.produced - s.produced) s t := by
  obtain ⟨n, hn⟩ := h
  rwa [hn.produced, Nat.add_sub_cancel_left]

theorem OnlyRingPuts.produced_le {s t : State} (h : OnlyRingPuts s t) : s.produced ≤ t.produced := by
  obtain ⟨n, hn⟩ := h
  rw [hn.produced]
  exact Nat.le_add_right _ n

/-! ### The frame of LIT and MATCH -/

/-- However a token ends, it leaves what no token reaches, and the ring changes only by puts. -/
theorem exec_token_frame {i : Instr} {b1 : Byte} {s t : State} (hi : i = .lit b1 ∨ i = .matchTok b1)
    (h : exec i s = .next t) :
    Leaves outsideTokens s t ∧ (i = .lit b1 → t.D = s.D ∧ t.Lm = s.Lm) ∧ (i = .matchTok b1 → t.L = s.L) ∧
      OnlyRingPuts s t := by
  rcases hi with rfl | rfl
  · cases h
    obtain ⟨hout, hmatchFields⟩ := leaves_outsideLit_iff.mp (litCommand_leaves_outsideLit b1 s)
    exact ⟨hout, fun _ => hmatchFields, nofun, onlyRingPuts_litCommand b1 s⟩
  · cases h
    obtain ⟨hout, hL⟩ := leaves_outsideMatch_iff.mp (matchCommand_leaves_outsideMatch b1 s)
    exact ⟨hout, nofun, fun _ => hL, onlyRingPuts_matchCommand b1 s⟩

/-- Settles O41: the pieces of a token write the streams, the fields of its own type and the decoder's counters, and
the ring only through `storeByte`. -/
theorem tokensWriteOnlyTheRing : Obligations.TokensWriteOnlyTheRing := by
  intro s t b1 i hi h
  obtain ⟨hout, hlit, hmatch, hring⟩ := exec_token_frame hi h
  obtain ⟨hhost, hcmd, hcursor, hwb, hborder, hk, hn, hP, hlitStart, hsearch, hslots, hrr, hb1⟩ :=
    leaves_outsideTokens_iff.mp hout
  exact ⟨hwb, hcursor, hborder, hk, hn, hP, hlitStart, hsearch, hslots, hrr, hcmd, hhost, hb1, hlit, hmatch,
    hring.produced_le, hring.ringPuts.frame⟩

end Sys2Proof.Machine

/-! The token codec (spec/30_encoding.md R71 to R84): the fields of a token as numbers, the decoder case by case, and
the wire form of a token, on which the decoder and the encoder agree. -/

namespace Sys2Proof

/-! ### Instructions -/

/-- Bit 0 is set in every other number. -/
theorem length_filter_getLsbD_zero (n : Nat) :
    ((List.range (2 * n)).filter fun m => (BitVec.ofNat 8 m).getLsbD 0).length = n := by
  have hbit (m : Nat) : (BitVec.ofNat 8 m).getLsbD 0 = decide (m % 2 = 1) := by simp [BitVec.getElem_eq_testBit_toNat]
  induction n with
  | zero => rfl
  | succ n ih =>
    simp only [hbit] at ih ⊢
    simp [Nat.mul_succ, List.range_succ, ih]

/-- Settles O3: the two types of a header are the round trips of LIT and MATCH, and half of the byte values have bit 0
set. -/
theorem headerSelectsByBitZero : Obligations.HeaderSelectsByBitZero := by
  have hlit : ((List.range 256).filter fun n => (BitVec.ofNat 8 n).getLsbD 0).length = 128 :=
    length_filter_getLsbD_zero 128
  have htotal := List.length_eq_length_filter_add (l := List.range 256) fun n => (BitVec.ofNat 8 n).getLsbD 0
  rw [hlit, List.length_range] at htotal
  exact ⟨fun b1 => ⟨Laws.RoundTrip.lit b1, Laws.RoundTrip.matchTok b1⟩, hlit, by omega⟩

/-- Settles O4: the two modes are the round trips of COMPRESS and DECOMPRESS. -/
theorem modeSelectsTheCommand : Obligations.ModeSelectsTheCommand :=
  ⟨Laws.RoundTrip.compress trivial, Laws.RoundTrip.decompress trivial, by decide⟩

/-- Settles O5, by running the decoder on each word. -/
theorem writtenOutWordsDecode : Obligations.WrittenOutWordsDecode := by
  unfold Obligations.WrittenOutWordsDecode
  decide

/-! ### Fields -/

theorem getLsbD_zero_eq_true_iff {b : Byte} : b.getLsbD 0 = true ↔ b.toNat % 2 = 1 := by
  simp [BitVec.getLsbD, Nat.testBit_zero]

theorem getLsbD_zero_eq_false_iff {b : Byte} : b.getLsbD 0 = false ↔ b.toNat % 2 = 0 := by
  simp [BitVec.getLsbD, Nat.testBit_zero]

namespace Decode

/-- The field takes seven bits from `b1` and eight from `b2`, and they do not overlap (R75, R76). -/
theorem field_toNat (b1 b2 : Byte) : (field b1 b2).toNat = b1.toNat / 2 + 128 * b2.toNat := by
  have hb1 := b1.isLt
  have hb2 := b2.isLt
  have hlow : b1.toNat / 2 < 2 ^ 7 := by omega
  calc (field b1 b2).toNat
    _ = b1.toNat / 2 % 128 % 32768 ||| b2.toNat % 32768 * 128 % 32768 := by
      simp [field, Nat.shiftRight_eq_div_pow, Nat.shiftLeft_eq]
    _ = 2 ^ 7 * b2.toNat ||| b1.toNat / 2 := by
      rw [Nat.or_comm]
      congr 1 <;> omega
    _ = b1.toNat / 2 + 128 * b2.toNat := by
      rw [← Nat.two_pow_add_eq_or_of_lt hlow, Nat.add_comm]

theorem checkLitLength_eq (L : BitVec 15) : checkLitLength L =
    if 1 ≤ L.toNat ∧ L.toNat ≤ 16383 then none else some .invalidLiteralLength := by
  have hlegal : (L = 0 ∨ Config.LIT_MAX < L.toNat) ↔ ¬(1 ≤ L.toNat ∧ L.toNat ≤ 16383) := by
    have hzero : L = 0 ↔ L.toNat = 0 := BitVec.toNat_eq
    rw [hzero, Config.LIT_MAX]
    omega
  simp only [checkLitLength, hlegal, ite_not]

theorem checkDistance_eq (D : BitVec 15) : checkDistance D =
    if 1 ≤ D.toNat ∧ D.toNat ≤ 8192 then none else some .invalidMatchDistance := by
  have hlegal : (D = 0 ∨ Config.C < D.toNat) ↔ ¬(1 ≤ D.toNat ∧ D.toNat ≤ 8192) := by
    have hzero : D = 0 ↔ D.toNat = 0 := BitVec.toNat_eq
    rw [hzero, Config.C]
    omega
  simp only [checkDistance, hlegal, ite_not]

/-- No byte is above `MAX_MATCH`. -/
theorem checkMatchLength_eq (Lm : Byte) : checkMatchLength Lm =
    if 3 ≤ Lm.toNat then none else some .invalidMatchLength := by
  have hlegal : (Lm.toNat < Config.MIN_MATCH ∨ Config.MAX_MATCH < Lm.toNat) ↔ ¬3 ≤ Lm.toNat := by
    have hLm := Lm.isLt
    rw [Config.MIN_MATCH, Config.MAX_MATCH]
    omega
  simp only [checkMatchLength, hlegal, ite_not]

end Decode

namespace Encode

/-- EncodeLit as arithmetic (R131). -/
theorem lit_eq {L : Nat} (h : L ≤ 16383) :
    lit (BitVec.ofNat 14 L) = [BitVec.ofNat 8 (2 * (L % 128) + 1), BitVec.ofNat 8 (L / 128)] := by
  have hbit : L % 128 * 2 % 256 ||| 1 = 2 * (L % 128) + 1 := by
    rw [Nat.mod_eq_of_lt (by omega), Nat.mul_comm]
    exact (Nat.two_pow_add_eq_or_of_lt (i := 1) (by decide) (L % 128)).symm
  simp only [lit, BitVec.truncate_eq_setWidth, List.cons.injEq, BitVec.toNat_eq, BitVec.toNat_or,
    BitVec.toNat_shiftLeft, BitVec.toNat_setWidth, BitVec.extractLsb'_toNat, BitVec.toNat_ofNat, Nat.reducePow,
    Nat.shiftRight_eq_div_pow, pow_zero, Nat.div_one, Nat.reduceDvd, Nat.mod_mod_of_dvd, Nat.shiftLeft_eq, pow_one,
    Nat.mod_mul_mod, Nat.one_mod, hbit, and_true]
  omega

/-- EncodeMatch as arithmetic (R132). -/
theorem matchTok_eq {d : Nat} (h : d ≤ 8192) (l t : Byte) :
    matchTok (BitVec.ofNat 14 d) l t = [BitVec.ofNat 8 (2 * (d % 128)), BitVec.ofNat 8 (d / 128), l, t] := by
  simp only [matchTok, BitVec.truncate_eq_setWidth, List.cons.injEq, BitVec.toNat_eq, BitVec.toNat_shiftLeft,
    BitVec.toNat_setWidth, BitVec.extractLsb'_toNat, BitVec.toNat_ofNat, Nat.reducePow, Nat.shiftRight_eq_div_pow,
    pow_zero, Nat.div_one, Nat.reduceDvd, Nat.mod_mod_of_dvd, Nat.shiftLeft_eq, pow_one, Nat.mod_mul_mod, and_true]
  omega

/-- The header of a literal token: bit 0 set, and the length in the field (R73, R75). -/
theorem lit_eq_iff {L : Nat} (h : L ≤ 16383) {b1 b2 : Byte} :
    lit (BitVec.ofNat 14 L) = [b1, b2] ↔ b1.getLsbD 0 = true ∧ (Decode.field b1 b2).toNat = L := by
  have hb1 := b1.isLt
  have hb2 := b2.isLt
  simp only [lit_eq h, Decode.field_toNat, getLsbD_zero_eq_true_iff, List.cons.injEq, BitVec.toNat_eq,
    BitVec.toNat_ofNat, and_true]
  omega

/-- A match token: bit 0 clear, the distance in the field, then the length and the trailing literal (R74, R76). -/
theorem matchTok_eq_iff {d : Nat} (h : d ≤ 8192) {l t b1 b2 b3 b4 : Byte} :
    matchTok (BitVec.ofNat 14 d) l t = [b1, b2, b3, b4] ↔
      b1.getLsbD 0 = false ∧ (Decode.field b1 b2).toNat = d ∧ l = b3 ∧ t = b4 := by
  have hb1 := b1.isLt
  have hb2 := b2.isLt
  simp only [matchTok_eq h, Decode.field_toNat, getLsbD_zero_eq_false_iff, List.cons.injEq, BitVec.toNat_eq,
    BitVec.toNat_ofNat, and_true]
  omega

end Encode

/-! ### The decoder, case by case -/

namespace Decode

variable {b1 b2 b3 : Byte} {rest : List Byte}

theorem token_of_lit (h : b1.getLsbD 0 = true) : token (b1 :: rest) = some (litToken b1 rest) := by
  simp only [token, h, if_true]

theorem token_of_match (h : b1.getLsbD 0 = false) : token (b1 :: rest) = some (matchToken b1 rest) := by
  simp only [token, h, Bool.false_eq_true, if_false]

/-- A literal length out of range, whatever follows (R134). -/
theorem litToken_of_illegal (h : ¬(1 ≤ (field b1 b2).toNat ∧ (field b1 b2).toNat ≤ 16383)) :
    litToken b1 (b2 :: rest) = .error .invalidLiteralLength := by
  simp only [litToken, checkLitLength_eq, if_neg h]

/-- A literal token with a legal length ends with its payload, or is truncated (R150). -/
theorem litToken_of_legal (h : 1 ≤ (field b1 b2).toNat ∧ (field b1 b2).toNat ≤ 16383) :
    litToken b1 (b2 :: rest) =
      if rest.length < (field b1 b2).toNat then .error .truncatedToken
      else .ok (.lit (rest.take (field b1 b2).toNat), rest.drop (field b1 b2).toNat) := by
  simp only [litToken, checkLitLength_eq, if_pos h]

/-- A distance out of range, whatever follows (R135, R137). -/
theorem matchToken_of_illegal_distance (h : ¬(1 ≤ (field b1 b2).toNat ∧ (field b1 b2).toNat ≤ 8192)) :
    matchToken b1 (b2 :: rest) = .error .invalidMatchDistance := by
  simp only [matchToken, checkDistance_eq, if_neg h]

section

variable (hD : 1 ≤ (field b1 b2).toNat ∧ (field b1 b2).toNat ≤ 8192)

include hD

theorem matchToken_of_no_length : matchToken b1 [b2] = .error .truncatedToken := by
  simp only [matchToken, checkDistance_eq, if_pos hD]

/-- A match length out of range, whatever follows (R136, R137). -/
theorem matchToken_of_illegal_length (h : ¬3 ≤ b3.toNat) :
    matchToken b1 (b2 :: b3 :: rest) = .error .invalidMatchLength := by
  simp only [matchToken, checkDistance_eq, checkMatchLength_eq, if_pos hD, if_neg h]

theorem matchToken_of_no_trail (h : 3 ≤ b3.toNat) : matchToken b1 [b2, b3] = .error .truncatedToken := by
  simp only [matchToken, checkDistance_eq, checkMatchLength_eq, if_pos hD, if_pos h]

theorem matchToken_of_legal (h : 3 ≤ b3.toNat) (b4 : Byte) :
    matchToken b1 (b2 :: b3 :: b4 :: rest) = .ok (.matchTok (field b1 b2).toNat b3.toNat b4, rest) := by
  simp only [matchToken, checkDistance_eq, checkMatchLength_eq, if_pos hD, if_pos h]

end

end Decode

/-! ### The wire form of a token -/

/-- The bytes of a token with legal fields, and the token they stand for (R73 to R77). -/
inductive WireForm : Token → List Byte → Prop where
  | lit (b1 b2 : Byte) (payload : List Byte) (htype : b1.getLsbD 0 = true)
      (hlength : (Decode.field b1 b2).toNat = payload.length)
      (hlegal : 1 ≤ payload.length ∧ payload.length ≤ 16383) : WireForm (.lit payload) (b1 :: b2 :: payload)
  | matchTok (b1 b2 b3 b4 : Byte) (htype : b1.getLsbD 0 = false)
      (hdist : 1 ≤ (Decode.field b1 b2).toNat ∧ (Decode.field b1 b2).toNat ≤ 8192) (hlength : 3 ≤ b3.toNat) :
      WireForm (.matchTok (Decode.field b1 b2).toNat b3.toNat b4) [b1, b2, b3, b4]

variable {t : Token} {wire rest bytes : List Byte}

theorem WireForm.wellFormed (h : WireForm t wire) : t.WellFormed := by
  cases h with
  | lit b1 b2 payload htype hlength hlegal => exact hlegal
  | matchTok b1 b2 b3 b4 htype hdist hlength => exact ⟨hdist.1, hdist.2, hlength, Nat.le_of_lt_succ b3.isLt⟩

theorem WireForm.eq_encode (h : WireForm t wire) : wire = Encode.token t := by
  cases h with
  | lit b1 b2 payload htype hlength hlegal =>
    rw [Encode.token, (Encode.lit_eq_iff hlegal.2).mpr ⟨htype, hlength⟩]
    rfl
  | matchTok b1 b2 b3 b4 htype hdist hlength =>
    exact ((Encode.matchTok_eq_iff hdist.2).mpr ⟨htype, rfl, by simp, rfl⟩).symm

/-- Every well-formed token has a wire form, its encoding. -/
theorem wireForm_encode (h : t.WellFormed) : WireForm t (Encode.token t) := by
  cases t with
  | lit payload =>
    obtain ⟨hlo, hhi⟩ := h
    obtain ⟨b1, b2, hbytes⟩ : ∃ b1 b2, Encode.lit (BitVec.ofNat 14 payload.length) = [b1, b2] := ⟨_, _, rfl⟩
    obtain ⟨htype, hfield⟩ := (Encode.lit_eq_iff hhi).mp hbytes
    rw [Encode.token, hbytes]
    exact .lit _ _ _ htype hfield ⟨hlo, hhi⟩
  | matchTok d l b =>
    obtain ⟨hdlo, hdhi, hllo, hlhi⟩ := h
    obtain ⟨b1, b2, hbytes⟩ : ∃ b1 b2, Encode.matchTok (BitVec.ofNat 14 d) (BitVec.ofNat 8 l) b =
        [b1, b2, BitVec.ofNat 8 l, b] := ⟨_, _, rfl⟩
    obtain ⟨htype, hfield, -⟩ := (Encode.matchTok_eq_iff hdhi).mp hbytes
    have hl : (BitVec.ofNat 8 l).toNat = l := Nat.mod_eq_of_lt (Nat.lt_succ_of_le hlhi)
    rw [Encode.token, hbytes]
    have hform := WireForm.matchTok b1 b2 (BitVec.ofNat 8 l) b htype (hfield.symm ▸ ⟨hdlo, hdhi⟩) (hl.symm ▸ hllo)
    rwa [hfield, hl] at hform

theorem WireForm.length_eq (h : WireForm t wire) : wire.length = t.size := by
  cases h with
  | lit => exact Nat.add_comm _ 2
  | matchTok => rfl

theorem WireForm.decode (h : WireForm t wire) (rest : List Byte) :
    Decode.token (wire ++ rest) = some (.ok (t, rest)) := by
  cases h with
  | lit b1 b2 payload htype hlength hlegal =>
    rw [← hlength] at hlegal
    simp [Decode.token_of_lit htype, Decode.litToken_of_legal hlegal, hlength]
  | matchTok b1 b2 b3 b4 htype hdist hlength =>
    simp [Decode.token_of_match htype, Decode.matchToken_of_legal hdist hlength]

/-- Nothing but a wire form is read as a LIT. -/
theorem wireForm_of_litToken {b1 : Byte} (htype : b1.getLsbD 0 = true)
    (h : Decode.litToken b1 bytes = .ok (t, rest)) : ∃ wire, WireForm t wire ∧ b1 :: bytes = wire ++ rest := by
  cases bytes with
  | nil => cases h
  | cons b2 bytes =>
    by_cases hlegal : 1 ≤ (Decode.field b1 b2).toNat ∧ (Decode.field b1 b2).toNat ≤ 16383
    · rw [Decode.litToken_of_legal hlegal] at h
      split at h
      · cases h
      · next hlong =>
        cases h
        have hlength : (Decode.field b1 b2).toNat = (bytes.take (Decode.field b1 b2).toNat).length := by
          rw [List.length_take]
          omega
        exact ⟨_, .lit b1 b2 _ htype hlength (hlength ▸ hlegal), by simp⟩
    · rw [Decode.litToken_of_illegal hlegal] at h
      cases h

/-- Nothing but a wire form is read as a MATCH. -/
theorem wireForm_of_matchToken {b1 : Byte} (htype : b1.getLsbD 0 = false)
    (h : Decode.matchToken b1 bytes = .ok (t, rest)) : ∃ wire, WireForm t wire ∧ b1 :: bytes = wire ++ rest := by
  cases bytes with
  | nil => cases h
  | cons b2 bytes =>
    by_cases hdist : 1 ≤ (Decode.field b1 b2).toNat ∧ (Decode.field b1 b2).toNat ≤ 8192
    · match bytes with
      | [] => simp [Decode.matchToken_of_no_length hdist] at h
      | b3 :: bytes =>
        by_cases hlength : 3 ≤ b3.toNat
        · match bytes with
          | [] => simp [Decode.matchToken_of_no_trail hdist hlength] at h
          | b4 :: bytes =>
            rw [Decode.matchToken_of_legal hdist hlength] at h
            cases h
            exact ⟨_, .matchTok b1 b2 b3 b4 htype hdist hlength, rfl⟩
        · simp [Decode.matchToken_of_illegal_length hdist hlength] at h
    · simp [Decode.matchToken_of_illegal_distance hdist] at h

theorem wireForm_of_decode (h : Decode.token bytes = some (.ok (t, rest))) :
    ∃ wire, WireForm t wire ∧ bytes = wire ++ rest := by
  cases bytes with
  | nil => cases h
  | cons b1 bytes =>
    cases htype : b1.getLsbD 0 with
    | true =>
      rw [Decode.token_of_lit htype] at h
      exact wireForm_of_litToken htype (Option.some.inj h)
    | false =>
      rw [Decode.token_of_match htype] at h
      exact wireForm_of_matchToken htype (Option.some.inj h)

/-- A leading part of a wire form is a truncated token (R80). -/
theorem WireForm.decode_take (h : WireForm t wire) {n : Nat} (hpos : 0 < n) (hlt : n < wire.length) :
    Decode.token (wire.take n) = some (.error .truncatedToken) := by
  cases h with
  | lit b1 b2 payload htype hlength hlegal =>
    rw [← hlength] at hlegal
    match n with
    | 1 => exact Decode.token_of_lit htype
    | n + 2 =>
      have hshort : (payload.take n).length < (Decode.field b1 b2).toNat := by
        simp only [List.length_cons, List.length_take] at hlt ⊢
        omega
      rw [List.take_succ_cons, List.take_succ_cons, Decode.token_of_lit htype, Decode.litToken_of_legal hlegal,
        if_pos hshort]
  | matchTok b1 b2 b3 b4 htype hdist hlength =>
    match n with
    | 1 => exact Decode.token_of_match htype
    | 2 => exact (Decode.token_of_match htype).trans (congrArg some (Decode.matchToken_of_no_length hdist))
    | 3 => exact (Decode.token_of_match htype).trans (congrArg some (Decode.matchToken_of_no_trail hdist hlength))
    | n + 4 => exact absurd hlt (by simp)

/-! ### The codec -/

/-- Settles O8: a well-formed token is encoded in its wire form, which decodes to it whatever follows. -/
theorem tokenDecodeOfEncode : Obligations.TokenDecodeOfEncode :=
  fun _ rest h => (wireForm_encode h).decode rest

/-- Settles O9: what is decoded is a wire form. -/
theorem tokenEncodeOfDecode : Obligations.TokenEncodeOfDecode := by
  intro bytes rest t h
  obtain ⟨wire, hwire, rfl⟩ := wireForm_of_decode h
  obtain rfl := hwire.eq_encode
  exact ⟨hwire.wellFormed, rfl, hwire.length_eq⟩

theorem decode_eq_none_iff : Decode.token bytes = none ↔ bytes = [] := by
  cases bytes <;> simp [Decode.token]

/-- Settles O10: a field out of range is named where it is read, and a wire form cut short is a truncated token. -/
theorem illegalEncodingsAreNamed : Obligations.IllegalEncodingsAreNamed := by
  refine ⟨fun b1 b2 rest htype hillegal => ?_, fun b1 b2 rest htype hillegal => ?_,
    fun b1 b2 b3 rest htype hlo hhi hlength => ?_, fun t n hwf hpos hlt => ?_, fun bytes => decode_eq_none_iff,
    fun t rest hwf => ⟨t, rest, tokenDecodeOfEncode t rest hwf⟩⟩
  · have hfield : ¬(1 ≤ (Decode.field b1 b2).toNat ∧ (Decode.field b1 b2).toNat ≤ 16383) := by
      rw [Decode.field_toNat]
      rcases hillegal with ⟨rfl, rfl⟩ | hreserved
      · decide
      · omega
    rw [Decode.token_of_lit htype, Decode.litToken_of_illegal hfield]
  · have hfield : ¬(1 ≤ (Decode.field b1 b2).toNat ∧ (Decode.field b1 b2).toNat ≤ 8192) := by
      rw [Decode.field_toNat]
      rcases hillegal with ⟨rfl, rfl⟩ | hfar
      · decide
      · omega
    rw [Decode.token_of_match htype, Decode.matchToken_of_illegal_distance hfield]
  · have hfield : 1 ≤ (Decode.field b1 b2).toNat ∧ (Decode.field b1 b2).toNat ≤ 8192 := by
      rw [Decode.field_toNat]
      exact ⟨hlo, hhi⟩
    rw [Decode.token_of_match htype, Decode.matchToken_of_illegal_length hfield (Nat.not_le.mpr hlength)]
  · have hwire := wireForm_encode hwf
    exact hwire.decode_take hpos (hwire.length_eq ▸ hlt)

end Sys2Proof

/-! A token that is carried out: what the pieces of LIT and MATCH take from the source and put out, with no failing
stream call (spec/43_decompressor.md R150 to R156), and the step of a running DECOMPRESS on a whole token. -/

namespace Sys2Proof.Machine

variable {α β : Type}

/-! ### The coming bytes -/

theorem ahead_congr {s t : State} (hsource : t.source = s.source) (hendless : t.endless = s.endless) (n : Nat) :
    ahead n t = ahead n s := by
  simp only [ahead, hsource, hendless]

/-- Fewer bytes asked for are the first of more. -/
theorem take_ahead {m n : Nat} (h : m ≤ n) (s : State) : (ahead n s).take m = ahead m s := by
  cases he : s.endless with
  | none => simp [ahead_of_ends he, List.take_take, Nat.min_eq_left h]
  | some e =>
    have hlength : (ahead m s).length = m := length_ahead_of_endless (by simp [he]) m
    obtain ⟨k, rfl⟩ := Nat.exists_eq_add_of_le h
    rw [ahead_add, List.take_left' hlength]

theorem ahead_of_append {s : State} {n : Nat} {xs ys : List Byte} (h : ahead n s = xs ++ ys) :
    ahead xs.length s = xs := by
  have hle : xs.length ≤ n := by
    have := length_ahead_le n s
    rw [h, List.length_append] at this
    omega
  rw [← take_ahead hle, h, List.take_left]

theorem ahead_one_of_ahead_cons {s : State} {n : Nat} {x : Byte} {xs : List Byte} (h : ahead (1 + n) s = x :: xs) :
    ahead 1 s = [x] ∧ ahead n (advance 1 s) = xs := by
  have hone : ahead 1 s = [x] := by rw [← take_ahead (Nat.le_add_right 1 n), h]; rfl
  rw [ahead_add, hone] at h
  exact ⟨hone, (List.cons.inj h).2⟩

/-! ### The ring write -/

/-- A DECOMPRESS whose counters are consistent, with no failing stream call to come. -/
structure Ready (s : State) : Prop where
  quiet : s.Quiet
  counters : DecoderOk s
  ring : Mem.WF s.ring

/-- The cursor stands behind the unflushed bytes of the half that is flushed next (R156). -/
theorem DecoderOk.wcur_eq {s : State} (h : DecoderOk s) :
    s.wcur = s.nextHalf.toNat * Config.H + (s.produced - s.flushed) := by
  simp only [DecoderOk, Config.C, Config.H] at h ⊢
  omega

theorem ringByte_storeByte {s : State} (hwf : Mem.WF s.ring) (x : Byte) (i : Nat) :
    ringByte (storeByte x s) i = if i % Config.C = s.wcur % Config.C then x else ringByte s i :=
  Mem.read_write hwf _ x _

theorem unflushed_storeByte {s : State} (h : DecoderOk s) (hwf : Mem.WF s.ring) (x : Byte) :
    (storeByte x s).unflushed = s.unflushed ++ [x] := by
  have hcursor := h.wcur_eq
  have hhalf := s.nextHalf.isLt
  obtain ⟨-, hle, hlt, -, -⟩ := h
  have hlength : s.produced + 1 - s.flushed = s.produced - s.flushed + 1 := by omega
  have hbefore : ∀ j ∈ List.range (s.produced - s.flushed),
      ringByte (storeByte x s) (s.nextHalf.toNat * Config.H + j) = ringByte s (s.nextHalf.toNat * Config.H + j) := by
    intro j hj
    rw [List.mem_range] at hj
    rw [ringByte_storeByte hwf, if_neg]
    simp only [Config.C, Config.H] at hcursor hlt ⊢
    omega
  have hlast : ringByte (storeByte x s) (s.nextHalf.toNat * Config.H + (s.produced - s.flushed)) = x := by
    rw [ringByte_storeByte hwf, ← hcursor, if_pos rfl]
  simp only [State.unflushed, halfBytes, storeByte_produced, storeByte_flushed, storeByte_nextHalf, hlength,
    List.range_succ, List.map_append, List.map_singleton, hlast, List.map_congr_left hbefore]

/-- The byte that completes a half leaves exactly that half to be flushed. -/
theorem produced_sub_flushed_of_half {s : State} (h : DecoderOk s)
    (hend : (s.wcur + 1) % Config.C = Config.H ∨ (s.wcur + 1) % Config.C = 0) :
    s.produced + 1 - s.flushed = Config.H := by
  simp only [DecoderOk, Config.C, Config.H] at h hend ⊢
  omega

/-- With no failing call RingPut stores the byte, and flushes the half the byte completes (R154, R156). -/
theorem ringPut_of_quiet {s : State} (h : s.Quiet) (x : Byte) :
    let cursor := (s.wcur + 1) % Config.C
    (¬(cursor = Config.H ∨ cursor = 0) ∧ ringPut x s = .ok () (storeByte x s)) ∨
    ((cursor = Config.H ∨ cursor = 0) ∧ ringPut x s = .ok () { storeByte x s with
      io := s.io.tail, sink := s.sink ++ [halfBytes (storeByte x s) Config.H]
      flushed := s.flushed + Config.H, nextHalf := 1 - s.nextHalf }) := by
  rcases maybeFlush_cases { storeByte x s with fsm := .maybeFlush } with
    ⟨hin, hm⟩ | ⟨hend, ⟨d, io, hio, -⟩ | hm⟩
  · exact .inl ⟨hin, by rw [ringPut_eq, hm]; rfl⟩
  · exact absurd hio (not_fail_of_quiet h)
  · exact .inr ⟨hend, by rw [ringPut_eq, hm]; rfl⟩

/-! ### Taking bytes and putting bytes out -/

/-- From `s` to `t` the source gave `taken` bytes, and the bytes `put` were put out; the command goes on. -/
structure Carries (taken : Nat) (put : List Byte) (s t : State) : Prop extends RingPuts put.length s t where
  ready : Ready t
  source : t.source = (advance taken s).source
  endless : t.endless = (advance taken s).endless
  inPos : t.inPos = s.inPos + taken
  output : t.output = s.output ++ put
  engine : t.engine = s.engine
  result : t.result = s.result

/-- Where the source, the engine and the result stay as they are, only the bytes put out are left to be shown. -/
theorem carries_of_untouched {p : List Byte} {s t : State} (hputs : RingPuts p.length s t) (hready : Ready t)
    (houtput : t.output = s.output ++ p)
    (hsource : t.source = s.source := by rfl) (hendless : t.endless = s.endless := by rfl)
    (hinPos : t.inPos = s.inPos := by rfl) (hengine : t.engine = s.engine := by rfl)
    (hresult : t.result = s.result := by rfl) : Carries 0 p s t where
  toRingPuts := hputs
  ready := hready
  source := by rw [advance_zero, hsource]
  endless := by rw [advance_zero, hendless]
  inPos := hinPos
  output := houtput
  engine := hengine
  result := hresult

theorem Carries.ahead_eq {j : Nat} {p : List Byte} {s t : State} (h : Carries j p s t) (n : Nat) :
    ahead n t = ahead n (advance j s) :=
  ahead_congr h.source h.endless n

/-- What takes nothing leaves the coming bytes. -/
theorem Carries.ahead_eq_of_none {p : List Byte} {s t : State} (h : Carries 0 p s t) (n : Nat) :
    ahead n t = ahead n s := by
  rw [h.ahead_eq, advance_zero]

theorem Carries.trans {j k : Nat} {p q : List Byte} {s t u : State} (hst : Carries j p s t) (htu : Carries k q t u) :
    Carries (j + k) (p ++ q) s u where
  toRingPuts := by
    rw [List.length_append]
    exact hst.toRingPuts.trans htu.toRingPuts
  ready := htu.ready
  source := by
    rw [htu.source, advance_add, (advance_congr hst.source hst.endless k).1]
  endless := by
    rw [htu.endless, advance_add, (advance_congr hst.source hst.endless k).2]
  inPos := by rw [htu.inPos, hst.inPos, Nat.add_assoc]
  output := by rw [htu.output, hst.output, List.append_assoc]
  engine := htu.engine.trans hst.engine
  result := htu.result.trans hst.result

/-- `m` runs from `s` to its end with the answer `a`, takes `taken` bytes and puts out the bytes `put`. -/
def CarriesOut (m : M α) (a : α) (taken : Nat) (put : List Byte) (s : State) : Prop :=
  ∃ t, m s = .ok a t ∧ Carries taken put s t

theorem CarriesOut.bind {m : M α} {f : α → M β} {a : α} {b : β} {j k : Nat} {p q : List Byte} {s : State}
    (hm : CarriesOut m a j p s) (hf : ∀ t, Carries j p s t → CarriesOut (f a) b k q t) :
    CarriesOut (m >>= f) b (j + k) (p ++ q) s := by
  obtain ⟨t, hmt, hst⟩ := hm
  obtain ⟨u, hfu, htu⟩ := hf t hst
  exact ⟨u, (M.bind_of_ok hmt).trans hfu, hst.trans htu⟩

/-- `CarriesOut.bind` after a piece that takes nothing and puts nothing out. -/
theorem CarriesOut.bind_still {m : M α} {f : α → M β} {a : α} {b : β} {k : Nat} {q : List Byte} {s : State}
    (hm : CarriesOut m a 0 [] s) (hf : ∀ t, Carries 0 [] s t → CarriesOut (f a) b k q t) :
    CarriesOut (m >>= f) b k q s := by
  simpa using hm.bind hf

/-- `s` with the decoder state and the field registers of `u`. -/
def withFields (u s : State) : State :=
  { s with fsm := u.fsm, b1 := u.b1, b2 := u.b2, L := u.L, D := u.D, Lm := u.Lm }

theorem carries_withFields {s : State} (hs : Ready s) (u : State) : Carries 0 [] s (withFields u s) :=
  carries_of_untouched (.of_eq rfl rfl rfl) ⟨hs.quiet, hs.counters, hs.ring⟩ (List.append_nil _).symm

theorem carriesOut_upd {s : State} (hs : Ready s) {f : State → State}
    (hf : f s = withFields (f s) s := by rfl) : CarriesOut (M.upd f) () 0 [] s :=
  ⟨f s, rfl, by rw [hf]; exact carries_withFields hs (f s)⟩

theorem carriesOut_pure {s : State} (hs : Ready s) (a : α) : CarriesOut (pure a) a 0 [] s :=
  ⟨s, rfl, carries_withFields hs s⟩

theorem carriesOut_srcByte {s : State} (hs : Ready s) {x : Byte} (hx : ahead 1 s = [x]) :
    CarriesOut srcByte (some x) 1 [] s := by
  rcases srcByte_cases s with ⟨d, io, hio, -⟩ | ⟨hnil, -⟩ | ⟨y, hy, h⟩
  · exact absurd hio (not_fail_of_quiet hs.quiet)
  · simp [hx] at hnil
  · obtain rfl : x = y := by simpa [hx] using hy
    exact ⟨_, h, {
      toRingPuts := .of_eq rfl rfl rfl
      ready := ⟨quiet_tail hs.quiet, hs.counters, hs.ring⟩
      source := rfl
      endless := rfl
      inPos := rfl
      output := (List.append_nil _).symm
      engine := rfl
      result := rfl }⟩

theorem carriesOut_tokenByte {s : State} (hs : Ready s) {x : Byte} (hx : ahead 1 s = [x]) :
    CarriesOut tokenByte x 1 [] s :=
  CarriesOut.bind (k := 0) (q := []) (carriesOut_srcByte hs hx) fun _ ht => carriesOut_pure ht.ready x

/-- RingPut puts its byte out: it waits in the ring, or the half it completes goes to the sink. The ring is then that of
`storeByte`. -/
theorem exists_ringPut {s : State} (hs : Ready s) (x : Byte) :
    ∃ t, ringPut x s = .ok () t ∧ Carries 0 [x] s t ∧ RingPuts 0 (storeByte x s) t := by
  have hunflushed := unflushed_storeByte hs.counters hs.ring x
  have hputs := ringPuts_storeByte s x
  rcases ringPut_of_quiet hs.quiet x with ⟨hin, h⟩ | ⟨hend, h⟩
  · refine ⟨_, h, carries_of_untouched hputs ⟨hs.quiet, decoderOk_store hs.counters hin, hputs.wf hs.ring⟩ ?_,
      .of_eq rfl rfl rfl⟩
    simp only [State.output, storeByte_sink, hunflushed, List.append_assoc]
  · have hhalf := produced_sub_flushed_of_half hs.counters hend
    have hflushed : halfBytes (storeByte x s) Config.H = s.unflushed ++ [x] := by
      rw [← hunflushed, ← hhalf]
      rfl
    have hnone : s.produced + 1 - (s.flushed + Config.H) = 0 := by omega
    refine ⟨_, h, carries_of_untouched (hputs.trans (n := 0) (.of_eq rfl rfl rfl))
      ⟨quiet_tail hs.quiet, decoderOk_flush hs.counters hend, hputs.wf hs.ring⟩ ?_, .of_eq rfl rfl rfl⟩
    simp only [State.output, State.unflushed, hflushed, storeByte_produced, hnone]
    simp [halfBytes]

theorem carriesOut_ringPut {s : State} (hs : Ready s) (x : Byte) : CarriesOut (ringPut x) () 0 [x] s := by
  obtain ⟨t, h, hst, -⟩ := exists_ringPut hs x
  exact ⟨t, h, hst⟩

/-! ### LIT -/

theorem carriesOut_check {s : State} (hs : Ready s) {c : Option Corrupt} (hc : c = none) :
    CarriesOut (check c) () 0 [] s := by
  rw [hc]
  exact carriesOut_pure hs ()

/-- A field of a token: its byte is read, its registers are written, and its check passes (R137). -/
theorem carriesOut_field {s : State} (hs : Ready s) {x : Byte} (hx : ahead 1 s = [x]) {f : Byte → State → State}
    {c : Byte → Option Corrupt} (hc : c x = none) {m : Byte → M Unit} {k : Nat} {q : List Byte}
    (hm : ∀ t, Carries 1 [] s t → CarriesOut (m x) () k q t)
    (hf : ∀ t, f x t = withFields (f x t) t := by exact fun _ => rfl) :
    CarriesOut (do
      let x ← tokenByte
      M.upd (f x)
      check (c x)
      m x) () (1 + k) q s :=
  (carriesOut_tokenByte hs hx).bind fun t hst =>
  (carriesOut_upd hst.ready (hf t)).bind_still fun _ htu =>
  (carriesOut_check htu.ready hc).bind_still fun v huv =>
  hm v (hst.trans (htu.trans huv))

theorem carriesOut_litPayload (payload : List Byte) {s : State} (hs : Ready s)
    (hin : ahead payload.length s = payload) :
    CarriesOut (litPayload payload.length) () payload.length payload s := by
  induction payload generalizing s with
  | nil => exact carriesOut_pure hs ()
  | cons x payload ih =>
    rw [List.length_cons, Nat.add_comm] at hin
    obtain ⟨hx, hrest⟩ := ahead_one_of_ahead_cons hin
    have hrun : CarriesOut (litPayload (payload.length + 1)) () (1 + (0 + payload.length)) (x :: payload) s :=
      CarriesOut.bind (q := x :: payload) (carriesOut_tokenByte hs hx) fun t hst =>
      CarriesOut.bind (carriesOut_ringPut hst.ready x) fun u htu =>
      ih htu.ready (by rw [htu.ahead_eq_of_none, hst.ahead_eq, hrest])
    simpa [Nat.add_comm] using hrun

theorem carriesOut_litCommand {s : State} (hs : Ready s) {b1 b2 : Byte} {payload : List Byte}
    (hin : ahead (1 + payload.length) s = b2 :: payload) (hlength : (Decode.field b1 b2).toNat = payload.length)
    (hlegal : 1 ≤ payload.length ∧ payload.length ≤ 16383) :
    CarriesOut (litCommand b1) () (1 + payload.length) payload s := by
  have hcheck : Decode.checkLitLength (Decode.field b1 b2) = none :=
    (Decode.checkLitLength_eq _).trans (if_pos (hlength ▸ hlegal))
  have hrun : CarriesOut (litCommand b1) () (1 + (payload.length + 0)) (payload ++ []) s := by
    refine CarriesOut.bind_still (carriesOut_upd hs) fun t hst => ?_
    rw [← hst.ahead_eq_of_none] at hin
    obtain ⟨hx, hrest⟩ := ahead_one_of_ahead_cons hin
    refine carriesOut_field hst.ready hx hcheck fun u htu => ?_
    rw [hlength]
    exact (carriesOut_litPayload payload htu.ready (by rw [htu.ahead_eq, hrest])).bind fun v huv =>
      carriesOut_upd huv.ready
  simpa using hrun

/-! ### MATCH -/

/-- A copy reads the same bytes where neither the ring nor the cursor has moved. -/
theorem copied_of_ringPuts {s t : State} (h : RingPuts 0 s t) (hwf : Mem.WF s.ring) (D len : Nat) :
    copied t D len = copied s D len := by
  have hcursor : t.wcur % Config.C = s.wcur % Config.C := h.wcur
  simp only [copied, ringByte, hcursor, h.frame hwf _ nofun]

/-- After the first byte of a copy is put, the copy reads one address further; where it would pass the cursor it is
back at the byte just put, the first of the `D` bytes that repeat. -/
theorem ringByte_storeByte_copyByte {s : State} (hwf : Mem.WF s.ring) {D : Nat} (hD : 1 ≤ D ∧ D ≤ 8192) (i : Nat) :
    ringByte (storeByte (copyByte s D) s) ((s.wcur + 1) % Config.C % Config.C + Config.C - D + i % D) =
      ringByte s (s.wcur % Config.C + Config.C - D + (i + 1) % D) := by
  have hlt : i % D < D := Nat.mod_lt i hD.1
  rw [ringByte_storeByte hwf, Config.C]
  by_cases hwrap : i % D + 1 = D
  · have hmod : (i + 1) % D = 0 := by rw [← Nat.mod_add_mod, hwrap, Nat.mod_self]
    rw [hmod, if_pos (by omega)]
    rfl
  · have hmod : (i + 1) % D = i % D + 1 := by
      rw [← Nat.mod_add_mod, Nat.mod_eq_of_lt (by omega)]
    rw [hmod, if_neg (by omega), ringByte, ringByte, Config.C]
    congr 1
    omega

/-- A copy is its first byte, and then the copy after that byte has been put (R152). -/
theorem copied_succ {s : State} (hwf : Mem.WF s.ring) {D : Nat} (hD : 1 ≤ D ∧ D ≤ 8192) (len : Nat) :
    copied s D (len + 1) = copyByte s D :: copied (storeByte (copyByte s D) s) D len := by
  simp only [copied, List.range_succ_eq_map, List.map_cons, List.map_map, Function.comp_def, storeByte_wcur,
    ringByte_storeByte_copyByte hwf hD, Nat.zero_mod, Nat.add_zero, Nat.succ_eq_add_one]
  rfl

theorem carriesOut_copyLoop {D : Nat} (hD : 1 ≤ D ∧ D ≤ 8192) (len : Nat) {s : State} (hs : Ready s) :
    CarriesOut (copyLoop D len) () 0 (copied s D len) s := by
  induction len generalizing s with
  | zero => exact carriesOut_pure hs ()
  | succ len ih =>
    obtain ⟨t, hput, hst, hstored⟩ := exists_ringPut hs (copyByte s D)
    obtain ⟨u, hcopy, htu⟩ := ih hst.ready
    rw [copied_of_ringPuts hstored (Mem.wf_write hs.ring _ _)] at htu
    refine ⟨u, ?_, ?_⟩
    · rw [copyLoop, M.bind_of_ok (M.reads_apply _ _), M.bind_of_ok hput, hcopy]
    · rw [copied_succ hs.ring hD]
      exact hst.trans htu

theorem carriesOut_matchCommand {s : State} (hs : Ready s) {b1 b2 b3 b4 : Byte} (hin : ahead 3 s = [b2, b3, b4])
    (hdist : 1 ≤ (Decode.field b1 b2).toNat ∧ (Decode.field b1 b2).toNat ≤ 8192) (hlength : 3 ≤ b3.toNat) :
    CarriesOut (matchCommand b1) () 3 (copied s (Decode.field b1 b2).toNat b3.toNat ++ [b4]) s := by
  refine CarriesOut.bind_still (carriesOut_upd hs) fun t hst => ?_
  rw [← hst.ahead_eq_of_none] at hin
  obtain ⟨hb2, hin⟩ := ahead_one_of_ahead_cons (n := 2) hin
  refine carriesOut_field (k := 2) hst.ready hb2 ((Decode.checkDistance_eq _).trans (if_pos hdist)) fun u htu => ?_
  rw [← htu.ahead_eq] at hin
  obtain ⟨hb3, hin⟩ := ahead_one_of_ahead_cons (n := 1) hin
  refine carriesOut_field (k := 1) htu.ready hb3 ((Decode.checkMatchLength_eq _).trans (if_pos hlength)) fun v huv => ?_
  rw [← huv.ahead_eq] at hin
  have hcopied := copied_of_ringPuts (hst.trans (htu.trans huv)).toRingPuts hs.ring
  rw [← hcopied]
  refine CarriesOut.bind (k := 1) (carriesOut_copyLoop hdist b3.toNat huv.ready) fun w hvw => ?_
  refine CarriesOut.bind (k := 0) (carriesOut_tokenByte hvw.ready (by rw [hvw.ahead_eq_of_none, hin])) fun x hwx => ?_
  refine CarriesOut.bind (k := 0) (q := []) (carriesOut_ringPut hwx.ready b4) fun y hxy => ?_
  exact carriesOut_upd hxy.ready

/-! ### The step -/

/-- The bytes a token puts out from `s`: its payload, or the copy and the trailing literal (R150, R151). -/
def tokenOutput (s : State) : Token → List Byte
  | .lit payload => payload
  | .matchTok D len b => copied s D len ++ [b]

/-- The header byte of a token is read, and the instruction it selects runs (R149). -/
theorem carriesOut_header {s : State} (hs : Ready s) {b1 : Byte} (hb1 : ahead 1 s = [b1]) {k : Nat} {q : List Byte}
    (hm : ∀ t, Carries 1 [] s t → CarriesOut (if b1.getLsbD 0 then litCommand b1 else matchCommand b1) () k q t) :
    CarriesOut tokenStep () (1 + k) q s :=
  CarriesOut.bind (q := q) (carriesOut_srcByte hs hb1) fun _ hst =>
  CarriesOut.bind_still (carriesOut_upd hst.ready) fun u htu => hm u (hst.trans htu)

/-- A running DECOMPRESS carries out the token whose wire form comes next. -/
theorem carriesOut_tokenStep {s : State} (hs : Ready s) {tok : Token} {wire : List Byte} (hwire : WireForm tok wire)
    (hin : ahead wire.length s = wire) : CarriesOut tokenStep () tok.size (tokenOutput s tok) s := by
  rw [← hwire.length_eq]
  cases hwire with
  | lit b1 b2 payload htype hlength hlegal =>
    rw [List.length_cons, List.length_cons, Nat.add_comm, Nat.add_comm payload.length] at hin ⊢
    obtain ⟨hb1, hin⟩ := ahead_one_of_ahead_cons hin
    refine carriesOut_header hs hb1 fun t hst => ?_
    rw [if_pos htype]
    rw [← hst.ahead_eq] at hin
    exact carriesOut_litCommand hst.ready hin hlength hlegal
  | matchTok b1 b2 b3 b4 htype hdist hlength =>
    obtain ⟨hb1, hin⟩ := ahead_one_of_ahead_cons (n := 3) hin
    refine carriesOut_header (k := 3) hs hb1 fun t hst => ?_
    rw [if_neg (by simp only [htype, Bool.false_eq_true, not_false_eq_true])]
    rw [← hst.ahead_eq] at hin
    rw [tokenOutput, ← copied_of_ringPuts hst.toRingPuts hs.ring]
    exact carriesOut_matchCommand hst.ready hin hdist hlength

/-- Settles O45: what is decoded as a token is a wire form, which the step carries out; the next token boundary is
what O57 says of every step. -/
theorem stepCarriesOutTheToken : Obligations.StepCarriesOutTheToken := by
  intro s n tok rest he hf hquiet hcounters hwf hdecode
  obtain ⟨wire, hwire, hahead⟩ := wireForm_of_decode hdecode
  obtain ⟨t, hrun, h⟩ := carriesOut_tokenStep ⟨hquiet, hcounters, hwf⟩ hwire (ahead_of_append hahead)
  have hstep : step s = .next t := by rw [step_of_decompress he hf, settle_of_ok hrun]
  have hengine : t.engine = .decompress := h.engine.trans he
  have hinv := decoderCountersStayConsistent s t (decoderInv_of_boundary ⟨hf, hcounters⟩) hstep
  obtain ⟨hboundary, -⟩ := (decoderInv_iff.mp hinv).2 hengine
  refine ⟨t, hstep, h.source, h.endless, h.inPos, hengine, hboundary, h.result, h.ready.counters, ?_⟩
  cases tok with
  | lit payload => exact h.output
  | matchTok D len b => exact h.output

end Sys2Proof.Machine

/-! The hash-chain index (spec/40_hash_chain_index.md): HASH as arithmetic, and what INSERT and CANDIDATES do to the
slots and the counters. -/

namespace Sys2Proof.Machine

/-! ### HASH (R91) -/

/-- The two parts of an append do not overlap, so it is a sum. -/
theorem toNat_append_eq_add {m n : Nat} (x : BitVec m) (y : BitVec n) :
    (x ++ y).toNat = 2 ^ n * x.toNat + y.toNat := by
  rw [BitVec.toNat_append, ← Nat.shiftLeft_add_eq_or_of_lt y.isLt, Nat.shiftLeft_eq, Nat.mul_comm]

/-- Three bytes in the order HASH takes them, the first one lowest. -/
theorem toNat_append_bytes (b0 b1 b2 : Byte) :
    (b2 ++ b1 ++ b0).toNat = b0.toNat + 256 * b1.toNat + 65536 * b2.toNat := by
  rw [toNat_append_eq_add, toNat_append_eq_add]
  omega

/-- Settles O11: the 24-bit value is the sum of the bytes, and the top 13 bits of a word below `2 ^ 32` are its
quotient by `2 ^ 19`. -/
theorem hashIsTheTopOfTheProduct : Obligations.HashIsTheTopOfTheProduct := by
  intro b0 b1 b2
  have hvalue : ((b2 ++ b1 ++ b0).zeroExtend 32).toNat = b0.toNat + 256 * b1.toNat + 65536 * b2.toNat :=
    (BitVec.toNat_setWidth_of_le (by decide)).trans (toNat_append_bytes b0 b1 b2)
  rw [hash3, BitVec.extractLsb'_toNat, BitVec.toNat_mul, hvalue, Nat.shiftRight_eq_div_pow]
  refine Nat.mod_eq_of_lt (Nat.div_lt_of_lt_mul ?_)
  exact Nat.mod_lt _ (by decide)

/-! ### INSERT (R93) and CANDIDATES (R94) -/

/-- An insert writes the slot the counter names and leaves every other slot alone. -/
theorem slotOf_insertPos {s : State} (hwf : Mem.WF s.slots) (h g : BitVec 13) (p : Nat) {j : Nat} (hj : j < 8) :
    slotOf (insertPos h p s) g j =
      if g = h ∧ j = (counterOf s h).toNat then BitVec.ofNat 14 p else slotOf s g j := by
  have hindex : slotIndex g j = slotIndex h (counterOf s h).toNat ↔ g = h ∧ j = (counterOf s h).toNat :=
    ⟨slotIndex_inj hj (counterOf_lt s h), fun ⟨hg, hj⟩ => by rw [hg, hj]⟩
  simp only [slotOf, insertPos_slots, Mem.read_write hwf, hindex]

/-- An insert counts in its own bucket only; the counter's three bits wrap around. -/
theorem counterOf_insertPos {s : State} (hwf : Mem.WF s.rr) (h g : BitVec 13) (p : Nat) :
    counterOf (insertPos h p s) g = if g = h then counterOf s h + 1 else counterOf s g := by
  simp only [counterOf, insertPos_rr, Mem.read_write hwf, ← BitVec.toNat_eq]

/-- Settles O12: a slot and a counter read after the insert are the one written or what they were. -/
theorem insertOverwritesTheNamedSlot : Obligations.InsertOverwritesTheNamedSlot := by
  intro s h p hslots hrr hp
  refine ⟨?_, ?_, fun g j hj hother => ?_, fun g hg => ?_, rfl⟩
  · rw [slotOf_insertPos hslots h h p (counterOf_lt s h), if_pos ⟨rfl, rfl⟩]
    exact (BitVec.toNat_ofNat p 14).trans (Nat.mod_eq_of_lt hp)
  · rw [counterOf_insertPos hrr, if_pos rfl, BitVec.toNat_add]
    rfl
  · exact (slotOf_insertPos hslots h g p hj).trans (if_neg (not_and_or.mpr hother))
  · rw [counterOf_insertPos hrr, if_neg hg]

/-- Settles O13: the definition lists slot 0 to slot 7. -/
theorem candidatesAreTheEightSlots : Obligations.CandidatesAreTheEightSlots :=
  fun _ _ => rfl

end Sys2Proof.Machine

/-! The refill, Extend and the search (spec/41_compressor.md R105 to R113): what the window reads as after a refill,
where Extend stops, and which candidate the search keeps. -/

namespace Sys2Proof.Machine

/-! ### The refill (R105 to R107) -/

theorem slotBase_eq (s : State) : slotBase s = if s.k % 2 = 0 then 0 else 8192 := by
  simp only [slotBase, Config.W]
  split <;> omega

/-- A byte of the ring after a refill is one of the chunk, or what it was. -/
theorem windowByte_placeChunk {s : State} (hwf : Mem.WF s.wb) (bytes : List Byte) {i : Nat} (hi : i < 16384) :
    windowByte (placeChunk bytes s) i =
      if slotBase s ≤ i ∧ i < slotBase s + bytes.length then bytes.getD (i - slotBase s) 0 else windowByte s i := by
  have hring : ¬(Config.NW ≤ i ∧ i < Config.NW + Config.G) := by
    simp only [Config.NW, Config.W]
    omega
  unfold windowByte
  rw [placeChunk_wb, ← Mem.read_writeList hwf]
  split
  · rw [read_mirror (Mem.wf_writeList hwf _ _), if_neg hring]
  · rfl

/-- An even refill mirrors the start of slot 0 into the guard (R106). -/
theorem windowByte_guard_of_even {s : State} (hwf : Mem.WF s.wb) (bytes : List Byte) (heven : s.k % 2 = 0) {j : Nat}
    (hj : j < 256) : windowByte (placeChunk bytes s) (16384 + j) = windowByte (placeChunk bytes s) j := by
  have hwf' := Mem.wf_writeList hwf (slotBase s) bytes
  unfold windowByte
  rw [placeChunk_wb, if_pos heven, read_mirror hwf', read_mirror hwf',
    if_pos (by simp only [Config.NW, Config.W, Config.G]; omega),
    if_neg (by simp only [Config.NW, Config.W]; omega)]
  exact congrArg _ (Nat.add_sub_cancel_left 16384 j)

/-- An odd refill fills slot 1, which ends before the guard. -/
theorem windowByte_guard_of_odd {s : State} (hwf : Mem.WF s.wb) {bytes : List Byte} (hlen : bytes.length ≤ 8192)
    (hodd : s.k % 2 ≠ 0) {j : Nat} : windowByte (placeChunk bytes s) (16384 + j) = windowByte s (16384 + j) := by
  have hbase : slotBase s = 8192 := by rw [slotBase_eq, if_neg hodd]
  unfold windowByte
  rw [placeChunk_wb, if_neg hodd, Mem.read_writeList hwf, if_neg (by omega)]

/-- Settles O14: the slot write puts the chunk, and only an even refill goes on to write the guard. -/
theorem refillPlacesTheChunk : Obligations.RefillPlacesTheChunk := by
  intro s bytes hwf hlen
  simp only [← slotBase_eq s]
  have hbase := slotBase_le s
  refine ⟨fun j hj => ?_, fun i hi hout => ?_, fun heven j hj => windowByte_guard_of_even hwf bytes heven hj,
    fun hodd j _ => windowByte_guard_of_odd hwf hlen hodd, rfl⟩
  · rw [windowByte_placeChunk hwf bytes (by omega), if_pos (by omega), Nat.add_sub_cancel_left]
  · rw [windowByte_placeChunk hwf bytes hi, if_neg (by omega)]

/-! ### Extend (R112) -/

/-- The first `len` bytes of a comparison are inside every limit and agree. -/
structure Agrees (wb : Cells 8) (cursor p d la len : Nat) : Prop where
  max : len ≤ 255
  dist : len ≤ d
  lookahead : len ≤ la
  window : len ≤ 8192
  same : ∀ i, i < len → Mem.read wb (cursor + i) = Mem.read wb (p + i)

variable {wb : Cells 8} {cursor p d la len : Nat}

theorem Agrees.zero (wb : Cells 8) (cursor p d la : Nat) : Agrees wb cursor p d la 0 :=
  ⟨Nat.zero_le _, Nat.zero_le _, Nat.zero_le _, Nat.zero_le _, fun _ hi => absurd hi (Nat.not_lt_zero _)⟩

/-- The condition of a pass: one byte more is inside the limits and agrees. -/
def ExtendGoesOn (wb : Cells 8) (cursor p d la len : Nat) : Prop :=
  len < 255 ∧ len < d ∧ len < la ∧ len < 8192 ∧ Mem.read wb (cursor + len) = Mem.read wb (p + len)

theorem extendLoop_of_goesOn (h : ExtendGoesOn wb cursor p d la len) (fuel : Nat) :
    extendLoop wb cursor p d la (fuel + 1) len = extendLoop wb cursor p d la fuel (len + 1) := if_pos h

theorem extendLoop_of_stops (h : ¬ExtendGoesOn wb cursor p d la len) (fuel : Nat) :
    extendLoop wb cursor p d la fuel len = len := by
  cases fuel with
  | zero => rfl
  | succ fuel => exact if_neg h

theorem Agrees.succ (h : Agrees wb cursor p d la len) (hgo : ExtendGoesOn wb cursor p d la len) :
    Agrees wb cursor p d la (len + 1) := by
  obtain ⟨hmax, hdist, hla, hwindow, hsame⟩ := hgo
  refine ⟨hmax, hdist, hla, hwindow, fun i hi => ?_⟩
  rcases Nat.lt_succ_iff_lt_or_eq.mp hi with hi | rfl
  · exact h.same i hi
  · exact hsame

theorem Agrees.extendLoop (h : Agrees wb cursor p d la len) (fuel : Nat) :
    Agrees wb cursor p d la (extendLoop wb cursor p d la fuel len) := by
  induction fuel generalizing len with
  | zero => exact h
  | succ fuel ih =>
    by_cases hgo : ExtendGoesOn wb cursor p d la len
    · rw [extendLoop_of_goesOn hgo]
      exact ih (h.succ hgo)
    · rwa [extendLoop_of_stops hgo]

/-- A loop that the bound does not end stops at a limit or at a difference. -/
theorem extendLoop_stops {fuel : Nat} (hfuel : 255 ≤ len + fuel) (hmax : len ≤ 255) (hdist : len ≤ d)
    (hla : len ≤ la) (hwindow : len ≤ 8192) :
    let r := extendLoop wb cursor p d la fuel len
    r = 255 ∨ r = d ∨ r = la ∨ r = 8192 ∨ Mem.read wb (cursor + r) ≠ Mem.read wb (p + r) := by
  induction fuel generalizing len with
  | zero => exact .inl (Nat.le_antisymm hmax hfuel)
  | succ fuel ih =>
    by_cases hgo : ExtendGoesOn wb cursor p d la len
    · rw [extendLoop_of_goesOn hgo]
      obtain ⟨hmax, hdist, hla, hwindow, -⟩ := hgo
      exact ih (by omega) hmax hdist hla hwindow
    · rw [extendLoop_of_stops hgo]
      by_contra hin
      simp only [not_or, not_not] at hin
      obtain ⟨hmax', hdist', hla', hwindow', hsame⟩ := hin
      exact hgo ⟨by omega, by omega, by omega, by omega, hsame⟩

theorem agrees_extend (wb : Cells 8) (cursor p d la : Nat) : Agrees wb cursor p d la (extend wb cursor p d la) :=
  (Agrees.zero wb cursor p d la).extendLoop _

/-- Settles O15: every pass stays inside the limits, and the loop's own bound is the limit of 255. -/
theorem extendStopsAtTheFirstLimit : Obligations.ExtendStopsAtTheFirstLimit := by
  intro wb cursor p d la
  obtain ⟨hmax, hdist, hla, hwindow, hsame⟩ := agrees_extend wb cursor p d la
  exact ⟨hmax, hdist, hla, hwindow, hsame,
    extendLoop_stops (by decide) (Nat.zero_le _) (Nat.zero_le _) (Nat.zero_le _) (Nat.zero_le _)⟩

/-- Two bounds that reach the longest match give the same length. -/
theorem extendLoop_eq_of_le {m n : Nat} (hm : 255 ≤ len + m) (hn : 255 ≤ len + n) :
    extendLoop wb cursor p d la m len = extendLoop wb cursor p d la n len := by
  induction m generalizing n len with
  | zero => exact (extendLoop_of_stops (fun h => absurd h.1 (Nat.not_lt.mpr hm)) n).symm
  | succ m ih =>
    by_cases hgo : ExtendGoesOn wb cursor p d la len
    · cases n with
      | zero => exact absurd hgo.1 (Nat.not_lt.mpr hn)
      | succ n =>
        rw [extendLoop_of_goesOn hgo, extendLoop_of_goesOn hgo]
        exact ih (by omega) (by omega)
    · rw [extendLoop_of_stops hgo, extendLoop_of_stops hgo]

/-! ### The search (R113) -/

/-- A candidate offers nothing, or its distance is usable and it offers what Extend gives (R111, R112). -/
theorem candidateLen_cases (s : State) (p : BitVec 14) : candidateLen s p = 0 ∨
    3 ≤ distance s.cursor p ∧ distance s.cursor p ≤ 8192 ∧
      candidateLen s p = extend s.wb s.cursor p.toNat (distance s.cursor p) (s.border - s.cursor - 1) := by
  by_cases hunusable : distance s.cursor p < 3 ∨ 8192 < distance s.cursor p
  · exact .inl (if_pos hunusable)
  · exact .inr ⟨by omega, by omega, if_neg hunusable⟩

/-- What one candidate does to the best: it is replaced by a strictly longer offer only. -/
theorem tryCandidate_best {s : State} {r : Search} (hla : r.la = s.border - s.cursor - 1) (p : BitVec 14) :
    let r' := tryCandidate s.wb s.cursor r p
    r'.la = r.la ∧
    (r.bestLen < candidateLen s p → r'.bestLen = candidateLen s p ∧ r'.bestDist = distance s.cursor p) ∧
    (candidateLen s p ≤ r.bestLen → r'.bestLen = r.bestLen ∧ r'.bestDist = r.bestDist) := by
  simp only [tryCandidate, candidateLen, hla]
  split
  · exact ⟨hla, fun h => absurd h (Nat.not_lt_zero _), fun _ => ⟨rfl, rfl⟩⟩
  · split
    · next hlt => exact ⟨rfl, fun _ => ⟨rfl, rfl⟩, fun hle => absurd hlt (Nat.not_lt.mpr hle)⟩
    · next hle => exact ⟨rfl, fun hlt => absurd hlt hle, fun _ => ⟨rfl, rfl⟩⟩

/-- The best of a search that has tried the candidates `tried`: the first of the longest offers, or nothing. -/
structure FirstLongest (s : State) (tried : List (BitVec 14)) (r : Search) : Prop where
  la : r.la = s.border - s.cursor - 1
  le : ∀ p ∈ tried, candidateLen s p ≤ r.bestLen
  none : r.bestLen = 0 → r.bestDist = 0
  some : 0 < r.bestLen → ∃ before p after, tried = before ++ p :: after ∧ candidateLen s p = r.bestLen ∧
    distance s.cursor p = r.bestDist ∧ ∀ q ∈ before, candidateLen s q < r.bestLen

theorem FirstLongest.tryCandidate {s : State} {tried : List (BitVec 14)} {r : Search} (h : FirstLongest s tried r)
    (p : BitVec 14) : FirstLongest s (tried ++ [p]) (tryCandidate s.wb s.cursor r p) := by
  obtain ⟨hla, hlonger, hnot⟩ := tryCandidate_best h.la p
  rcases Nat.lt_or_ge r.bestLen (candidateLen s p) with hlt | hge
  · obtain ⟨hlen, hdist⟩ := hlonger hlt
    refine ⟨hla.trans h.la, fun q hq => ?_, fun hzero => ?_,
      fun _ => ⟨tried, p, [], rfl, hlen.symm, hdist.symm, fun q hq => ?_⟩⟩
    · rcases List.mem_append.mp hq with hq | hq
      · exact hlen ▸ (h.le q hq).trans hlt.le
      · rw [List.mem_singleton.mp hq, hlen]
    · omega
    · exact hlen ▸ (h.le q hq).trans_lt hlt
  · obtain ⟨hlen, hdist⟩ := hnot hge
    refine ⟨hla.trans h.la, fun q hq => ?_, fun hzero => ?_, fun hpos => ?_⟩
    · rw [hlen]
      rcases List.mem_append.mp hq with hq | hq
      · exact h.le q hq
      · exact List.mem_singleton.mp hq ▸ hge
    · rw [hdist, h.none (hlen ▸ hzero)]
    · rw [hlen, hdist]
      obtain ⟨before, q, after, rfl, hq⟩ := h.some (hlen ▸ hpos)
      exact ⟨before, q, after ++ [p], by simp, hq⟩

theorem FirstLongest.foldl {s : State} {tried : List (BitVec 14)} {r : Search} (h : FirstLongest s tried r)
    (ps : List (BitVec 14)) : FirstLongest s (tried ++ ps) (ps.foldl (Machine.tryCandidate s.wb s.cursor) r) := by
  induction ps generalizing tried r with
  | nil => rwa [List.append_nil]
  | cons p ps ih => simpa using ih (h.tryCandidate p)

theorem firstLongest_searchMatch (s : State) (h : BitVec 13) :
    FirstLongest s (candidates s h) (searchMatch s h) :=
  FirstLongest.foldl (tried := []) ⟨rfl, nofun, fun _ => rfl, fun h => absurd h (Nat.lt_irrefl 0)⟩ _

theorem length_candidates (s : State) (h : BitVec 13) : (candidates s h).length = 8 := by
  simp [candidates, Config.CHAIN]

/-- Settles O16: the place of the kept candidate in the bucket is the number of candidates before it. -/
theorem searchKeepsTheFirstLongest : Obligations.SearchKeepsTheFirstLongest := by
  intro s h
  obtain ⟨hla, hle, hnone, hsome⟩ := firstLongest_searchMatch s h
  have hlength := length_candidates s h
  refine ⟨fun i hi => hle _ ?_, hnone, fun hpos => ?_, hla⟩
  · rw [List.getD_eq_getElem _ _ (hlength ▸ hi)]
    exact List.getElem_mem _
  · obtain ⟨before, p, after, heq, hlen, hdist, hfirst⟩ := hsome hpos
    rw [heq] at hlength ⊢
    simp only [List.length_append, List.length_cons] at hlength
    refine ⟨before.length, by omega, by simpa using hlen, by simpa using hdist, fun j hj => ?_⟩
    rw [List.getD_append _ _ _ _ hj, List.getD_eq_getElem _ _ hj]
    exact hfirst _ (List.getElem_mem _)

end Sys2Proof.Machine

/-! The steps of a scan (spec/41_compressor.md R108 to R121): the literal flush, MatchStep and LiteralStep, what they
write, and that the bounds of the loops are never reached. -/

namespace Sys2Proof.Machine

/-! ### The literal flush (R121) -/

/-- From `s` to `t` only what a flush writes has changed. -/
def OnlyFlushed (s t : State) : Prop :=
  t = { s with sink := t.sink, io := t.io, P := t.P, litStart := t.litStart }

theorem OnlyFlushed.refl (s : State) : OnlyFlushed s s := rfl

theorem OnlyFlushed.trans (a b c : State) (hab : OnlyFlushed a b) (hbc : OnlyFlushed b c) : OnlyFlushed a c := by
  unfold OnlyFlushed at *
  rw [hbc, hab]

/-- What does not read what a flush writes is the same after it. -/
theorem OnlyFlushed.read_eq {α : Type} {s t : State} (h : OnlyFlushed s t) (f : State → α)
    (hf : ∀ u sink io P litStart, f { u with sink := sink, io := io, P := P, litStart := litStart } = f u := by
      exact fun _ _ _ _ _ => rfl) : f t = f s := by
  rw [h, hf]

theorem keeps_onlyFlushed_flushLoop (fuel : Nat) : Keeps OnlyFlushed (flushLoop fuel) := by
  have hwrite : ∀ bytes, Keeps OnlyFlushed (sinkWrite bytes) := keeps_sinkWrite fun _ _ _ => rfl
  induction fuel with
  | zero => exact keeps_pure OnlyFlushed.refl ()
  | succ fuel ih =>
    refine keeps_bind OnlyFlushed.trans (keeps_reads OnlyFlushed.refl _) fun P => ?_
    split
    · exact keeps_pure OnlyFlushed.refl ()
    · exact keeps_bind OnlyFlushed.trans (keeps_reads OnlyFlushed.refl _) fun _ =>
        keeps_bind OnlyFlushed.trans (hwrite _) fun _ =>
        keeps_bind OnlyFlushed.trans (hwrite _) fun _ =>
        keeps_bind OnlyFlushed.trans (keeps_upd fun _ => rfl) fun _ => ih

theorem onlyFlushed_of_flushLiterals {s t : State} (h : flushLiterals s = .ok () t) : OnlyFlushed s t := by
  have hkeeps := keeps_onlyFlushed_flushLoop s.P s
  rw [flushLiterals, M.bind_of_ok (M.reads_apply _ _)] at h
  rwa [h] at hkeeps

theorem flushLoop_of_empty {s : State} (h : s.P = 0) (fuel : Nat) : flushLoop fuel s = .ok () s := by
  cases fuel with
  | zero => rfl
  | succ fuel => rw [flushLoop, M.bind_of_ok (M.reads_apply _ _), if_pos h]; rfl

/-- The number of bytes the next pass of a flush takes. -/
def passLength (s : State) : Nat :=
  min s.P 16383

/-- The state after a pass whose two stream calls succeed. -/
def flushPass (s : State) : State :=
  { s with
    io := s.io.tail.tail
    sink := s.sink ++ [Encode.lit (BitVec.ofNat 14 (passLength s))] ++ [pendingBytes s (passLength s)]
    litStart := (s.litStart + passLength s) % 16384
    P := s.P - passLength s }

theorem flushLoop_succ_of_quiet {s : State} (hs : s.Quiet) (hP : s.P ≠ 0) (fuel : Nat) :
    flushLoop (fuel + 1) s = flushLoop fuel (flushPass s) := by
  rw [flushLoop, M.bind_of_ok (M.reads_apply _ _), if_neg hP]
  show (M.reads _ >>= _) s = _
  rw [M.bind_of_ok (M.reads_apply _ _), M.bind_of_ok (sinkWrite_of_quiet hs _),
    M.bind_of_ok (sinkWrite_of_quiet (quiet_tail hs) _), M.bind_of_ok (M.upd_apply _ _)]
  rfl

/-- The pending run in two parts: the second one begins where a flush of the first leaves `litStart`. -/
theorem pendingBytes_add (s : State) (m n : Nat) : pendingBytes s (m + n) =
    pendingBytes s m ++ pendingBytes { s with litStart := (s.litStart + m) % 16384 } n := by
  have hindex : ∀ j, (s.litStart + (m + j)) % 16384 = ((s.litStart + m) % 16384 + j) % 16384 := fun j => by omega
  simp only [pendingBytes, Config.NW, Config.W, List.range_add, List.map_append, List.map_map, Function.comp_def,
    hindex]
  rfl

@[simp] theorem length_pendingBytes (s : State) (n : Nat) : (pendingBytes s n).length = n := by
  simp [pendingBytes]

@[simp] theorem pendingBytes_zero (s : State) : pendingBytes s 0 = [] := rfl

/-- The pending run is what a pass takes, and what it leaves. -/
theorem pendingBytes_eq_pass (s : State) :
    pendingBytes s s.P = pendingBytes s (passLength s) ++ pendingBytes (flushPass s) (flushPass s).P := by
  have hsplit : s.P = passLength s + (s.P - passLength s) := by
    unfold passLength
    omega
  conv_lhs => rw [hsplit, pendingBytes_add]
  rfl

theorem longLitFrom_nil (fuel : Nat) : Listing.longLitFrom fuel [] = [] := by
  cases fuel <;> rfl

/-- A listed long LIT is its first piece and the rest. -/
theorem longLitFrom_pass {s : State} (hP : s.P ≠ 0) (fuel : Nat) :
    Listing.longLitFrom (fuel + 1) (pendingBytes s s.P) =
      .lit (pendingBytes s (passLength s)) ::
        Listing.longLitFrom fuel (pendingBytes (flushPass s) (flushPass s).P) := by
  have hne : pendingBytes s s.P ≠ [] := fun h => hP (by simpa using congrArg List.length h)
  have hlength : (pendingBytes s (passLength s)).length = passLength s := length_pendingBytes ..
  have hrest : (pendingBytes (flushPass s) (flushPass s).P).length = s.P - passLength s := length_pendingBytes ..
  rw [Listing.longLitFrom, if_neg hne, pendingBytes_eq_pass, Config.LIT_MAX]
  rcases Nat.le_total s.P 16383 with hle | hle
  · have hall : passLength s = s.P := Nat.min_eq_left hle
    rw [hall, Nat.sub_self] at hrest
    rw [List.length_eq_zero_iff.mp hrest, List.append_nil, List.take_of_length_le (by omega),
      List.drop_eq_nil_of_le (by omega)]
  · have hmax : passLength s = 16383 := Nat.min_eq_right hle
    rw [List.take_left' (hlength.trans hmax), List.drop_left' (hlength.trans hmax)]

/-- From `s` to `t` the pending run is flushed: its LIT tokens are in the sink, and none of it is left. -/
structure Flushed (s t : State) : Prop where
  quiet : t.Quiet
  sink : t.sink.flatten = s.sink.flatten ++ Encode.tokens (Listing.longLit (pendingBytes s s.P))
  P : t.P = 0
  litStart : s.P ≠ 0 → t.litStart = (s.litStart + s.P) % 16384
  only : OnlyFlushed s t

theorem flushPass_sink {s : State} : (flushPass s).sink.flatten =
    s.sink.flatten ++ Encode.token (.lit (pendingBytes s (passLength s))) := by
  simp [flushPass, Encode.token]

theorem flushLoop_of_quiet {s : State} (hs : s.Quiet) {fuel : Nat} (hfuel : s.P ≤ fuel) :
    ∃ t, flushLoop fuel s = .ok () t ∧ t.Quiet ∧
      t.sink.flatten = s.sink.flatten ++ Encode.tokens (Listing.longLitFrom fuel (pendingBytes s s.P)) ∧
      t.P = 0 ∧ (s.P ≠ 0 → t.litStart = (s.litStart + s.P) % 16384) ∧ OnlyFlushed s t := by
  by_cases hP : s.P = 0
  · refine ⟨s, flushLoop_of_empty hP fuel, hs, ?_, hP, fun h => absurd hP h, rfl⟩
    rw [hP, pendingBytes_zero, longLitFrom_nil]
    exact (List.append_nil _).symm
  · induction fuel generalizing s with
    | zero => exact absurd (Nat.le_zero.mp hfuel) hP
    | succ fuel ih =>
      have hquiet : (flushPass s).Quiet := quiet_tail (s := { s with io := s.io.tail }) (quiet_tail hs)
      have hlength : passLength s = min s.P 16383 := rfl
      have hpass : (flushPass s).P = s.P - passLength s := rfl
      have hstart : (flushPass s).litStart = (s.litStart + passLength s) % 16384 := rfl
      have honly : OnlyFlushed s (flushPass s) := rfl
      rw [flushLoop_succ_of_quiet hs hP]
      by_cases hrest : (flushPass s).P = 0
      · refine ⟨flushPass s, flushLoop_of_empty hrest fuel, hquiet, ?_, hrest, fun _ => ?_, rfl⟩
        · rw [longLitFrom_pass hP, hrest, pendingBytes_zero, longLitFrom_nil, flushPass_sink]
          simp [Encode.tokens]
        · rw [hstart]
          congr 2
          omega
      · obtain ⟨t, hrun, htq, hsink, htP, hlit, hto⟩ := ih hquiet (by omega) hrest
        refine ⟨t, hrun, htq, ?_, htP, fun _ => ?_, OnlyFlushed.trans _ _ _ honly hto⟩
        · rw [hsink, longLitFrom_pass hP, flushPass_sink]
          simp [Encode.tokens]
        · rw [hlit hrest, hstart]
          omega

/-- With no failing call FlushLiterals flushes the pending run. -/
theorem flushLiterals_of_quiet {s : State} (hs : s.Quiet) : ∃ t, flushLiterals s = .ok () t ∧ Flushed s t := by
  obtain ⟨t, hrun, hquiet, hsink, hP, hlit, honly⟩ := flushLoop_of_quiet hs (Nat.le_refl s.P)
  exact ⟨t, hrun, hquiet, by rwa [Listing.longLit, length_pendingBytes], hP, hlit, honly⟩

/-- Settles O18: each pass of the flush is one piece of the long LIT. -/
theorem flushEmitsThePendingRun : Obligations.FlushEmitsThePendingRun := by
  intro s hs
  obtain ⟨t, hrun, h⟩ := flushLiterals_of_quiet hs
  exact ⟨fun hP => by rw [flushLiterals, M.bind_of_ok (M.reads_apply _ _), hP]; rfl,
    fun hP => ⟨t, hrun, h.sink, h.P, h.litStart (Nat.ne_of_gt hP), h.only⟩⟩

/-! ### MatchStep and LiteralStep (R115 to R117) -/

/-- Settles O17: the step is that one update. -/
theorem literalStepTakesOneByte : Obligations.LiteralStepTakesOneByte :=
  fun _ _ => rfl

/-- The inserts one after another. -/
theorem insertSpan_eq_foldl (count q : Nat) (s : State) : insertSpan count q s =
    (List.range count).foldl (fun u j => insertPos (hashAt u (q + j)) (q + j) u) s := by
  induction count generalizing q s with
  | zero => rfl
  | succ count ih =>
    rw [insertSpan, ih, List.range_succ_eq_map, List.foldl_cons, List.foldl_map]
    simp only [Nat.add_zero, Nat.succ_eq_add_one, Nat.add_assoc, Nat.add_comm 1]

/-- The inserts do not see what a flush writes. -/
theorem insertSpan_onlyFlushed {s t : State} (h : OnlyFlushed s t) (count q : Nat) :
    OnlyFlushed (insertSpan count q s) (insertSpan count q t) := by
  induction count generalizing q s t with
  | zero => exact h
  | succ count ih =>
    refine ih (q := q + 1) ?_
    rw [h]
    rfl

/-- The state after a MATCH of length `l` has been written: the inserts, and the registers past the match. -/
def matched (l : Nat) (s : State) : State :=
  { insertSpan (l + 1) s.cursor s with cursor := s.cursor + l + 1, litStart := (s.cursor + l + 1) % 16384, P := 0 }

theorem matched_eq (l : Nat) (s : State) : matched l s = { s with
    cursor := s.cursor + l + 1, litStart := (s.cursor + l + 1) % 16384, P := 0
    slots := (insertSpan (l + 1) s.cursor s).slots, rr := (insertSpan (l + 1) s.cursor s).rr } := by
  rw [matched, insertSpan_eq]

/-- MatchStep is the flush, the token, and the registers past the match. -/
theorem matchStep_eq (d l : Nat) : matchStep d l = (do
    flushLiterals
    let t ← M.reads fun s => windowByte s (s.cursor + l)
    sinkWrite (Encode.token (.matchTok d l t))
    M.upd (matched l)) := by
  have hupd : (do
      M.upd fun s => insertSpan (l + 1) s.cursor s
      M.upd fun s => { s with cursor := s.cursor + l + 1, litStart := (s.cursor + l + 1) % Config.NW, P := 0 }) =
      M.upd (matched l) := by
    funext s
    rw [M.bind_of_ok (M.upd_apply _ _), M.upd_apply, M.upd_apply, matched, insertSpan_eq]
    rfl
  rw [matchStep, hupd]
  rfl

/-- The state after MatchStep, `u` being the state after the flush. -/
theorem matchStep_of_quiet {s : State} (hs : s.Quiet) (d l : Nat) : ∃ u, Flushed s u ∧
    matchStep d l s = .ok () (matched l { u with
      io := u.io.tail, sink := u.sink ++ [Encode.token (.matchTok d l (windowByte s (s.cursor + l)))] }) := by
  obtain ⟨u, hflush, hu⟩ := flushLiterals_of_quiet hs
  refine ⟨u, hu, ?_⟩
  rw [matchStep_eq, M.bind_of_ok hflush, M.bind_of_ok (M.reads_apply _ _),
    hu.only.read_eq fun s => windowByte s (s.cursor + l), M.bind_of_ok (sinkWrite_of_quiet hu.quiet _)]
  rfl

/-- Settles O19: the flush and the token leave alone what the inserts read. -/
theorem matchStepEmitsTheToken : Obligations.MatchStepEmitsTheToken := by
  intro s d l hs _ _ _ _
  obtain ⟨u, hu, hrun⟩ := matchStep_of_quiet hs d l
  refine ⟨_, hrun, ?_⟩
  generalize hv : ({ u with io := u.io.tail, sink := _ } : State) = v
  have honly : OnlyFlushed s v := by
    rw [← hv]
    exact OnlyFlushed.trans _ _ _ hu.only rfl
  have hindex := insertSpan_onlyFlushed honly (l + 1) s.cursor
  obtain ⟨sink, io, P, litStart, rfl⟩ :
      ∃ sink io P litStart, v = { s with sink := sink, io := io, P := P, litStart := litStart } := ⟨_, _, _, _, honly⟩
  rw [matched_eq]
  refine ⟨?_, rfl, rfl, rfl, ?_, rfl⟩
  · have hsink : sink = u.sink ++ _ := congrArg State.sink hv.symm
    simp [hsink, hu.sink]
  · rw [← insertSpan_eq_foldl]
    exact ⟨hindex.read_eq (·.slots), hindex.read_eq (·.rr)⟩

/-! ### The scan (R108, R109, R114) -/

/-- The state in which the search of a scan step has been done. -/
def searched (s : State) : State :=
  { s with search := searchMatch s (hashAt s s.cursor) }

/-- A scan step is MatchStep or LiteralStep after the search. -/
theorem scanStep_eq (s : State) : scanStep s =
    (if 3 ≤ (searchMatch s (hashAt s s.cursor)).bestLen
      then matchStep (searchMatch s (hashAt s s.cursor)).bestDist (searchMatch s (hashAt s s.cursor)).bestLen
      else literalStep (hashAt s s.cursor)) (searched s) := by
  rw [scanStep, M.bind_of_ok (M.reads_apply _ _), M.bind_of_ok (M.upd_apply _ _), M.bind_of_ok (M.reads_apply _ _)]
  rfl

/-- From `s` to `t` the cursor goes forward to a point at or before the border, which stays. -/
structure MovesInside (s t : State) : Prop where
  lt : s.cursor < t.cursor
  le : t.cursor ≤ s.border
  border : t.border = s.border

theorem movesInside_matchStep {s t : State} {d l : Nat} (hl : s.cursor + l < s.border)
    (h : matchStep d l s = .ok () t) : MovesInside s t := by
  rw [matchStep_eq] at h
  obtain ⟨_, u, hflush, h⟩ := M.bind_eq_ok h
  rw [M.bind_of_ok (M.reads_apply _ _)] at h
  obtain ⟨_, v, hwrite, h⟩ := M.bind_eq_ok h
  have honly := onlyFlushed_of_flushLiterals hflush
  have hput : OnlyFlushed u v := by
    rcases sinkWrite_cases _ u with ⟨d, io, -, hw⟩ | hw <;> rw [hw] at hwrite <;> cases hwrite
    rfl
  have honly := OnlyFlushed.trans _ _ _ honly hput
  have hcursor : v.cursor = s.cursor := honly.read_eq (·.cursor)
  have hborder : v.border = s.border := honly.read_eq (·.border)
  obtain rfl : matched l v = t := by cases h; rfl
  rw [matched_eq]
  exact ⟨by dsimp only; omega, by dsimp only; omega, hborder⟩

theorem movesInside_literalStep {s t : State} {h : BitVec 13} (hin : s.cursor < s.border)
    (hrun : literalStep h s = .ok () t) : MovesInside s t := by
  cases hrun
  exact ⟨Nat.lt_succ_self _, hin, rfl⟩

/-- The best match ends before the border, with a byte left for the trailing literal (R110). -/
theorem bestLen_le (s : State) (h : BitVec 13) : (searchMatch s h).bestLen ≤ s.border - s.cursor - 1 := by
  obtain ⟨-, -, -, hsome⟩ := firstLongest_searchMatch s h
  rcases Nat.eq_zero_or_pos (searchMatch s h).bestLen with hzero | hpos
  · rw [hzero]
    exact Nat.zero_le _
  · obtain ⟨_, p, _, -, hlen, -⟩ := hsome hpos
    rw [← hlen]
    rcases candidateLen_cases s p with hnone | ⟨-, -, hextend⟩
    · rw [hnone]
      exact Nat.zero_le _
    · rw [hextend]
      exact (agrees_extend _ _ _ _ _).lookahead

theorem movesInside_scanStep {s t : State} (hin : s.cursor < s.border) (h : scanStep s = .ok () t) :
    MovesInside s t := by
  have hbest := bestLen_le s (hashAt s s.cursor)
  have hsearched : ∀ {t}, MovesInside (searched s) t → MovesInside s t := fun h => ⟨h.lt, h.le, h.border⟩
  have hroom : (searched s).cursor + (searchMatch s (hashAt s s.cursor)).bestLen < (searched s).border := by
    show s.cursor + _ < s.border
    omega
  rw [scanStep_eq] at h
  split at h
  · exact hsearched (movesInside_matchStep hroom h)
  · exact hsearched (movesInside_literalStep hin h)

theorem scanLoop_of_done {s : State} (h : s.border ≤ s.cursor) (fuel : Nat) : scanLoop fuel s = .ok () s := by
  cases fuel with
  | zero => rfl
  | succ fuel =>
    rw [scanLoop, M.bind_of_ok (M.reads_apply _ _), if_neg (by simpa using h)]
    rfl

theorem scanLoop_succ {s : State} (h : s.cursor < s.border) (fuel : Nat) :
    scanLoop (fuel + 1) s = (scanStep >>= fun _ => scanLoop fuel) s := by
  rw [scanLoop, M.bind_of_ok (M.reads_apply _ _), if_pos (by simpa using h)]

/-- Two bounds that reach the border give the same scan (R104, R203). -/
theorem scanLoop_eq_of_le {m n : Nat} {s : State} (hm : s.border - s.cursor ≤ m) (hn : s.border - s.cursor ≤ n) :
    scanLoop m s = scanLoop n s := by
  induction m generalizing n s with
  | zero => rw [scanLoop_of_done (by omega), scanLoop_of_done (by omega)]
  | succ m ih =>
    rcases Nat.lt_or_ge s.cursor s.border with hin | hout
    · obtain ⟨n, rfl⟩ : ∃ k, n = k + 1 := ⟨n - 1, by omega⟩
      rw [scanLoop_succ hin, scanLoop_succ hin]
      cases hstep : scanStep s with
      | error e t => rw [M.bind_of_error hstep, M.bind_of_error hstep]
      | ok _ t =>
        obtain ⟨hlt, hle, hborder⟩ := movesInside_scanStep hin hstep
        rw [M.bind_of_ok hstep, M.bind_of_ok hstep]
        exact ih (by omega) (by omega)
    · rw [scanLoop_of_done hout, scanLoop_of_done hout]

/-- Settles O20: the search leaves a byte after the best match, so no step passes the border. -/
theorem scanStepAdvancesInsideTheChunk : Obligations.ScanStepAdvancesInsideTheChunk := by
  intro s
  refine ⟨⟨fun hlong => ?_, fun hshort => ?_⟩, fun hdone => scanLoop_of_done hdone _,
    fun hin => ⟨fun t h => ?_, fun e t h => ?_⟩⟩
  · rw [scanStep_eq, if_pos hlong, searched]
  · rw [scanStep_eq, if_neg (Nat.not_le.mpr hshort), searched]
  all_goals obtain ⟨n, hn⟩ : ∃ n, s.border - s.cursor = n + 1 := ⟨s.border - s.cursor - 1, by omega⟩
  · obtain ⟨hlt, hle, hborder⟩ := movesInside_scanStep hin h
    refine ⟨hlt, hle, hborder, ?_⟩
    rw [hn, scanLoop_succ hin, M.bind_of_ok h]
    exact scanLoop_eq_of_le (by omega) (Nat.le_refl _)
  · rw [hn, scanLoop_succ hin, M.bind_of_error h]

/-! ### The refill cycle (R103, R118, R119) -/

theorem forceFlush_of_long {s : State} (h : 8192 ≤ s.P) : forceFlush s = flushLiterals s := by
  rw [forceFlush, M.bind_of_ok (M.reads_apply _ _)]
  exact congrFun (if_pos h) s

theorem forceFlush_of_short {s : State} (h : s.P < 8192) : forceFlush s = .ok () s := by
  rw [forceFlush, M.bind_of_ok (M.reads_apply _ _)]
  exact congrFun (if_neg (Nat.not_le.mpr h)) s

/-- Settles O21: the two tests of a cycle's end. -/
theorem cycleEndWrapsAndFlushes : Obligations.CycleEndWrapsAndFlushes :=
  fun _ => ⟨wrapCursor_of_le, fun h => wrapCursor_of_not_le (Nat.not_le.mpr h), forceFlush_of_long,
    forceFlush_of_short⟩

/-- The state in which the chunk `bytes` is scanned, `r` being the state after the read. -/
def placed (bytes : List Byte) (r : State) : State :=
  placeChunk bytes { r with n := bytes.length }

/-- The scan of a chunk and the end of its cycle. -/
def scanChunk : M Unit := do
  let steps ← M.reads fun s => s.border - s.cursor
  scanLoop steps
  M.upd wrapCursor
  forceFlush

theorem scanChunk_apply (s : State) : scanChunk s =
    (scanLoop (s.border - s.cursor) >>= fun _ => M.upd wrapCursor >>= fun _ => forceFlush) s := by
  rw [scanChunk, M.bind_of_ok (M.reads_apply _ _)]

/-- A cycle in its parts: the read, the chunk, and whether it is the last. -/
theorem refillCycle_of_read {s r : State} {bytes : List Byte} (hr : srcRead 8192 s = .ok bytes r) :
    refillCycle s =
      if bytes = [] then .ok true { r with n := bytes.length }
      else (scanChunk >>= fun _ => if bytes.length < 8192 then pure true else do
        M.upd fun s => { s with k := s.k + 1 }
        pure false) (placed bytes r) := by
  unfold refillCycle
  rw [M.bind_of_ok (show srcRead Config.S s = .ok bytes r from hr), M.bind_of_ok (M.upd_apply _ _)]
  by_cases hnil : bytes = []
  · rw [if_pos (by rw [hnil]; rfl), if_pos hnil]
    rfl
  · rw [if_neg (by simpa using hnil), if_neg hnil, M.bind_of_ok (M.upd_apply _ _), M.bind_of_ok (M.reads_apply _ _),
      scanChunk]
    simp only [bind_assoc]
    rw [M.bind_of_ok (M.reads_apply _ _)]
    rfl

theorem refillCycle_of_failed_read {s r : State} {e : Err} (hr : srcRead 8192 s = .error e r) :
    refillCycle s = .error e r :=
  M.bind_of_error hr

theorem refillCycle_of_empty {s r : State} (hr : srcRead 8192 s = .ok [] r) :
    refillCycle s = .ok true { r with n := 0 } := by
  rw [refillCycle_of_read hr, if_pos rfl]
  rfl

theorem refillCycle_of_short {s r t : State} {bytes : List Byte} (hr : srcRead 8192 s = .ok bytes r)
    (hne : bytes ≠ []) (hscan : scanChunk (placed bytes r) = .ok () t) (hlen : bytes.length < 8192) :
    refillCycle s = .ok true t := by
  rw [refillCycle_of_read hr, if_neg hne, M.bind_of_ok hscan, if_pos hlen]
  rfl

theorem refillCycle_of_full {s r t : State} {bytes : List Byte} (hr : srcRead 8192 s = .ok bytes r)
    (hne : bytes ≠ []) (hscan : scanChunk (placed bytes r) = .ok () t) (hlen : 8192 ≤ bytes.length) :
    refillCycle s = .ok false { t with k := t.k + 1 } := by
  rw [refillCycle_of_read hr, if_neg hne, M.bind_of_ok hscan, if_neg (Nat.not_lt.mpr hlen)]
  rfl

/-- Settles O23: the parts of the cycle, one after the other. -/
theorem refillCycleRunsInOrder : Obligations.RefillCycleRunsInOrder := by
  intro s hs
  have hr := srcRead_of_quiet hs 8192
  refine ⟨fun hnil => ?_, fun hne v w hscan hflush => ?_⟩
  · rw [refillCycle_of_read hr, if_pos hnil]
  · have hchunk : scanChunk (placed (ahead 8192 s) { advance 8192 s with io := s.io.tail }) = .ok () w := by
      rw [scanChunk_apply]
      exact (M.bind_of_ok hscan).trans ((M.bind_of_ok (M.upd_apply _ _)).trans hflush)
    exact ⟨refillCycle_of_short hr hne hchunk, refillCycle_of_full hr hne hchunk⟩

/-- A cycle that is not the last one has read a whole chunk and scanned it. -/
theorem refillCycle_eq_false {s t : State} (h : refillCycle s = .ok false t) :
    ∃ bytes r u, srcRead 8192 s = .ok bytes r ∧ 8192 ≤ bytes.length ∧ scanChunk (placed bytes r) = .ok () u ∧
      t = { u with k := u.k + 1 } := by
  cases hr : srcRead 8192 s with
  | error e r => rw [refillCycle_of_failed_read hr] at h; cases h
  | ok bytes r =>
    by_cases hnil : bytes = []
    · rw [hnil] at hr
      rw [refillCycle_of_empty hr] at h
      cases h
    · cases hscan : scanChunk (placed bytes r) with
      | error e u => rw [refillCycle_of_read hr, if_neg hnil, M.bind_of_error hscan] at h; cases h
      | ok _ u =>
        rcases Nat.lt_or_ge bytes.length 8192 with hshort | hfull
        · rw [refillCycle_of_short hr hnil hscan hshort] at h
          cases h
        · rw [refillCycle_of_full hr hnil hscan hfull] at h
          cases h
          exact ⟨bytes, r, u, rfl, hfull, hscan, rfl⟩

/-- What the scan of a chunk leaves alone: the source, the engine, the result and the count of chunks. -/
structure ScanLeaves (s t : State) : Prop where
  source : t.source = s.source
  endless : t.endless = s.endless
  engine : t.engine = s.engine
  result : t.result = s.result
  k : t.k = s.k

theorem ScanLeaves.refl (s : State) : ScanLeaves s s := ⟨rfl, rfl, rfl, rfl, rfl⟩

theorem ScanLeaves.trans (a b c : State) (hab : ScanLeaves a b) (hbc : ScanLeaves b c) : ScanLeaves a c :=
  ⟨hbc.source.trans hab.source, hbc.endless.trans hab.endless, hbc.engine.trans hab.engine,
    hbc.result.trans hab.result, hbc.k.trans hab.k⟩

theorem scanPieces_scanLeaves : ScanPieces ScanLeaves where
  refl := ScanLeaves.refl
  trans := ScanLeaves.trans
  write := keeps_sinkWrite fun _ _ _ => ⟨rfl, rfl, rfl, rfl, rfl⟩
  flushed _ _ := ⟨rfl, rfl, rfl, rfl, rfl⟩
  search _ _ := ⟨rfl, rfl, rfl, rfl, rfl⟩
  span s l := by rw [insertSpan_eq]; exact ⟨rfl, rfl, rfl, rfl, rfl⟩
  matched _ _ := ⟨rfl, rfl, rfl, rfl, rfl⟩
  literal _ _ := ⟨rfl, rfl, rfl, rfl, rfl⟩

theorem keeps_scanLeaves_scanChunk : Keeps ScanLeaves scanChunk :=
  keeps_bind ScanLeaves.trans (keeps_reads ScanLeaves.refl _) fun steps =>
    keeps_bind ScanLeaves.trans (scanPieces_scanLeaves.keeps_scanLoop steps) fun _ =>
    keeps_bind ScanLeaves.trans
      (keeps_upd fun s => by rw [wrapCursor_eq]; exact ⟨rfl, rfl, rfl, rfl, rfl⟩) fun _ =>
    scanPieces_scanLeaves.keeps_forceFlush

theorem scanLeaves_of_scanChunk {s t : State} (h : scanChunk s = .ok () t) : ScanLeaves s t := by
  have hkeeps := keeps_scanLeaves_scanChunk s
  rwa [h] at hkeeps

/-- A read of a whole chunk takes exactly that chunk. -/
theorem srcRead_full {s r : State} {bytes : List Byte} (hr : srcRead 8192 s = .ok bytes r)
    (hlen : 8192 ≤ bytes.length) : bytes = ahead 8192 s ∧ r = { advance 8192 s with io := s.io.tail } := by
  rcases srcRead_cases 8192 s with ⟨d, io, -, h⟩ | ⟨m, hm, h⟩ <;> rw [h] at hr <;> cases hr
  have hle := length_ahead_le m s
  obtain rfl : m = 8192 := by omega
  exact ⟨rfl, rfl⟩

/-- What a cycle that is not the last one does to the streams and the engine. -/
structure FullCycle (s t : State) : Prop where
  full : (ahead 8192 s).length = 8192
  source : t.source = (advance 8192 s).source
  endless : t.endless = (advance 8192 s).endless
  engine : t.engine = s.engine
  result : t.result = s.result
  k : t.k = s.k + 1

theorem fullCycle_of_refillCycle {s t : State} (h : refillCycle s = .ok false t) : FullCycle s t := by
  obtain ⟨bytes, r, u, hr, hlen, hscan, rfl⟩ := refillCycle_eq_false h
  obtain ⟨rfl, rfl⟩ := srcRead_full hr hlen
  obtain ⟨hsource, hendless, hengine, hresult, hk⟩ := scanLeaves_of_scanChunk hscan
  exact ⟨Nat.le_antisymm (length_ahead_le ..) hlen, hsource, hendless, hengine, hresult, congrArg (· + 1) hk⟩

/-- On a source that ends, a cycle that is not the last one takes bytes of it. -/
theorem FullCycle.of_ends {s t : State} (h : FullCycle s t) (hs : s.endless = none) :
    t.endless = none ∧ t.source.length + 8192 = s.source.length := by
  have hfull := h.full
  rw [ahead_of_ends hs, List.length_take] at hfull
  rw [h.source, h.endless, advance_source, advance_endless, hs, List.length_drop]
  exact ⟨rfl, by omega⟩

/-! ### The bounds of the loops (log entry 18) -/

/-- The loop is a cycle, and after one that is not the last the loop again. -/
theorem refillLoop_succ_of_false {s t : State} (h : refillCycle s = .ok false t) (fuel : Nat) :
    refillLoop (fuel + 1) s = refillLoop fuel t := by
  rw [refillLoop, M.bind_of_ok h]
  rfl

theorem refillLoop_succ_of_true {s t : State} (h : refillCycle s = .ok true t) (fuel : Nat) :
    refillLoop (fuel + 1) s = .ok true t := by
  rw [refillLoop, M.bind_of_ok h]
  rfl

theorem refillLoop_succ_of_error {s t : State} {e : Err} (h : refillCycle s = .error e t) (fuel : Nat) :
    refillLoop (fuel + 1) s = .error e t := by
  rw [refillLoop, M.bind_of_error h]

/-- On a source that ends, two bounds above its length give the same refill cycles. -/
theorem refillLoop_eq_of_lt {m n : Nat} {s : State} (hs : s.endless = none) (hm : s.source.length < m)
    (hn : s.source.length < n) : refillLoop m s = refillLoop n s := by
  induction m generalizing n s with
  | zero => exact absurd hm (Nat.not_lt_zero _)
  | succ m ih =>
    obtain ⟨n, rfl⟩ : ∃ k, n = k + 1 := ⟨n - 1, by omega⟩
    cases hcycle : refillCycle s with
    | error e t => rw [refillLoop_succ_of_error hcycle, refillLoop_succ_of_error hcycle]
    | ok last t =>
      cases last with
      | true => rw [refillLoop_succ_of_true hcycle, refillLoop_succ_of_true hcycle]
      | false =>
        obtain ⟨ht, hlength⟩ := (fullCycle_of_refillCycle hcycle).of_ends hs
        rw [refillLoop_succ_of_false hcycle, refillLoop_succ_of_false hcycle]
        exact ih ht (by omega) (by omega)

/-- One pass of the flush, and the passes after it. -/
theorem flushLoop_succ {s : State} (hP : s.P ≠ 0) (fuel : Nat) : flushLoop (fuel + 1) s = (do
    sinkWrite (Encode.lit (BitVec.ofNat 14 (passLength s)))
    sinkWrite (pendingBytes s (passLength s))
    M.upd fun t => { t with litStart := (t.litStart + passLength s) % 16384, P := t.P - passLength s }
    flushLoop fuel) s := by
  rw [flushLoop, M.bind_of_ok (M.reads_apply _ _), if_neg hP]
  rfl

/-- A pass raises an error of a stream call, or goes on with the rest of the run. -/
theorem flushLoop_succ_cases {s : State} (hP : s.P ≠ 0) :
    (∃ e t, ∀ fuel, flushLoop (fuel + 1) s = .error e t) ∨
    ∃ t, t.P = s.P - passLength s ∧ ∀ fuel, flushLoop (fuel + 1) s = flushLoop fuel t := by
  have hpass := flushLoop_succ hP
  rcases sinkWrite_cases (Encode.lit (BitVec.ofNat 14 (passLength s))) s with ⟨d, io, -, hheader⟩ | hheader
  · exact .inl ⟨_, _, fun fuel => (hpass fuel).trans (M.bind_of_error hheader)⟩
  · rcases sinkWrite_cases (pendingBytes s (passLength s))
        { s with io := s.io.tail, sink := s.sink ++ [Encode.lit (BitVec.ofNat 14 (passLength s))] } with
      ⟨d, io, -, hrun⟩ | hrun
    · exact .inl ⟨_, _, fun fuel => (hpass fuel).trans ((M.bind_of_ok hheader).trans (M.bind_of_error hrun))⟩
    · refine .inr ⟨_, ?_, fun fuel => (hpass fuel).trans
        ((M.bind_of_ok hheader).trans ((M.bind_of_ok hrun).trans (M.bind_of_ok (M.upd_apply _ _))))⟩
      rfl

theorem flushLoop_eq_of_le {m n : Nat} {s : State} (hm : s.P ≤ m) (hn : s.P ≤ n) :
    flushLoop m s = flushLoop n s := by
  by_cases hP : s.P = 0
  · rw [flushLoop_of_empty hP, flushLoop_of_empty hP]
  · induction m generalizing n s with
    | zero => exact absurd (Nat.le_zero.mp hm) hP
    | succ m ih =>
      obtain ⟨n, rfl⟩ : ∃ k, n = k + 1 := ⟨n - 1, by omega⟩
      rcases flushLoop_succ_cases hP with ⟨e, t, herror⟩ | ⟨t, ht, hgo⟩
      · rw [herror, herror]
      · have hlength : passLength s = min s.P 16383 := rfl
        rw [hgo, hgo]
        by_cases htP : t.P = 0
        · rw [flushLoop_of_empty htP, flushLoop_of_empty htP]
        · exact ih (by omega) (by omega) htP

/-- Settles O22: each pass of a loop takes a byte at least, and the bounds count bytes. -/
theorem loopBoundsAreNeverReached : Obligations.LoopBoundsAreNeverReached :=
  ⟨fun _ _ hs hn => refillLoop_eq_of_lt hs hn (Nat.lt_succ_self _),
    fun _ _ hn => scanLoop_eq_of_le hn (Nat.le_refl _),
    fun _ _ hn => flushLoop_eq_of_le hn (Nat.le_refl _),
    fun _ _ _ _ _ _ hn => extendLoop_eq_of_le (by omega) (by omega)⟩

end Sys2Proof.Machine

/-! The COMPRESS command (spec/41_compressor.md R101 to R103, R120 to R125): how it ends, and that it writes tokens in
the encoder's ranges whatever the streams do. -/

namespace Sys2Proof.Machine

variable {α β : Type}

/-! ### The body of COMPRESS (R101, R103, R120) -/

/-- The end of COMPRESS: the end flush and OK (R120). -/
def compressEnd : M Unit := do
  flushLiterals
  M.upd complete

theorem compressEnd_of_flushed {s t : State} (h : flushLiterals s = .ok () t) :
    compressEnd s = .ok () (complete t) := by
  rw [compressEnd, M.bind_of_ok h, M.upd_apply]

/-- The body is the cycles, and the end after a loop that has ended. -/
theorem compressBody_eq (s : State) : compressBody s =
    (refillLoop (cyclesPerStep s) >>= fun ended => if ended then compressEnd else pure ()) s := by
  rw [compressBody, M.bind_of_ok (M.reads_apply _ _)]
  rfl

theorem cyclesPerStep_of_ends {s : State} (h : s.endless = none) : cyclesPerStep s = s.source.length + 1 := if_pos h

theorem cyclesPerStep_of_endless {s : State} (h : s.endless ≠ none) : cyclesPerStep s = 1 := if_neg h

/-- There is a cycle in every step. -/
theorem exists_cyclesPerStep (s : State) : ∃ n, cyclesPerStep s = n + 1 := by
  by_cases h : s.endless = none
  · exact ⟨_, cyclesPerStep_of_ends h⟩
  · exact ⟨_, cyclesPerStep_of_endless h⟩

theorem compressBody_of_last {s t : State} (h : refillCycle s = .ok true t) : compressBody s = compressEnd t := by
  obtain ⟨n, hn⟩ := exists_cyclesPerStep s
  rw [compressBody_eq, hn, M.bind_of_ok (refillLoop_succ_of_true h n)]
  rfl

theorem compressBody_of_error {s t : State} {e : Err} (h : refillCycle s = .error e t) :
    compressBody s = .error e t := by
  obtain ⟨n, hn⟩ := exists_cyclesPerStep s
  rw [compressBody_eq, hn, M.bind_of_error (refillLoop_succ_of_error h n)]

/-- On a source that ends the body goes on after a full cycle, in a bound that is large enough. -/
theorem compressBody_of_full {s t : State} (h : refillCycle s = .ok false t) (hs : s.endless = none) :
    compressBody s = compressBody t := by
  obtain ⟨ht, hlength⟩ := (fullCycle_of_refillCycle h).of_ends hs
  have hloop : refillLoop (cyclesPerStep s) s = refillLoop (cyclesPerStep t) t := by
    rw [cyclesPerStep_of_ends hs, cyclesPerStep_of_ends ht, refillLoop_succ_of_false h]
    exact refillLoop_eq_of_lt ht (by omega) (Nat.lt_succ_self _)
  rw [compressBody_eq, compressBody_eq, M.bind_apply, M.bind_apply, hloop]

/-- On a source that never ends a full cycle is the whole step. -/
theorem compressBody_of_endless {s t : State} (h : refillCycle s = .ok false t) (hs : s.endless ≠ none) :
    compressBody s = .ok () t := by
  rw [compressBody_eq, cyclesPerStep_of_endless hs, M.bind_of_ok (refillLoop_succ_of_false h 0)]
  rfl

theorem exec_compress_of_present {s : State} (hsrc : s.cmd.srcPresent = true) (hsink : s.cmd.sinkPresent = true) :
    exec .compress s = .next (settle compressBody (resetBlock .compress s)) := by
  rw [← settle_compressCommand_of_checked (checkPreconditions_of_present hsrc hsink)]
  rfl

/-- Settles O24: a cycle that is the last is followed by the end, any other one by the body again. -/
theorem compressRepeatsTheRefillCycle : Obligations.CompressRepeatsTheRefillCycle := by
  refine fun s => ⟨exec_compress_of_present, step_of_compress, fun t hlast => ⟨fun u hu => ?_, fun e u hu => ?_⟩,
    fun t hfull => ⟨compressBody_of_full hfull, compressBody_of_endless hfull⟩, fun e t => compressBody_of_error⟩
  · rw [compressBody_of_last hlast, compressEnd_of_flushed hu]
    rfl
  · rw [compressBody_of_last hlast, compressEnd, M.bind_of_error hu]

/-! ### Absent streams and empty sources (R102, R125) -/

theorem checkPreconditions_of_no_source {s : State} (h : s.cmd.srcPresent = false) :
    checkPreconditions s = .error (.precondition .source) s := if_pos h

theorem checkPreconditions_of_no_sink {s : State} (hsrc : s.cmd.srcPresent = true) (h : s.cmd.sinkPresent = false) :
    checkPreconditions s = .error (.precondition .sink) s := by
  simp [checkPreconditions, hsrc, h]

/-- A failed check ends either command at once. -/
theorem exec_of_unchecked {s : State} {e : Err} (h : checkPreconditions s = .error e s) {i : Instr}
    (hi : i = .compress ∨ i = .decompress) : exec i s = .next (abort e s) := by
  rcases hi with rfl | rfl
  · exact congrArg _ (settle_of_error (M.bind_of_error h))
  · exact congrArg _ (settle_of_error (M.bind_of_error h))

/-- Settles O25: the check changes nothing, and the abort writes the result and the engine. -/
theorem absentStreamEndsTheCommand : Obligations.AbsentStreamEndsTheCommand :=
  fun _ _ hi => ⟨fun hsrc => exec_of_unchecked (checkPreconditions_of_no_source hsrc) hi,
    fun hsrc hsink => exec_of_unchecked (checkPreconditions_of_no_sink hsrc hsink) hi⟩

/-- COMPRESS ends at its precondition checks, or runs its body from the reset block. -/
theorem exec_compress_cases (s : State) : (∃ w, exec .compress s = .next (abort (.precondition w) s)) ∨
    exec .compress s = .next (settle compressBody (resetBlock .compress s)) := by
  cases hsrc : s.cmd.srcPresent with
  | false => exact .inl ⟨_, exec_of_unchecked (checkPreconditions_of_no_source hsrc) (.inl rfl)⟩
  | true =>
    cases hsink : s.cmd.sinkPresent with
    | false => exact .inl ⟨_, exec_of_unchecked (checkPreconditions_of_no_sink hsrc hsink) (.inl rfl)⟩
    | true => exact .inr (exec_compress_of_present hsrc hsink)

/-- Settles O27: the first read is empty, so the cycle is the last, and no run is pending after the reset. -/
theorem compressOfEmptyInputWritesNothing : Obligations.CompressOfEmptyInputWritesNothing := by
  intro s hs hsrc hsink hempty
  obtain ⟨hsource, hendless⟩ := ahead_one_eq_nil.mp hempty
  have hread := srcRead_of_quiet (s := resetBlock .compress s) hs 8192
  rw [ahead_of_ends (s := resetBlock .compress s) hendless, resetBlock_source, hsource, List.take_nil] at hread
  have hflush := flushLoop_of_empty
    (s := { advance 8192 (resetBlock .compress s) with io := s.io.tail, n := 0 }) rfl 0
  refine ⟨_, exec_compress_of_present hsrc hsink, ?_⟩
  rw [settle_of_ok ((compressBody_of_last (refillCycle_of_empty hread)).trans (compressEnd_of_flushed hflush))]
  exact ⟨rfl, rfl, rfl⟩

/-! ### Pieces that write tokens (R124) -/

/-- From `s` to `t` whole tokens in the encoder's ranges were written. -/
def WroteTokens (s t : State) : Prop :=
  ∃ ts : List Token, (∀ tok ∈ ts, tok.Emitted) ∧ t.sink.flatten = s.sink.flatten ++ Encode.tokens ts

/-- From `s` to `t` a leading part of such tokens was written. -/
def WrotePart (s t : State) : Prop :=
  ∃ (ts : List Token) (p : List Byte), (∀ tok ∈ ts, tok.Emitted) ∧ t.sink.flatten = s.sink.flatten ++ p ∧
    p <+: Encode.tokens ts

theorem tokens_append (ts us : List Token) : Encode.tokens (ts ++ us) = Encode.tokens ts ++ Encode.tokens us :=
  List.flatMap_append

theorem tokens_singleton (tok : Token) : Encode.tokens [tok] = Encode.token tok := by
  simp [Encode.tokens]

theorem WroteTokens.of_sink_eq {s t : State} (h : t.sink = s.sink) : WroteTokens s t :=
  ⟨[], nofun, by simp [h, Encode.tokens]⟩

theorem WrotePart.of_sink_eq {s t : State} (h : t.sink = s.sink) : WrotePart s t :=
  ⟨[], [], nofun, by simp [h], List.nil_prefix⟩

theorem WroteTokens.trans {s t u : State} (hst : WroteTokens s t) (htu : WroteTokens t u) : WroteTokens s u := by
  obtain ⟨ts, hts, hs⟩ := hst
  obtain ⟨us, hus, ht⟩ := htu
  exact ⟨ts ++ us, fun tok h => (List.mem_append.mp h).elim (hts tok) (hus tok),
    by rw [ht, hs, tokens_append, List.append_assoc]⟩

theorem WroteTokens.trans_part {s t u : State} (hst : WroteTokens s t) (htu : WrotePart t u) : WrotePart s u := by
  obtain ⟨ts, hts, hs⟩ := hst
  obtain ⟨us, p, hus, ht, hp⟩ := htu
  refine ⟨ts ++ us, Encode.tokens ts ++ p, fun tok h => (List.mem_append.mp h).elim (hts tok) (hus tok),
    by rw [ht, hs, List.append_assoc], ?_⟩
  rw [tokens_append]
  exact (List.prefix_append_right_inj _).mpr hp

/-- The piece writes whole tokens and goes on, or raises an IOError after a leading part of some. -/
structure WritesTokens (m : M α) : Prop where
  ok : ∀ {s a t}, m s = .ok a t → WroteTokens s t
  error : ∀ {s e t}, m s = .error e t → WrotePart s t ∧ ∃ w, e = .io w

theorem WritesTokens.bind {m : M α} {f : α → M β} (hm : WritesTokens m) (hf : ∀ a, WritesTokens (f a)) :
    WritesTokens (m >>= f) where
  ok h := by
    obtain ⟨a, u, hu, ht⟩ := M.bind_eq_ok h
    exact (hm.ok hu).trans ((hf a).ok ht)
  error h := by
    rcases M.bind_eq_error h with ht | ⟨a, u, hu, ht⟩
    · exact hm.error ht
    · exact ⟨(hm.ok hu).trans_part ((hf a).error ht).1, ((hf a).error ht).2⟩

theorem writesTokens_pure (a : α) : WritesTokens (pure a : M α) where
  ok h := by cases h; exact .of_sink_eq rfl
  error h := by cases h

theorem writesTokens_reads (f : State → α) : WritesTokens (M.reads f) where
  ok h := by cases h; exact .of_sink_eq rfl
  error h := by cases h

theorem writesTokens_upd {f : State → State} (hf : ∀ s, (f s).sink = s.sink := by exact fun _ => rfl) :
    WritesTokens (M.upd f) where
  ok h := by cases h; exact .of_sink_eq (hf _)
  error h := by cases h

theorem writesTokens_srcRead (n : Nat) : WritesTokens (srcRead n) where
  ok {s _ _} h := by
    rcases srcRead_cases n s with ⟨d, io, -, hr⟩ | ⟨m, -, hr⟩ <;> rw [hr] at h <;> cases h
    exact .of_sink_eq rfl
  error {s _ _} h := by
    rcases srcRead_cases n s with ⟨d, io, -, hr⟩ | ⟨m, -, hr⟩ <;> rw [hr] at h <;> cases h
    exact ⟨.of_sink_eq rfl, _, rfl⟩

theorem sink_of_sinkWrite {bytes : List Byte} {s t : State} (h : sinkWrite bytes s = .ok () t) :
    t.sink.flatten = s.sink.flatten ++ bytes := by
  rcases sinkWrite_cases bytes s with ⟨d, io, -, hw⟩ | hw <;> rw [hw] at h <;> cases h
  simp

theorem sink_of_failed_sinkWrite {bytes : List Byte} {s t : State} {e : Err} (h : sinkWrite bytes s = .error e t) :
    e = .io .sink ∧ ∃ p, p <+: bytes ∧ t.sink.flatten = s.sink.flatten ++ p := by
  rcases sinkWrite_cases bytes s with ⟨d, io, -, hw⟩ | hw <;> rw [hw] at h <;> cases h
  exact ⟨rfl, bytes.take d, List.take_prefix .., by simp⟩

theorem writesTokens_sinkWrite {tok : Token} (h : tok.Emitted) : WritesTokens (sinkWrite (Encode.token tok)) where
  ok hr := ⟨[tok], by simpa using h, by rw [sink_of_sinkWrite hr, tokens_singleton]⟩
  error hr := by
    obtain ⟨rfl, p, hp, hsink⟩ := sink_of_failed_sinkWrite hr
    exact ⟨⟨[tok], p, by simpa using h, hsink, by rwa [tokens_singleton]⟩, _, rfl⟩

/-- A LIT is written in two calls, so a failing one can leave its header without its payload. -/
theorem writesTokens_sinkWrite_two {tok : Token} (h : tok.Emitted) {xs ys : List Byte}
    (htok : Encode.token tok = xs ++ ys) : WritesTokens (sinkWrite xs >>= fun _ => sinkWrite ys) where
  ok hr := by
    obtain ⟨_, u, hu, ht⟩ := M.bind_eq_ok hr
    exact ⟨[tok], by simpa using h,
      by rw [sink_of_sinkWrite ht, sink_of_sinkWrite hu, tokens_singleton, htok, List.append_assoc]⟩
  error hr := by
    rcases M.bind_eq_error hr with hu | ⟨_, u, hu, ht⟩
    · obtain ⟨rfl, p, hp, hsink⟩ := sink_of_failed_sinkWrite hu
      exact ⟨⟨[tok], p, by simpa using h, hsink, by
        rw [tokens_singleton, htok]
        exact hp.trans (List.prefix_append ..)⟩, _, rfl⟩
    · obtain ⟨rfl, p, hp, hsink⟩ := sink_of_failed_sinkWrite ht
      exact ⟨⟨[tok], xs ++ p, by simpa using h, by rw [hsink, sink_of_sinkWrite hu, List.append_assoc], by
        rw [tokens_singleton, htok]
        exact (List.prefix_append_right_inj _).mpr hp⟩, _, rfl⟩

/-! ### COMPRESS writes tokens -/

/-- A piece that from each state is some piece that writes tokens, from a state with the same sink, writes tokens. -/
theorem WritesTokens.of_forall {m : M α}
    (h : ∀ s, ∃ m' : M α, WritesTokens m' ∧ ∃ s', s'.sink = s.sink ∧ m s = m' s') : WritesTokens m where
  ok {s _ _} hr := by
    obtain ⟨m', hm', s', hs', heq⟩ := h s
    exact (WroteTokens.of_sink_eq hs').trans (hm'.ok (heq ▸ hr))
  error {s _ _} hr := by
    obtain ⟨m', hm', s', hs', heq⟩ := h s
    obtain ⟨hpart, hio⟩ := hm'.error (heq ▸ hr)
    exact ⟨(WroteTokens.of_sink_eq hs').trans_part hpart, hio⟩

theorem writesTokens_flushLoop (fuel : Nat) : WritesTokens (flushLoop fuel) := by
  induction fuel with
  | zero => exact writesTokens_pure ()
  | succ fuel ih =>
    refine .of_forall fun s => ?_
    by_cases hP : s.P = 0
    · exact ⟨pure (), writesTokens_pure (), s, rfl, flushLoop_of_empty hP _⟩
    · have hlength : (pendingBytes s (passLength s)).length = passLength s := length_pendingBytes ..
      have hrange : 1 ≤ passLength s ∧ passLength s ≤ 16383 := by
        unfold passLength
        omega
      have hemitted : (Token.lit (pendingBytes s (passLength s))).Emitted := by
        rw [Token.Emitted, hlength]
        exact hrange
      have htwo := writesTokens_sinkWrite_two hemitted rfl
      rw [hlength] at htwo
      refine ⟨_, ?_, s, rfl, (flushLoop_succ hP fuel).trans (congrFun (bind_assoc ..).symm s)⟩
      exact htwo.bind fun _ => WritesTokens.bind writesTokens_upd fun _ => ih

theorem writesTokens_flushLiterals : WritesTokens flushLiterals :=
  (writesTokens_reads _).bind writesTokens_flushLoop

theorem writesTokens_matchStep {d l : Nat} (h : ∀ t, (Token.matchTok d l t).Emitted) :
    WritesTokens (matchStep d l) := by
  rw [matchStep_eq]
  exact writesTokens_flushLiterals.bind fun _ => (writesTokens_reads _).bind fun t =>
    (writesTokens_sinkWrite (h t)).bind fun _ => writesTokens_upd fun s => by rw [matched_eq]

/-- What the search found: a candidate in reach that agrees with the bytes at the cursor. -/
theorem exists_candidate_of_best {s : State} {h : BitVec 13} (hpos : 0 < (searchMatch s h).bestLen) :
    ∃ p ∈ candidates s h, distance s.cursor p = (searchMatch s h).bestDist ∧
      3 ≤ (searchMatch s h).bestDist ∧ (searchMatch s h).bestDist ≤ 8192 ∧
      Agrees s.wb s.cursor p.toNat (searchMatch s h).bestDist (s.border - s.cursor - 1)
        (searchMatch s h).bestLen := by
  obtain ⟨-, -, -, hsome⟩ := firstLongest_searchMatch s h
  obtain ⟨before, p, after, heq, hlen, hdist, -⟩ := hsome hpos
  rw [← hlen] at hpos ⊢
  rw [← hdist]
  rcases candidateLen_cases s p with hnone | ⟨hmin, hmax, hextend⟩
  · omega
  · exact ⟨p, by simp [heq], rfl, hmin, hmax, hextend ▸ agrees_extend _ _ _ _ _⟩

/-- A best match of at least 3 bytes is in the encoder's ranges. -/
theorem emitted_of_best {s : State} {h : BitVec 13} (hlong : 3 ≤ (searchMatch s h).bestLen) (t : Byte) :
    (Token.matchTok (searchMatch s h).bestDist (searchMatch s h).bestLen t).Emitted := by
  obtain ⟨p, -, -, hmin, hmax, hagrees⟩ := exists_candidate_of_best (Nat.lt_of_lt_of_le (Nat.succ_pos 2) hlong)
  exact ⟨hmin, hmax, hlong, Nat.le_min.mpr ⟨hagrees.max, hagrees.dist⟩⟩

theorem writesTokens_scanStep : WritesTokens scanStep := by
  refine .of_forall fun s => ?_
  refine ⟨_, ?_, searched s, rfl, scanStep_eq s⟩
  split
  · next hlong => exact writesTokens_matchStep (emitted_of_best hlong)
  · exact writesTokens_upd

theorem writesTokens_scanLoop (fuel : Nat) : WritesTokens (scanLoop fuel) := by
  induction fuel with
  | zero => exact writesTokens_pure ()
  | succ fuel ih =>
    refine (writesTokens_reads _).bind fun inside => ?_
    split
    · exact writesTokens_scanStep.bind fun _ => ih
    · exact writesTokens_pure ()

theorem writesTokens_forceFlush : WritesTokens forceFlush := by
  refine (writesTokens_reads _).bind fun P => ?_
  split
  · exact writesTokens_flushLiterals
  · exact writesTokens_pure ()

theorem writesTokens_refillCycle : WritesTokens refillCycle := by
  refine (writesTokens_srcRead _).bind fun bytes => WritesTokens.bind writesTokens_upd fun _ => ?_
  split
  · exact writesTokens_pure true
  · refine WritesTokens.bind writesTokens_upd fun _ => (writesTokens_reads _).bind fun steps =>
      (writesTokens_scanLoop steps).bind fun _ =>
      (writesTokens_upd fun s => by rw [wrapCursor_eq]).bind fun _ =>
      writesTokens_forceFlush.bind fun _ => ?_
    split
    · exact writesTokens_pure true
    · exact WritesTokens.bind writesTokens_upd fun _ => writesTokens_pure false

theorem writesTokens_refillLoop (fuel : Nat) : WritesTokens (refillLoop fuel) := by
  induction fuel with
  | zero => exact writesTokens_pure false
  | succ fuel ih =>
    refine writesTokens_refillCycle.bind fun last => ?_
    split
    · exact writesTokens_pure true
    · exact ih

theorem writesTokens_compressBody : WritesTokens compressBody := by
  refine (writesTokens_reads _).bind fun cycles => (writesTokens_refillLoop cycles).bind fun ended => ?_
  split
  · exact writesTokens_flushLiterals.bind fun _ => writesTokens_upd
  · exact writesTokens_pure ()

/-- COMPRESS, or a step of one that runs, ends at the precondition checks or is the body of the command from a state
with the same streams. -/
theorem compress_next_cases {s t : State}
    (h : exec .compress s = .next t ∨ (s.engine = .compress ∧ step s = .next t)) :
    (∃ w, t = abort (.precondition w) s) ∨
    ∃ u, u.engine = .compress ∧ u.result = s.result ∧ u.sink = s.sink ∧ u.endless = s.endless ∧
      t = settle compressBody u := by
  rcases h with h | ⟨he, h⟩
  · rcases exec_compress_cases s with ⟨w, hs⟩ | hs <;> rw [hs] at h <;> cases h
    · exact .inl ⟨w, rfl⟩
    · exact .inr ⟨resetBlock .compress s, rfl, rfl, rfl, rfl, rfl⟩
  · rw [step_of_compress he] at h
    cases h
    exact .inr ⟨s, he, rfl, rfl, rfl, rfl⟩

/-- Settles O28: every piece of COMPRESS writes whole tokens, but for the one whose stream call fails. -/
theorem compressWritesLegalTokens : Obligations.CompressWritesLegalTokens := by
  intro s t h
  rcases compress_next_cases h with ⟨w, rfl⟩ | ⟨u, -, -, hsink, -, rfl⟩
  · exact ⟨[], [], nofun, by simp, List.nil_prefix, fun _ => rfl⟩
  · rw [← hsink]
    cases hr : compressBody u with
    | ok _ v =>
      obtain ⟨ts, hts, hv⟩ := writesTokens_compressBody.ok hr
      rw [settle_of_ok hr]
      exact ⟨ts, _, hts, hv, List.prefix_rfl, fun _ => rfl⟩
    | error e v =>
      obtain ⟨ts, p, hts, hv, hp⟩ := (writesTokens_compressBody.error hr).1
      rw [settle_of_error hr]
      exact ⟨ts, p, hts, hv, hp, fun hend => by simp at hend⟩

/-! ### How COMPRESS ends (R101, R171) -/

/-- A loop that its bound ends has run that many full cycles, so its source had bytes for them. -/
theorem refillLoop_eq_false {fuel : Nat} {s t : State} (h : refillLoop fuel s = .ok false t) :
    t.engine = s.engine ∧ t.result = s.result ∧ (s.endless = none → fuel ≤ s.source.length) := by
  induction fuel generalizing s with
  | zero => cases h; exact ⟨rfl, rfl, fun _ => Nat.zero_le _⟩
  | succ fuel ih =>
    cases hcycle : refillCycle s with
    | error e u => rw [refillLoop_succ_of_error hcycle] at h; cases h
    | ok last u =>
      cases last with
      | true => rw [refillLoop_succ_of_true hcycle] at h; cases h
      | false =>
        rw [refillLoop_succ_of_false hcycle] at h
        have hfull := fullCycle_of_refillCycle hcycle
        obtain ⟨hengine, hresult, hfuel⟩ := ih h
        refine ⟨hengine.trans hfull.engine, hresult.trans hfull.result, fun hs => ?_⟩
        obtain ⟨hu, hlength⟩ := hfull.of_ends hs
        have := hfuel hu
        omega

/-- The body ends OK, or it goes on, on a source that never ends. -/
theorem compressBody_eq_ok {s t : State} (h : compressBody s = .ok () t) :
    (t.result = .ok ∧ t.engine = .idle) ∨ (t.engine = s.engine ∧ t.result = s.result ∧ s.endless ≠ none) := by
  rw [compressBody_eq] at h
  obtain ⟨ended, u, hloop, h⟩ := M.bind_eq_ok h
  cases ended with
  | true =>
    obtain ⟨_, v, -, h⟩ := M.bind_eq_ok (m := flushLiterals) h
    cases h
    exact .inl ⟨rfl, rfl⟩
  | false =>
    cases h
    obtain ⟨hengine, hresult, hfuel⟩ := refillLoop_eq_false hloop
    refine .inr ⟨hengine, hresult, fun hs => ?_⟩
    have := hfuel hs
    rw [cyclesPerStep_of_ends hs] at this
    omega

/-- Settles O33: the checks raise a PreconditionError, the body an IOError, and what ends it otherwise is OK. -/
theorem compressNeverReportsCorruption : Obligations.CompressNeverReportsCorruption := by
  intro s t h
  rcases compress_next_cases h with ⟨w, rfl⟩ | ⟨u, hengine, hresult, -, hendless, rfl⟩
  · exact .inr ⟨rfl, .inr (.inl ⟨w, rfl⟩)⟩
  · cases hr : compressBody u with
    | ok _ v =>
      rw [settle_of_ok hr]
      rcases compressBody_eq_ok hr with ⟨hok, hidle⟩ | ⟨he, hres, hne⟩
      · exact .inr ⟨hidle, .inl hok⟩
      · exact .inl ⟨he.trans hengine, hres.trans hresult, hendless ▸ hne⟩
    | error e v =>
      obtain ⟨-, w, rfl⟩ := writesTokens_compressBody.error hr
      rw [settle_of_error hr]
      exact .inr ⟨rfl, .inr (.inr ⟨w, rfl⟩)⟩

end Sys2Proof.Machine

/-! What the tokens of COMPRESS stand for (spec/41_compressor.md R126), on lists: a program each of whose matches
reaches back into what the tokens before it stand for. -/

namespace Sys2Proof.Machine

/-! ### Programs whose matches reach into their own output -/

/-- A MATCH copies from at most the start of the output `out`. -/
def InReach (out : List Byte) : Token → Prop
  | .lit _ => True
  | .matchTok d _ _ => d ≤ out.length

/-- After the output `out`, every token is in the encoder's ranges and in reach. -/
def Legible : List Byte → List Token → Prop
  | _, [] => True
  | out, tok :: ts => tok.Emitted ∧ InReach out tok ∧ Legible (expandToken out tok) ts

theorem legible_append {out : List Byte} {ts us : List Token} :
    Legible out (ts ++ us) ↔ Legible out ts ∧ Legible (ts.foldl expandToken out) us := by
  induction ts generalizing out with
  | nil => simp [Legible]
  | cons tok ts ih => simp [Legible, ih, and_assoc]

theorem Legible.emitted {out : List Byte} {ts : List Token} (h : Legible out ts) : ∀ tok ∈ ts, tok.Emitted := by
  induction ts generalizing out with
  | nil => nofun
  | cons tok ts ih =>
    obtain ⟨htok, -, hts⟩ := h
    exact List.forall_mem_cons.mpr ⟨htok, ih hts⟩

/-- A program goes on with what is legible after its output. -/
theorem Legible.append {ts us : List Token} (hts : Legible [] ts) (hus : Legible (expand ts) us) :
    Legible [] (ts ++ us) :=
  legible_append.mpr ⟨hts, hus⟩

/-- The encoder's ranges are inside the decoder's (R81). -/
theorem wellFormed_of_emitted {tok : Token} (h : tok.Emitted) : tok.WellFormed := by
  cases tok with
  | lit payload => exact h
  | matchTok d l t =>
    obtain ⟨hmin, hmax, hlong, hlen⟩ := h
    exact ⟨Nat.le_trans (by decide) hmin, hmax, hlong, hlen.trans (Nat.min_le_left ..)⟩

theorem expand_append (ts us : List Token) : expand (ts ++ us) = us.foldl expandToken (expand ts) :=
  List.foldl_append

/-- The pieces of a long LIT stand for its bytes. -/
theorem expand_longLitFrom {fuel : Nat} {bytes : List Byte} (hfuel : bytes.length ≤ fuel) (out : List Byte) :
    (Listing.longLitFrom fuel bytes).foldl expandToken out = out ++ bytes := by
  induction fuel generalizing bytes out with
  | zero => rw [List.length_eq_zero_iff.mp (Nat.le_zero.mp hfuel)]; exact (List.append_nil out).symm
  | succ fuel ih =>
    by_cases hnil : bytes = []
    · rw [hnil, longLitFrom_nil]
      exact (List.append_nil out).symm
    · have hrest : (bytes.drop Config.LIT_MAX).length ≤ fuel := by
        rw [List.length_drop, Config.LIT_MAX]
        omega
      rw [Listing.longLitFrom, if_neg hnil, List.foldl_cons, ih hrest, expandToken, List.append_assoc,
        List.take_append_drop]

theorem legible_longLitFrom (fuel : Nat) (bytes out : List Byte) : Legible out (Listing.longLitFrom fuel bytes) := by
  induction fuel generalizing bytes out with
  | zero => trivial
  | succ fuel ih =>
    by_cases hnil : bytes = []
    · rw [hnil, longLitFrom_nil]
      trivial
    · have hpos := List.length_pos_of_ne_nil hnil
      rw [Listing.longLitFrom, if_neg hnil]
      refine ⟨?_, trivial, ih _ _⟩
      simp only [Token.Emitted, List.length_take, Config.LIT_MAX]
      omega

/-! ### The copy of a match -/

variable {d l : Nat} {out input : List Byte}

/-- Where the bytes from `pos` on repeat those `d` before them, the copy of a match puts out those bytes. -/
theorem expandCopy_take {pos : Nat} (hpos : pos + l ≤ input.length) (hd : 1 ≤ d) (hreach : d ≤ pos)
    (hsame : ∀ i, i < l → input[pos - d + i]? = input[pos + i]?) :
    expandCopy d l (input.take pos) = input.take (pos + l) := by
  induction l generalizing pos with
  | zero => rfl
  | succ l ih =>
    have hlength : (input.take pos).length = pos := by
      rw [List.length_take]
      omega
    have hbyte : (input.take pos).getD (pos - d) 0 = input[pos] := by
      have hfirst : input[pos - d]? = input[pos]? := hsame 0 (Nat.succ_pos l)
      rw [List.getD_eq_getElem?_getD, List.getElem?_take_of_lt (by omega), hfirst,
        List.getElem?_eq_getElem (by omega), Option.getD_some]
    rw [expandCopy, hlength, if_pos hreach, hbyte, List.take_append_getElem, ih (by omega) (by omega) fun i hi => ?_]
    · rw [Nat.add_assoc, Nat.add_comm 1]
    · have hnext := hsame (i + 1) (Nat.succ_lt_succ hi)
      rwa [show pos + 1 - d + i = pos - d + (i + 1) by omega, Nat.add_assoc, Nat.add_comm 1]

theorem prefix_expandCopy (d l : Nat) (out : List Byte) : out <+: expandCopy d l out := by
  induction l generalizing out with
  | zero => exact List.prefix_rfl
  | succ l ih => exact (List.prefix_append ..).trans (ih _)

theorem length_expandCopy (d l : Nat) (out : List Byte) : (expandCopy d l out).length = out.length + l := by
  induction l generalizing out with
  | zero => rfl
  | succ l ih =>
    rw [expandCopy, ih, List.length_append, List.length_singleton]
    omega

/-- The bytes a copy puts out repeat those `d` before them. -/
theorem getElem?_expandCopy (hd : 1 ≤ d) (hreach : d ≤ out.length) {i : Nat} (hi : i < l) :
    (expandCopy d l out)[out.length - d + i]? = (expandCopy d l out)[out.length + i]? := by
  induction l generalizing out i with
  | zero => exact absurd hi (Nat.not_lt_zero i)
  | succ l ih =>
    rw [expandCopy, if_pos hreach]
    generalize hx : out.getD (out.length - d) 0 = x
    have hlength : (out ++ [x]).length = out.length + 1 := by simp
    cases i with
    | zero =>
      obtain ⟨rest, hrest⟩ := prefix_expandCopy d l (out ++ [x])
      have hcopied : out.length - d < out.length := by omega
      rw [← hrest, List.append_assoc, Nat.add_zero, Nat.add_zero, List.getElem?_append_left hcopied,
        List.getElem?_append_right (Nat.le_refl _), Nat.sub_self, ← hx, List.getD_eq_getElem _ _ hcopied]
      exact List.getElem?_eq_getElem hcopied
    | succ i =>
      have hnext := ih (out := out ++ [x]) (by omega) (Nat.lt_of_succ_lt_succ hi)
      rwa [hlength, show out.length + 1 - d + i = out.length - d + (i + 1) by omega,
        Nat.add_assoc, Nat.add_comm 1] at hnext

theorem prefix_expandToken (out : List Byte) (tok : Token) : out <+: expandToken out tok := by
  cases tok with
  | lit payload => exact List.prefix_append ..
  | matchTok d l b => exact (prefix_expandCopy d l out).trans (List.prefix_append ..)

theorem prefix_foldl_expandToken (ts : List Token) (out : List Byte) : out <+: ts.foldl expandToken out := by
  induction ts generalizing out with
  | nil => exact List.prefix_rfl
  | cons tok ts ih => exact (prefix_expandToken out tok).trans (ih _)

/-! ### What each token of such a program stands for -/

variable {before after : List Token}

/-- What stands before a token of the program and the token stand for a leading part of its output. -/
theorem prefix_expand_of_split (tok : Token) (before after : List Token) :
    expandToken (expand before) tok <+: expand (before ++ tok :: after) := by
  rw [expand_append]
  exact prefix_foldl_expandToken after _

theorem take_drop_of_lit (payload : List Byte) (before after : List Token) :
    ((expand (before ++ .lit payload :: after)).drop (expand before).length).take payload.length = payload := by
  obtain ⟨rest, hrest⟩ := prefix_expand_of_split (.lit payload) before after
  rw [← hrest, expandToken, List.append_assoc, List.drop_left, List.take_left]

theorem legible_match {b : Byte} (h : Legible [] (before ++ .matchTok d l b :: after)) :
    (1 ≤ d ∧ d ≤ (expand before).length) := by
  obtain ⟨-, ⟨hmin, -⟩, hreach, -⟩ := legible_append.mp h
  exact ⟨Nat.le_trans (by decide) hmin, hreach⟩

/-- A MATCH of the program repeats earlier output, and its literal is the byte after. -/
theorem getElem?_of_match {b : Byte} (h : Legible [] (before ++ .matchTok d l b :: after)) :
    let input := expand (before ++ .matchTok d l b :: after)
    let x := (expand before).length
    (∀ i, i < l → input[x - d + i]? = input[x + i]?) ∧ input[x + l]? = some b := by
  obtain ⟨hd, hreach⟩ := legible_match h
  obtain ⟨rest, hrest⟩ := prefix_expand_of_split (.matchTok d l b) before after
  have hlength := length_expandCopy d l (expand before)
  rw [← hrest, expandToken, List.append_assoc]
  refine ⟨fun i hi => ?_, ?_⟩
  · rw [List.getElem?_append_left (by omega), List.getElem?_append_left (by omega)]
    exact getElem?_expandCopy hd hreach hi
  · rw [List.getElem?_append_right (by omega), hlength, Nat.sub_self]
    rfl

end Sys2Proof.Machine

/-! COMPRESS with no failing call (spec/41_compressor.md R101 to R126): between any two of its steps the window holds
the last input bytes, and the tokens written and the pending run stand for the input up to the cursor. -/

namespace Sys2Proof.Machine

/-! ### What the window and the tokens stand for -/

/-- `A` is the input read so far. The window holds its bytes of the present and the last slot, and the tokens written
after `sink₀`, followed by the pending run, stand for its first `pos` bytes. -/
structure Covers (A sink₀ : List Byte) (pos : Nat) (s : State) : Prop where
  quiet : s.Quiet
  window : ∀ i, i < A.length → 8192 * s.k ≤ i + 8192 → A[i]? = some (windowByte s (i % 16384))
  tokens : ∃ ts, Legible [] ts ∧ s.sink.flatten = sink₀ ++ Encode.tokens ts ∧
    expand ts ++ pendingBytes s s.P = A.take pos

variable {A sink₀ : List Byte} {pos len : Nat} {s t : State}

/-- A flush turns the pending run into tokens that stand for it. -/
theorem Covers.flush (h : Covers A sink₀ pos s) (hf : Flushed s t) : Covers A sink₀ pos t := by
  have hbyte : ∀ i, windowByte t i = windowByte s i := fun i => hf.only.read_eq (windowByte · i)
  have hk : t.k = s.k := hf.only.read_eq (·.k)
  obtain ⟨ts, hts, hsink, hexpand⟩ := h.tokens
  refine ⟨hf.quiet, fun i hi hlo => ?_, ts ++ Listing.longLit (pendingBytes s s.P), ?_, ?_, ?_⟩
  · rw [hbyte]
    exact h.window i hi (hk ▸ hlo)
  · exact hts.append (legible_longLitFrom _ _ _)
  · rw [hf.sink, hsink, tokens_append, List.append_assoc]
  · rw [expand_append, Listing.longLit, expand_longLitFrom (Nat.le_refl _), hf.P, pendingBytes_zero, List.append_nil,
      hexpand]

/-- With no pending run the tokens alone stand for the input. -/
theorem Covers.expand_eq (h : Covers A sink₀ pos s) (hP : s.P = 0) :
    ∃ ts, Legible [] ts ∧ s.sink.flatten = sink₀ ++ Encode.tokens ts ∧ expand ts = A.take pos := by
  obtain ⟨ts, hts, hsink, hexpand⟩ := h.tokens
  rw [hP, pendingBytes_zero, List.append_nil] at hexpand
  exact ⟨ts, hts, hsink, hexpand⟩

/-- A MATCH that repeats the input, written with no run pending, stands for the bytes it takes. -/
theorem Covers.put {d l : Nat} {b : Byte} (h : Covers A sink₀ pos s) (hP : s.P = 0)
    (hemitted : (Token.matchTok d l b).Emitted) (hreach : d ≤ pos)
    (hsame : ∀ i, i < l → A[pos - d + i]? = A[pos + i]?) (hb : A[pos + l]? = some b) :
    Covers A sink₀ (pos + l + 1)
      { s with io := s.io.tail, sink := s.sink ++ [Encode.token (.matchTok d l b)] } := by
  obtain ⟨ts, hts, hsink, hexpand⟩ := h.expand_eq hP
  obtain ⟨hlt, hbyte⟩ := List.getElem?_eq_some_iff.mp hb
  have hd : 1 ≤ d := Nat.le_trans (by decide) hemitted.1
  have hlegible : Legible (expand ts) [.matchTok d l b] := by
    refine ⟨hemitted, ?_, trivial⟩
    rw [hexpand, InReach, List.length_take]
    omega
  refine ⟨quiet_tail h.quiet, h.window, ts ++ [.matchTok d l b],
    hts.append hlegible, ?_, ?_⟩
  · rw [List.flatten_append, hsink, tokens_append, tokens_singleton]
    simp
  · show expand _ ++ pendingBytes _ s.P = _
    rw [hP, pendingBytes_zero, List.append_nil, expand_append, hexpand]
    simp only [List.foldl_cons, List.foldl_nil, expandToken]
    rw [expandCopy_take (by omega) hd hreach hsame, ← hbyte, List.take_append_getElem]

/-- The registers past a match do not matter while no run is pending. -/
theorem Covers.matched (h : Covers A sink₀ pos s) (hP : s.P = 0) (l : Nat) :
    Covers A sink₀ pos (Machine.matched l s) := by
  obtain ⟨ts, hts, hsink, hexpand⟩ := h.tokens
  rw [hP] at hexpand
  rw [matched_eq]
  exact ⟨h.quiet, h.window, ts, hts, hsink, hexpand⟩

/-- A byte that joins the pending run is the next one the run stands for. -/
theorem Covers.literal (h : Covers A sink₀ pos s) (hpos : pos < A.length) (hlo : 8192 * s.k ≤ pos + 8192)
    (hrun : (s.litStart + s.P) % 16384 = pos % 16384) (b : BitVec 13) :
    Covers A sink₀ (pos + 1) { insertPos b s.cursor s with cursor := s.cursor + 1, P := s.P + 1 } := by
  obtain ⟨ts, hts, hsink, hexpand⟩ := h.tokens
  refine ⟨h.quiet, h.window, ts, hts, hsink, ?_⟩
  have hpending : pendingBytes s (s.P + 1) = pendingBytes s s.P ++ [windowByte s (pos % 16384)] := by
    rw [pendingBytes_add, hrun]
    simp [pendingBytes, Config.NW, Config.W, windowByte]
  show expand ts ++ pendingBytes s (s.P + 1) = _
  rw [hpending, ← List.append_assoc, hexpand, List.take_add_one, h.window pos hpos hlo]
  rfl

/-! ### The scan of a chunk -/

/-- The number of the input byte at the cursor, in the scan of a chunk. -/
def scanPos (s : State) : Nat :=
  8192 * s.k + (s.cursor - slotBase s)

theorem scanPos_add (hk : t.k = s.k) {n : Nat} (hcursor : t.cursor = s.cursor + n) (hbase : slotBase s ≤ s.cursor) :
    scanPos t = scanPos s + n := by
  unfold scanPos slotBase at *
  rw [hk, hcursor]
  omega

/-- The state between two scan steps of a chunk of `len` bytes, the last ones of the input `A`. Before the first whole
chunk has been read, no position behind the cursor is in the index. -/
structure ScanCovers (A sink₀ : List Byte) (len : Nat) (s : State) : Prop extends Scanning len s where
  covers : Covers A sink₀ (scanPos s) s
  length_eq : A.length = 8192 * s.k + len
  past : s.k = 0 → ∀ x ∈ s.slots, x.2.toNat ≤ s.cursor

theorem ScanCovers.cursor_add (h : ScanCovers A sink₀ len s) {i : Nat} (hi : s.cursor + i < s.border) :
    scanPos s + i < A.length ∧ (scanPos s + i) % 16384 = s.cursor + i := by
  have hbase := h.base_le
  have hborder := h.border_eq
  have hrange := h.border
  have hlength := h.length_eq
  have hslot := slotBase_eq s
  unfold scanPos
  split at hslot <;> omega

/-- The input from the cursor on, as the window holds it. -/
theorem ScanCovers.byte_at_cursor (h : ScanCovers A sink₀ len s) {i : Nat} (hi : s.cursor + i < s.border) :
    A[scanPos s + i]? = some (windowByte s (s.cursor + i)) := by
  obtain ⟨hlt, hmod⟩ := h.cursor_add hi
  rw [h.covers.window _ hlt (by unfold scanPos; omega), hmod]

/-- What a memory reads is 0 or listed. -/
theorem Mem.read_eq_zero_or_mem {w : Nat} (m : Cells w) (a : Nat) :
    Mem.read m a = 0 ∨ ∃ x ∈ m, Mem.read m a = x.2 := by
  induction m with
  | nil => exact .inl rfl
  | cons x m ih =>
    rw [show Mem.read (x :: m) a = if a = x.1 then x.2 else Mem.read m a from rfl]
    split
    · exact .inr ⟨x, by simp, rfl⟩
    · exact ih.imp_right fun ⟨y, hy, heq⟩ => ⟨y, List.mem_cons_of_mem _ hy, heq⟩

/-- Before the first whole chunk has been read, every candidate is at or before the cursor: it was inserted, or reads
as 0. -/
theorem ScanCovers.candidate_le (h : ScanCovers A sink₀ len s) (hk : s.k = 0) {b : BitVec 13} {p : BitVec 14}
    (hp : p ∈ candidates s b) : p.toNat ≤ s.cursor := by
  obtain ⟨j, -, rfl⟩ := List.mem_map.mp hp
  rcases Mem.read_eq_zero_or_mem s.slots (slotIndex b j) with hzero | ⟨x, hx, heq⟩
  · rw [slotOf, hzero]
    exact Nat.zero_le _
  · rw [slotOf, heq]
    exact h.past hk x hx

/-- A usable candidate is not before the start of the input: a whole chunk has been read before this one, or it is at
or before the cursor. -/
theorem ScanCovers.distance_le (h : ScanCovers A sink₀ len s) (hin : s.cursor < s.border) {b : BitVec 13}
    {p : BitVec 14} (hp : p ∈ candidates s b) (hd : distance s.cursor p ≤ 8192) :
    distance s.cursor p ≤ scanPos s := by
  have hrange := h.border
  by_cases hk : s.k = 0
  · have hle := h.candidate_le hk hp
    have hbase : slotBase s = 0 := by rw [slotBase_eq, hk]; rfl
    rw [scanPos, hk, hbase]
    unfold distance
    simp only [Config.NW, Config.W]
    omega
  · unfold scanPos
    omega

/-- The bytes from a usable candidate on are the input bytes that distance before the cursor. Past the end of the ring
the window reads the guard, which mirrors slot 0 (R26). -/
theorem ScanCovers.byte_at_candidate (h : ScanCovers A sink₀ len s) (hin : s.cursor < s.border) {p : BitVec 14}
    (hd : distance s.cursor p ≤ 8192) (hreach : distance s.cursor p ≤ scanPos s) {i : Nat}
    (hi : i < distance s.cursor p) (hmax : i < 255) :
    A[scanPos s - distance s.cursor p + i]? = some (windowByte s (p.toNat + i)) := by
  obtain ⟨hlt, hmod⟩ := h.cursor_add (i := 0) hin
  have hp := p.isLt
  have hrange := h.border
  have hindex : (scanPos s - distance s.cursor p + i) % 16384 = (p.toNat + i) % 16384 := by
    unfold distance at *
    simp only [Config.NW, Config.W] at *
    omega
  rw [h.covers.window _ (by omega) (by unfold scanPos at *; omega), hindex]
  rcases Nat.lt_or_ge (p.toNat + i) 16384 with hring | hguard
  · rw [Nat.mod_eq_of_lt hring]
  · obtain ⟨j, hj⟩ := Nat.exists_eq_add_of_le hguard
    rw [hj, Nat.add_mod_left, Nat.mod_eq_of_lt (by omega)]
    exact congrArg some (h.guard j (by simp only [Config.G]; omega)).symm

/-- An insert or a span of inserts puts no position behind its end into the index. -/
theorem mem_slots_insertSpan {count q : Nat} {x : Nat × BitVec 14} (hx : x ∈ (insertSpan count q s).slots) :
    x ∈ s.slots ∨ x.2.toNat < q + count := by
  induction count generalizing q s with
  | zero => exact .inl hx
  | succ count ih =>
    rcases ih hx with hx | hx
    · rcases Mem.mem_write hx with rfl | hx
      · exact .inr (by rw [BitVec.toNat_ofNat]; omega)
      · exact .inl hx
    · exact .inr (by omega)

theorem ScanCovers.literalStep (h : ScanCovers A sink₀ len s) (hin : s.cursor < s.border) (b : BitVec 13)
    (ht : Scanning len t) (hrun : Machine.literalStep b (searched s) = .ok () t) : ScanCovers A sink₀ len t := by
  have hk : t.k = s.k := by cases hrun; rfl
  have hcursor : t.cursor = s.cursor + 1 := by cases hrun; rfl
  have hpos := scanPos_add hk hcursor h.base_le
  obtain rfl : { insertPos b s.cursor (searched s) with cursor := s.cursor + 1, P := s.P + 1 } = t := by
    cases hrun; rfl
  obtain ⟨hlt, hmod⟩ := h.cursor_add (i := 0) hin
  have hcovers : Covers A sink₀ (scanPos s) (searched s) := { h.covers with }
  have hrun := h.run
  refine ⟨ht, ?_, h.length_eq, fun hk x hx => ?_⟩
  · rw [hpos]
    exact hcovers.literal hlt (by unfold scanPos; show 8192 * s.k ≤ _; omega)
      (by show (s.litStart + s.P) % 16384 = _; omega) b
  · rcases Mem.mem_write hx with rfl | hx
    · show (BitVec.ofNat 14 s.cursor).toNat ≤ s.cursor + 1
      rw [BitVec.toNat_ofNat]
      omega
    · exact Nat.le_succ_of_le (h.past hk x hx)

theorem ScanCovers.matchStep (h : ScanCovers A sink₀ len s) (hin : s.cursor < s.border) (b : BitVec 13)
    (hlong : 3 ≤ (searchMatch s b).bestLen) (ht : Scanning len t)
    (hrun : Machine.matchStep (searchMatch s b).bestDist (searchMatch s b).bestLen (searched s) = .ok () t) :
    ScanCovers A sink₀ len t := by
  obtain ⟨p, hp, hdist, hmin, hmax, hagrees⟩ := exists_candidate_of_best (Nat.lt_of_lt_of_le (Nat.succ_pos 2) hlong)
  have hemitted := emitted_of_best hlong
  have hbest := bestLen_le s b
  generalize (searchMatch s b).bestDist = d, (searchMatch s b).bestLen = l at *
  subst hdist
  have hcovers : Covers A sink₀ (scanPos s) (searched s) := { h.covers with }
  have hreach := h.distance_le hin hp hmax
  have hsame : ∀ i, i < l → A[scanPos s - distance s.cursor p + i]? = A[scanPos s + i]? := fun i hi => by
    have hdist := hagrees.dist
    have hlen := hagrees.max
    rw [h.byte_at_candidate hin hmax hreach (by omega) (by omega), h.byte_at_cursor (by omega)]
    exact congrArg some (hagrees.same i hi).symm
  obtain ⟨u, hu, hmatch⟩ := matchStep_of_quiet hcovers.quiet (distance s.cursor p) l
  rw [hmatch] at hrun
  have htrail : A[scanPos s + l]? = some (windowByte (searched s) ((searched s).cursor + l)) :=
    h.byte_at_cursor (by omega)
  have hput := ((hcovers.flush hu).put hu.P (hemitted _) hreach hsame htrail).matched hu.P l
  generalize hv : ({ u with io := u.io.tail, sink := _ } : State) = v at hrun hput
  have honly : OnlyFlushed (searched s) v := by
    rw [← hv]
    exact OnlyFlushed.trans _ _ _ hu.only rfl
  have hk : v.k = s.k := honly.read_eq (·.k)
  have hcursor : v.cursor = s.cursor := honly.read_eq (·.cursor)
  have hslots : v.slots = s.slots := honly.read_eq (·.slots)
  obtain rfl : matched l v = t := by cases hrun; rfl
  have hk' : (matched l v).k = s.k := by rw [matched_eq, hk]
  have hcursor' : (matched l v).cursor = s.cursor + (l + 1) := by rw [matched_eq, hcursor, Nat.add_assoc]
  refine ⟨ht, ?_, hk' ▸ h.length_eq, fun hzero x hx => ?_⟩
  · rw [scanPos_add hk' hcursor' h.base_le]
    exact hput
  · rw [hcursor']
    rcases mem_slots_insertSpan (show x ∈ (insertSpan (l + 1) v.cursor v).slots from hx) with hx | hx
    · exact Nat.le_add_right_of_le (h.past (hk' ▸ hzero) x (hslots ▸ hx))
    · omega

/-- A scan step goes on, nearer to the border. -/
theorem ScanCovers.scanStep (h : ScanCovers A sink₀ len s) (hin : s.cursor < s.border) :
    ∃ t, Machine.scanStep s = .ok () t ∧ ScanCovers A sink₀ len t ∧ MovesInside s t := by
  have hroom : Room len (s.border - s.cursor - 1) 0 s :=
    { h.toScanning with room := hin, border_le := by omega }
  have hquiet : (searched s).Quiet := h.covers.quiet
  have hstep : Machine.scanStep s = _ := scanStep_eq s
  split at hstep
  · next hlong =>
    obtain ⟨u, -, hrun⟩ := matchStep_of_quiet hquiet (searchMatch s (hashAt s s.cursor)).bestDist
      (searchMatch s (hashAt s s.cursor)).bestLen
    rw [show Machine.matchStep _ _ _ = _ from hrun] at hstep
    obtain ⟨ht, -⟩ := ensures_scanStep.ok hroom hstep
    exact ⟨_, hstep, h.matchStep hin _ hlong ht hrun, movesInside_scanStep hin hstep⟩
  · obtain ⟨ht, -⟩ := ensures_scanStep.ok hroom hstep
    exact ⟨_, hstep, h.literalStep hin _ ht rfl, movesInside_scanStep hin hstep⟩

/-- The scan ends at the border. -/
theorem ScanCovers.scanLoop (h : ScanCovers A sink₀ len s) {fuel : Nat} (hfuel : s.border ≤ s.cursor + fuel) :
    ∃ t, Machine.scanLoop fuel s = .ok () t ∧ ScanCovers A sink₀ len t ∧ t.border ≤ t.cursor := by
  induction fuel generalizing s with
  | zero => exact ⟨s, rfl, h, hfuel⟩
  | succ fuel ih =>
    rcases Nat.lt_or_ge s.cursor s.border with hin | hout
    · obtain ⟨u, hstep, hu, hlt, -, hborder⟩ := h.scanStep hin
      obtain ⟨t, hloop, ht⟩ := ih hu (by omega)
      exact ⟨t, by rw [scanLoop_succ hin, M.bind_of_ok hstep, hloop], ht⟩
    · exact ⟨s, scanLoop_of_done hout _, h, hout⟩

/-- At the border the whole input read so far is covered. -/
theorem ScanCovers.covers_all (h : ScanCovers A sink₀ len s) (hend : s.border ≤ s.cursor) :
    Covers A sink₀ A.length s := by
  have hle := h.cursor_le
  have hborder := h.border_eq
  have hpos : scanPos s = A.length := by
    rw [h.length_eq, scanPos]
    omega
  exact hpos ▸ h.covers

theorem Covers.forceFlush (h : Covers A sink₀ pos s) :
    ∃ t, Machine.forceFlush s = .ok () t ∧ Covers A sink₀ pos t := by
  rcases Nat.lt_or_ge s.P 8192 with hshort | hlong
  · exact ⟨s, forceFlush_of_short hshort, h⟩
  · obtain ⟨t, hrun, ht⟩ := flushLiterals_of_quiet h.quiet
    exact ⟨t, (forceFlush_of_long hlong).trans hrun, h.flush ht⟩

theorem ScanCovers.scanChunk (h : ScanCovers A sink₀ len s) :
    ∃ t, Machine.scanChunk s = .ok () t ∧ Covers A sink₀ A.length t := by
  obtain ⟨u, hloop, hu, hend⟩ := h.scanLoop (Nat.sub_le_iff_le_add'.mp (Nat.le_refl _))
  have hwrap : Covers A sink₀ A.length (wrapCursor u) := by
    rw [wrapCursor_eq]
    exact { hu.covers_all hend with }
  obtain ⟨t, hflush, ht⟩ := hwrap.forceFlush
  refine ⟨t, ?_, ht⟩
  rw [scanChunk_apply, M.bind_of_ok hloop, M.bind_of_ok (M.upd_apply _ _), hflush]

/-! ### The refill cycle -/

/-- The state of a COMPRESS that took its source from `s₀`, before it reads a chunk: it has taken `k` whole chunks and
covered them (R103). -/
structure AtRefill (s₀ s : State) : Prop where
  covers : Covers (ahead (8192 * s.k) s₀) s₀.sink.flatten (8192 * s.k) s
  full : (ahead (8192 * s.k) s₀).length = 8192 * s.k
  before : BeforeRefill s
  past : s.k = 0 → s.slots = []
  source : s.source = (advance (8192 * s.k) s₀).source
  endless : s.endless = (advance (8192 * s.k) s₀).endless

variable {s₀ : State}

/-- The reset of COMPRESS leaves the state before the first chunk (R197). -/
theorem atRefill_resetBlock (hs : s.Quiet) : AtRefill s (resetBlock .compress s) where
  covers := by
    refine ⟨hs, fun i hi => ?_, [], trivial, (List.append_nil _).symm, ?_⟩
    · rw [resetBlock_k, Nat.mul_zero, ahead_zero] at hi
      exact absurd hi (Nat.not_lt_zero i)
    · rw [resetBlock_k, Nat.mul_zero]
      rfl
  full := by rw [resetBlock_k, Nat.mul_zero, ahead_zero]; rfl
  before := beforeRefill_resetBlock .compress s
  past _ := rfl
  source := by rw [resetBlock_k, Nat.mul_zero, advance_zero]; rfl
  endless := by rw [resetBlock_k, Nat.mul_zero, advance_zero]; rfl

/-- The input with the next chunk. -/
theorem AtRefill.ahead_succ (h : AtRefill s₀ s) :
    ahead (8192 * (s.k + 1)) s₀ = ahead (8192 * s.k) s₀ ++ ahead 8192 s := by
  rw [Nat.mul_succ, ahead_add, ahead_congr h.source h.endless]

theorem AtRefill.advance_succ (h : AtRefill s₀ s) :
    (advance (8192 * (s.k + 1)) s₀).source = (advance 8192 s).source ∧
    (advance (8192 * (s.k + 1)) s₀).endless = (advance 8192 s).endless := by
  obtain ⟨hsource, hendless⟩ := advance_congr h.source h.endless 8192
  rw [Nat.mul_succ, advance_add]
  exact ⟨hsource.symm, hendless.symm⟩

/-- The state after the next chunk has been read. -/
def chunkRead (s : State) : State :=
  { advance 8192 s with io := s.io.tail }

/-- The state in which the next chunk is scanned. -/
def nextChunk (s : State) : State :=
  placed (ahead 8192 s) (chunkRead s)

theorem windowByte_nextChunk (hwf : Mem.WF s.wb) {i : Nat} (hi : i < 16384) : windowByte (nextChunk s) i =
    if slotBase s ≤ i ∧ i < slotBase s + (ahead 8192 s).length then (ahead 8192 s).getD (i - slotBase s) 0
    else windowByte s i :=
  windowByte_placeChunk (s := { chunkRead s with n := (ahead 8192 s).length }) hwf _ hi

theorem scanning_nextChunk (h : BeforeRefill s) : Scanning (ahead 8192 s).length (nextChunk s) := by
  obtain ⟨hregs, hcursor, hP⟩ := h
  have hlen := length_ahead_le 8192 s
  have hbefore : BeforeRefill { chunkRead s with n := (ahead 8192 s).length } :=
    ⟨{ hregs with n := hlen }, hcursor, hP⟩
  exact scanning_placeChunk hbefore hlen

/-- The pending run is in the other slot, which the chunk does not reach. -/
theorem pendingBytes_nextChunk (h : BeforeRefill s) : pendingBytes (nextChunk s) s.P = pendingBytes s s.P := by
  obtain ⟨hregs, hcursor, hP⟩ := h
  have hrun := hregs.run
  have hstart := hregs.litStart
  have hbase := slotBase_eq s
  have hlen := length_ahead_le 8192 s
  refine List.map_congr_left fun j hj => ?_
  rw [List.mem_range] at hj
  rw [show (nextChunk s).litStart = s.litStart from rfl, Config.NW, Config.W,
    windowByte_nextChunk hregs.window (Nat.mod_lt _ (by decide)), if_neg]
  split at hbase <;> omega

/-- The window holds the last chunk, in the other slot, and the next one. -/
theorem AtRefill.window_nextChunk (h : AtRefill s₀ s) {i : Nat} (hi : i < (ahead (8192 * (s.k + 1)) s₀).length)
    (hlo : 8192 * s.k ≤ i + 8192) :
    (ahead (8192 * (s.k + 1)) s₀)[i]? = some (windowByte (nextChunk s) (i % 16384)) := by
  have hfull := h.full
  have hbase := slotBase_eq s
  have hlen := length_ahead_le 8192 s
  rw [h.ahead_succ, List.length_append] at hi
  rw [h.ahead_succ, windowByte_nextChunk h.before.1.window (Nat.mod_lt _ (by decide))]
  rcases Nat.lt_or_ge i (8192 * s.k) with hold | hnew
  · rw [List.getElem?_append_left (by omega), if_neg (by split at hbase <;> omega)]
    exact h.covers.window i (by omega) hlo
  · have hindex : i % 16384 = slotBase s + (i - 8192 * s.k) := by split at hbase <;> omega
    rw [List.getElem?_append_right (by omega), hfull, if_pos (by omega), hindex, Nat.add_sub_cancel_left,
      List.getD_eq_getElem _ _ (by omega)]
    exact List.getElem?_eq_getElem (by omega)

/-- The chunk is placed, and the scan begins at its first byte. -/
theorem AtRefill.scanCovers_nextChunk (h : AtRefill s₀ s) :
    ScanCovers (ahead (8192 * (s.k + 1)) s₀) s₀.sink.flatten (ahead 8192 s).length (nextChunk s) := by
  have hscan : scanPos (nextChunk s) = 8192 * s.k := by
    show 8192 * s.k + (s.cursor - slotBase s) = _
    have hcursor := h.before.2.1
    omega
  obtain ⟨ts, hts, hsink, hexpand⟩ := h.covers.tokens
  refine ⟨scanning_nextChunk h.before,
    ⟨quiet_tail h.covers.quiet, fun i => h.window_nextChunk, ts, hts, hsink, ?_⟩, ?_, fun hk x hx => ?_⟩
  · rw [hscan, show (nextChunk s).P = s.P from rfl, pendingBytes_nextChunk h.before, hexpand, h.ahead_succ,
      List.take_append_of_le_length (Nat.le_of_eq h.full.symm)]
  · rw [h.ahead_succ, List.length_append, h.full]
    rfl
  · rw [show (nextChunk s).slots = s.slots from rfl, h.past hk] at hx
    cases hx

/-- The state after the last cycle: the source is read, and all of it is covered. -/
structure AfterLast (s₀ t : State) : Prop where
  ends : s₀.endless = none
  source : t.source = []
  covers : Covers s₀.source s₀.sink.flatten s₀.source.length t

theorem AtRefill.source_ends (h : AtRefill s₀ s) : s.endless = none ↔ s₀.endless = none := by
  rw [h.endless, advance_endless, Option.map_eq_none_iff]

/-- A chunk that is not full is the rest of the source. -/
theorem AtRefill.of_short (h : AtRefill s₀ s) (hshort : (ahead 8192 s).length < 8192) :
    s₀.endless = none ∧ (advance 8192 s).source = [] ∧ ahead (8192 * (s.k + 1)) s₀ = s₀.source := by
  have hs : s.endless = none := by
    by_contra hne
    exact absurd (length_ahead_of_endless hne 8192) (Nat.ne_of_lt hshort)
  have hends := h.source_ends.mp hs
  rw [ahead_of_ends hs, List.length_take] at hshort
  have hrest : (advance 8192 s).source = [] := List.drop_eq_nil_of_le (by omega)
  refine ⟨hends, hrest, ?_⟩
  rw [ahead_of_ends hends]
  exact List.take_of_length_le (List.drop_eq_nil_iff.mp (h.advance_succ.1.trans hrest))

theorem AtRefill.srcRead_eq (h : AtRefill s₀ s) : srcRead 8192 s = .ok (ahead 8192 s) (chunkRead s) :=
  srcRead_of_quiet h.covers.quiet 8192

/-- A chunk that is not full makes the cycle the last one. -/
theorem AtRefill.refillCycle_last (h : AtRefill s₀ s) (hshort : (ahead 8192 s).length < 8192) :
    ∃ t, refillCycle s = .ok true t ∧ AfterLast s₀ t := by
  obtain ⟨hends, hrest, hall⟩ := h.of_short hshort
  by_cases hnil : ahead 8192 s = []
  · refine ⟨{ chunkRead s with n := 0 }, refillCycle_of_empty (hnil ▸ h.srcRead_eq), hends, hrest, ?_⟩
    have hcovers := h.covers
    rw [← hall, h.ahead_succ, hnil, List.append_nil, h.full]
    exact { hcovers with quiet := quiet_tail hcovers.quiet }
  · obtain ⟨t, hrun, ht⟩ := h.scanCovers_nextChunk.scanChunk
    rw [hall] at ht
    exact ⟨t, refillCycle_of_short h.srcRead_eq hnil hrun hshort, hends,
      (scanLeaves_of_scanChunk hrun).source.trans hrest, ht⟩

/-- A full chunk is covered, and the cycle ends before the next refill. -/
theorem AtRefill.refillCycle_full (h : AtRefill s₀ s) (hlong : 8192 ≤ (ahead 8192 s).length) :
    ∃ t, refillCycle s = .ok false t ∧ AtRefill s₀ t ∧ FullCycle s t := by
  obtain ⟨u, hrun, hu⟩ := h.scanCovers_nextChunk.scanChunk
  have hne : ahead 8192 s ≠ [] := fun hnil => by simp [hnil] at hlong
  have hcycle := refillCycle_of_full h.srcRead_eq hne hrun hlong
  have hfull := fullCycle_of_refillCycle hcycle
  have hbefore := (ensures_refillCycle.ok h.before hcycle).2 rfl
  have huk : u.k = s.k := Nat.succ.inj hfull.k
  obtain ⟨hsource, hendless⟩ := h.advance_succ
  have hlength : (ahead (8192 * (s.k + 1)) s₀).length = 8192 * (s.k + 1) := by
    rw [h.ahead_succ, List.length_append, h.full, hfull.full, Nat.mul_succ]
  rw [← huk] at hsource hendless hlength hu
  rw [hlength] at hu
  refine ⟨_, hcycle, ⟨?_, hlength, hbefore, nofun, hfull.source.trans hsource.symm, hfull.endless.trans hendless.symm⟩,
    hfull⟩
  exact { hu with window := fun i hi hlo => hu.window i hi (by dsimp only at hlo; omega) }

/-- With no failing call a cycle goes on to the next refill, or it is the last and the whole source is covered. -/
theorem AtRefill.refillCycle (h : AtRefill s₀ s) : ∃ t,
    (Machine.refillCycle s = .ok false t ∧ AtRefill s₀ t ∧ FullCycle s t) ∨
    (Machine.refillCycle s = .ok true t ∧ AfterLast s₀ t) := by
  rcases Nat.lt_or_ge (ahead 8192 s).length 8192 with hshort | hlong
  · obtain ⟨t, ht⟩ := h.refillCycle_last hshort
    exact ⟨t, .inr ht⟩
  · obtain ⟨t, ht⟩ := h.refillCycle_full hlong
    exact ⟨t, .inl ht⟩

end Sys2Proof.Machine

/-! The whole of COMPRESS (spec/41_compressor.md R101, R120, R122, R126), and both commands on a source that never
ends. -/

namespace Sys2Proof.Machine

/-! ### The whole command (R101, R120, R126) -/

/-- COMPRESS of the source of `s₀` has ended OK in `t`, with tokens in the sink that stand for that source. -/
structure Compressed (s₀ t : State) : Prop where
  result : t.result = .ok
  engine : t.engine = .idle
  source : t.source = []
  P : t.P = 0
  tokens : ∃ ts, Legible [] ts ∧ t.sink.flatten = s₀.sink.flatten ++ Encode.tokens ts ∧ expand ts = s₀.source

variable {s₀ s t : State}

/-- The end flush turns the rest of the input into tokens. -/
theorem AfterLast.compressEnd (h : AfterLast s₀ s) :
    ∃ t, Machine.compressEnd s = .ok () t ∧ Compressed s₀ t := by
  obtain ⟨t, hflush, ht⟩ := flushLiterals_of_quiet h.covers.quiet
  obtain ⟨ts, hts, hsink, hexpand⟩ := (h.covers.flush ht).expand_eq ht.P
  rw [List.take_length] at hexpand
  have hsource : t.source = s.source := ht.only.read_eq (·.source)
  exact ⟨complete t, compressEnd_of_flushed hflush, rfl, rfl, hsource.trans h.source, ht.P, ts, hts, hsink, hexpand⟩

/-- On a source that ends the cycles reach the last one. -/
theorem AtRefill.compressBody (h : AtRefill s₀ s) (hends : s.endless = none) :
    ∃ t, Machine.compressBody s = .ok () t ∧ Compressed s₀ t := by
  induction hn : s.source.length using Nat.strong_induction_on generalizing s with
  | _ n ih =>
    obtain ⟨u, ⟨hcycle, hu, hfull⟩ | ⟨hcycle, hu⟩⟩ := h.refillCycle
    · obtain ⟨huends, hlength⟩ := hfull.of_ends hends
      rw [compressBody_of_full hcycle hends]
      exact ih _ (by omega) hu huends rfl
    · rw [compressBody_of_last hcycle]
      exact hu.compressEnd

/-- COMPRESS of a source that ends, with both streams present and no failing call. -/
theorem exists_compressed (hs : s.Quiet) (hsrc : s.cmd.srcPresent = true) (hsink : s.cmd.sinkPresent = true)
    (hends : s.endless = none) : ∃ t, exec .compress s = .next t ∧ Compressed s t := by
  obtain ⟨t, hrun, ht⟩ := (atRefill_resetBlock hs).compressBody hends
  exact ⟨t, by rw [exec_compress_of_present hsrc hsink, settle_of_ok hrun], ht⟩

/-- Settles O26: the cycles end with the source, and the end flush with the pending run. -/
theorem compressCompletes : Obligations.CompressCompletes := by
  intro s hs hsrc hsink hends
  obtain ⟨t, hrun, ht⟩ := exists_compressed hs hsrc hsink hends
  exact ⟨t, hrun, ht.result, ht.engine, ht.source, ht.P⟩

/-- Settles O29: the tokens cover the source, so each of them stands for the bytes it covers. -/
theorem compressedTokensStandForTheInput : Obligations.CompressedTokensStandForTheInput := by
  intro s t hs hsrc hsink hends hrun
  obtain ⟨u, hu, -, -, -, -, ts, hts, hsinkEq, hexpand⟩ := exists_compressed hs hsrc hsink hends
  obtain rfl : u = t := by rw [hu] at hrun; cases hrun; rfl
  refine ⟨ts, hsinkEq, fun tok htok => wellFormed_of_emitted (hts.emitted tok htok), hexpand, ?_, ?_⟩
  · rintro before after d l b rfl
    obtain ⟨hsame, hlast⟩ := getElem?_of_match hts
    rw [hexpand] at hsame hlast
    exact ⟨(legible_match hts).2, hsame, hlast⟩
  · rintro before after payload rfl
    rw [← hexpand]
    exact take_drop_of_lit payload before after

/-! ### A source that never ends (R122) -/

/-- On a source that never ends every step is a full cycle. -/
theorem AtRefill.compressBody_of_endless (h : AtRefill s₀ s) (hne : s.endless ≠ none) :
    ∃ t, Machine.compressBody s = .ok () t ∧ AtRefill s₀ t ∧ FullCycle s t := by
  obtain ⟨u, ⟨hcycle, hu, hfull⟩ | ⟨-, hu⟩⟩ := h.refillCycle
  · exact ⟨u, Machine.compressBody_of_endless hcycle hne, hu, hfull⟩
  · exact absurd (h.source_ends.mpr hu.ends) hne

/-- The state between two steps of a COMPRESS of a source that never ends, after `m` chunks. -/
structure Running (s₀ : State) (m : Nat) (s : State) : Prop extends AtRefill s₀ s where
  engine : s.engine = .compress
  result : s.result = s₀.result
  k_eq : s.k = m

theorem Running.compressBody {m : Nat} (h : Running s₀ m s) (hne : s₀.endless ≠ none) :
    ∃ t, Machine.compressBody s = .ok () t ∧ Running s₀ (m + 1) t := by
  obtain ⟨t, hrun, ht, hfull⟩ := h.toAtRefill.compressBody_of_endless (mt h.source_ends.mp hne)
  exact ⟨t, hrun, ht, hfull.engine.trans h.engine, hfull.result.trans h.result,
    hfull.k.trans (congrArg (· + 1) h.k_eq)⟩

/-- A run is its first step and the run after it. -/
theorem core_run_succ (C : Host.Core) {a b : C.State} (h : C.step a = .next b) (k : Nat) :
    C.run (k + 1) a = C.run k b := by
  rw [Host.Core.run, h]

theorem run_succ (h : step s = .next t) (k : Nat) :
    Host.Core.run Sys2Proof.core (k + 1) s = Host.Core.run Sys2Proof.core k t :=
  core_run_succ Sys2Proof.core h k

theorem Running.run {m : Nat} (h : Running s₀ m s) (hne : s₀.endless ≠ none) (k : Nat) :
    ∃ u, Host.Core.run Sys2Proof.core k s = .next u ∧ Running s₀ (m + k) u := by
  induction k generalizing m s with
  | zero => exact ⟨s, rfl, h⟩
  | succ k ih =>
    obtain ⟨t, hbody, ht⟩ := h.compressBody hne
    have hstep : step s = .next t := by rw [step_of_compress h.engine, settle_of_ok hbody]
    obtain ⟨u, hrun, hu⟩ := ih ht
    refine ⟨u, (run_succ hstep k).trans hrun, ?_⟩
    rwa [Nat.add_right_comm, Nat.add_assoc] at hu

/-- What has been written and what is pending stand for the chunks taken. -/
theorem Running.tokens {m : Nat} (h : Running s₀ m s) : ∃ ts : List Token, (∀ tok ∈ ts, tok.Emitted) ∧
    s.sink.flatten = s₀.sink.flatten ++ Encode.tokens ts ∧ expand ts ++ pendingBytes s s.P = ahead (8192 * m) s₀ := by
  obtain ⟨ts, hts, hsink, hexpand⟩ := h.covers.tokens
  rw [List.take_of_length_le (Nat.le_of_eq h.full), h.k_eq] at hexpand
  exact ⟨ts, hts.emitted, hsink, hexpand⟩

theorem compress_of_endless_runs (hs : s.Quiet) (hsrc : s.cmd.srcPresent = true) (hsink : s.cmd.sinkPresent = true)
    (hne : s.endless ≠ none) : ∃ t, exec .compress s = .next t ∧ Running s 1 t := by
  have hstart : Running s 0 (resetBlock .compress s) := ⟨atRefill_resetBlock hs, rfl, rfl, rfl⟩
  obtain ⟨t, hbody, ht⟩ := hstart.compressBody hne
  exact ⟨t, by rw [exec_compress_of_present hsrc hsink, settle_of_ok hbody], ht⟩

/-! ### Properties of a running token -/

/-- The token a header byte begins. -/
def tokenOf (b1 : Byte) : M Unit := do
  M.upd fun s => { s with b1 := b1 }
  if b1.getLsbD 0 then litCommand b1 else matchCommand b1

/-- A property of command pieces that a sequence has if its parts have it, and that the primitive pieces of a token
have. -/
structure TokenProperty (Q : ∀ {α : Type}, M α → Prop) : Prop where
  bind : ∀ {α β : Type} {m : M α} {f : α → M β}, Q m → (∀ a, Q (f a)) → Q (m >>= f)
  pure : ∀ {α : Type} (a : α), Q (pure a : M α)
  reads : ∀ {α : Type} (f : State → α), Q (M.reads f)
  fields : ∀ {f : State → State}, (∀ s, f s = withFields (f s) s) → Q (M.upd f)
  byte : Q tokenByte
  check : ∀ {c : Option Corrupt}, c ≠ some .truncatedToken → Q (check c)
  put : ∀ x, Q (ringPut x)

/-- No field check finds a truncated token. -/
theorem checkLitLength_ne (L : BitVec 15) : Decode.checkLitLength L ≠ some .truncatedToken := by
  unfold Decode.checkLitLength
  split <;> nofun

theorem checkDistance_ne (D : BitVec 15) : Decode.checkDistance D ≠ some .truncatedToken := by
  unfold Decode.checkDistance
  split <;> nofun

theorem checkMatchLength_ne (Lm : Byte) : Decode.checkMatchLength Lm ≠ some .truncatedToken := by
  unfold Decode.checkMatchLength
  split <;> nofun

section

variable {Q : ∀ {α : Type}, M α → Prop}

theorem TokenProperty.litPayload (h : TokenProperty Q) (count : Nat) : Q (litPayload count) := by
  induction count with
  | zero => exact h.pure ()
  | succ count ih => exact h.bind h.byte fun x => h.bind (h.put x) fun _ => ih

theorem TokenProperty.copyLoop (h : TokenProperty Q) (D count : Nat) : Q (copyLoop D count) := by
  induction count with
  | zero => exact h.pure ()
  | succ count ih => exact h.bind (h.reads _) fun x => h.bind (h.put x) fun _ => ih

theorem TokenProperty.litCommand (h : TokenProperty Q) (b1 : Byte) : Q (litCommand b1) :=
  h.bind (h.fields fun _ => rfl) fun _ =>
  h.bind h.byte fun _ =>
  h.bind (h.fields fun _ => rfl) fun _ =>
  h.bind (h.check (checkLitLength_ne _)) fun _ =>
  h.bind (h.litPayload _) fun _ => h.fields fun _ => rfl

theorem TokenProperty.matchCommand (h : TokenProperty Q) (b1 : Byte) : Q (matchCommand b1) :=
  h.bind (h.fields fun _ => rfl) fun _ =>
  h.bind h.byte fun _ =>
  h.bind (h.fields fun _ => rfl) fun _ =>
  h.bind (h.check (checkDistance_ne _)) fun _ =>
  h.bind h.byte fun _ =>
  h.bind (h.fields fun _ => rfl) fun _ =>
  h.bind (h.check (checkMatchLength_ne _)) fun _ =>
  h.bind (h.copyLoop _ _) fun _ =>
  h.bind h.byte fun x =>
  h.bind (h.put x) fun _ => h.fields fun _ => rfl

theorem TokenProperty.tokenOf (h : TokenProperty Q) (b1 : Byte) : Q (tokenOf b1) := by
  refine h.bind (h.fields fun _ => rfl) fun _ => ?_
  split
  · exact h.litCommand b1
  · exact h.matchCommand b1

end

/-- The state after `SrcByte` has delivered a byte. -/
def byteRead (s : State) : State :=
  { advance 1 s with io := s.io.tail, inPos := s.inPos + 1 }

/-- A step of a running DECOMPRESS with a byte to come begins with it, unless the read fails. -/
theorem tokenStep_cases (hnext : ahead 1 s ≠ []) : (∃ t, tokenStep s = .error (.io .source) t) ∨
    ∃ b1, tokenStep s = tokenOf b1 (byteRead s) := by
  rcases srcByte_cases s with ⟨d, io, -, hr⟩ | ⟨hend, -⟩ | ⟨b1, -, hr⟩
  · exact .inl ⟨_, M.bind_of_error hr⟩
  · exact absurd hend hnext
  · exact .inr ⟨b1, M.bind_of_ok hr⟩

/-! ### DECOMPRESS of a source that never ends (R158) -/

/-- While the source never ends the piece does not meet its end: it goes on with the engine as it was, or raises an
error other than TruncatedToken. -/
structure NeverEnds {α : Type} (m : M α) : Prop where
  ok : ∀ {s a t}, s.endless ≠ none → m s = .ok a t → t.endless ≠ none ∧ t.engine = s.engine
  error : ∀ {s e t}, s.endless ≠ none → m s = .error e t → e ≠ .corrupt .truncatedToken

theorem NeverEnds.bind {α β : Type} {m : M α} {f : α → M β} (hm : NeverEnds m) (hf : ∀ a, NeverEnds (f a)) :
    NeverEnds (m >>= f) where
  ok hs h := by
    obtain ⟨a, u, hu, ht⟩ := M.bind_eq_ok h
    obtain ⟨hne, hengine⟩ := hm.ok hs hu
    exact ⟨((hf a).ok hne ht).1, ((hf a).ok hne ht).2.trans hengine⟩
  error hs h := by
    rcases M.bind_eq_error h with ht | ⟨a, u, hu, ht⟩
    · exact hm.error hs ht
    · exact (hf a).error (hm.ok hs hu).1 ht

/-- With an endless source the next byte of a token is there, unless the read fails. -/
theorem neverEnds_tokenByte : NeverEnds tokenByte where
  ok {s _ _} hs h := by
    rcases tokenByte_cases s with ⟨d, io, -, hr⟩ | ⟨-, hr⟩ | ⟨x, -, hr⟩ <;> rw [hr] at h <;> cases h
    exact ⟨by simpa using hs, rfl⟩
  error {s _ _} hs h := by
    rcases tokenByte_cases s with ⟨d, io, -, hr⟩ | ⟨hend, -⟩ | ⟨x, -, hr⟩
    · rw [hr] at h
      cases h
      exact nofun
    · exact absurd (ahead_one_eq_nil.mp hend).2 hs
    · rw [hr] at h
      cases h

theorem neverEnds_check {c : Option Corrupt} (hc : c ≠ some .truncatedToken) : NeverEnds (check c) := by
  cases c with
  | none => exact ⟨fun hs h => (by cases h; exact ⟨hs, rfl⟩), fun _ h => (by cases h)⟩
  | some e =>
    refine ⟨fun _ h => (by cases h), fun _ h => ?_⟩
    cases h
    exact fun he => hc (by cases he; rfl)

theorem neverEnds_ringPut (x : Byte) : NeverEnds (ringPut x) where
  ok {s _ _} hs h := by
    rcases ringPut_cases x s with ⟨-, hr⟩ | ⟨-, io, sink, hr | hr⟩ <;> rw [hr] at h <;> cases h
    · exact ⟨hs, rfl⟩
    · exact ⟨hs, rfl⟩
  error {s _ _} hs h := by
    rcases ringPut_cases x s with ⟨-, hr⟩ | ⟨-, io, sink, hr | hr⟩ <;> rw [hr] at h <;> cases h
    exact nofun

theorem tokenProperty_neverEnds : TokenProperty NeverEnds where
  bind := NeverEnds.bind
  pure _ := ⟨fun hs h => (by cases h; exact ⟨hs, rfl⟩), fun _ h => (by cases h)⟩
  reads _ := ⟨fun hs h => (by cases h; exact ⟨hs, rfl⟩), fun _ h => (by cases h)⟩
  fields hf := ⟨fun hs h => (by cases h; rw [hf]; exact ⟨hs, rfl⟩), fun _ h => (by cases h)⟩
  byte := neverEnds_tokenByte
  check := neverEnds_check
  put := neverEnds_ringPut

theorem byteRead_endless (hs : s.endless ≠ none) : (byteRead s).endless ≠ none :=
  mt Option.map_eq_none_iff.mp hs

theorem neverEnds_tokenStep : NeverEnds tokenStep where
  ok {s _ t} hs h := by
    rcases tokenStep_cases (fun hend => hs (ahead_one_eq_nil.mp hend).2) with ⟨u, hr⟩ | ⟨b1, hr⟩ <;> rw [hr] at h
    · cases h
    · obtain ⟨hne, hengine⟩ := (tokenProperty_neverEnds.tokenOf b1).ok (byteRead_endless hs) h
      exact ⟨hne, hengine⟩
  error {s e t} hs h := by
    rcases tokenStep_cases (fun hend => hs (ahead_one_eq_nil.mp hend).2) with ⟨u, hr⟩ | ⟨b1, hr⟩ <;> rw [hr] at h
    · cases h
      exact nofun
    · exact (tokenProperty_neverEnds.tokenOf b1).error (byteRead_endless hs) h

/-- Settles O30: each step of COMPRESS is a full cycle, and a step of DECOMPRESS always finds the next byte. -/
theorem endlessSourceNeverEnds : Obligations.EndlessSourceNeverEnds := by
  refine ⟨fun s hs hsrc hsink hne => ?_, fun s t he hne hstep hidle => ?_⟩
  · obtain ⟨t, hrun, ht⟩ := compress_of_endless_runs hs hsrc hsink hne
    refine ⟨t, hrun, fun k => ?_⟩
    obtain ⟨u, hsteps, hu⟩ := ht.run hne k
    rw [Nat.add_comm] at hu
    exact ⟨u, hsteps, hu.engine, hu.result, hu.k_eq ▸ hu.source, hu.k_eq ▸ hu.endless, hu.tokens⟩
  · rw [step_of_decompress he (fsm_of_step_of_decompress he hstep)] at hstep
    obtain rfl : settle tokenStep s = t := by cases hstep; rfl
    cases hr : tokenStep s with
    | ok _ u =>
      rw [settle_of_ok hr, (neverEnds_tokenStep.ok hne hr).2, he] at hidle
      cases hidle
    | error e u =>
      rw [settle_of_error hr]
      exact ⟨nofun, fun h => neverEnds_tokenStep.error hne hr (by simpa using h)⟩

end Sys2Proof.Machine

/-! DECOMPRESS of a token program with no failing call puts out what the reference `expand` says
(spec/43_decompressor.md R146 to R159), and the round trip (spec/41_compressor.md R126). -/

namespace Sys2Proof.Machine

variable {s t : State}

/-! ### The history of the output (R155, R159) -/

/-- A DECOMPRESS with no failing call to come whose ring is the history of its output. -/
structure HistoryReady (s : State) : Prop extends Ready s where
  history : HistoryOk s

theorem ringByte_of_ringPuts (h : RingPuts 0 s t) (hwf : Mem.WF s.ring) (i : Nat) : ringByte t i = ringByte s i :=
  h.frame hwf _ nofun

/-- After a ring write the byte at distance 1 is the one written, and every other one is one further away. -/
theorem copyByte_storeByte (hwf : Mem.WF s.ring) (x : Byte) {D : Nat} (hpos : 1 ≤ D) (hD : D ≤ 8192) :
    copyByte (storeByte x s) D = if D = 1 then x else copyByte s (D - 1) := by
  have hindex : ((s.wcur + 1) % Config.C % Config.C + Config.C - D) % Config.C =
      (s.wcur % Config.C + Config.C - (D - 1)) % Config.C := by
    simp only [Config.C]
    omega
  rw [copyByte, storeByte_wcur, ringByte_storeByte hwf, hindex]
  by_cases hone : D = 1
  · rw [if_pos hone, if_pos (by simp only [Config.C]; omega)]
  · rw [if_neg hone, if_neg (by simp only [Config.C]; omega), ringByte, hindex]
    rfl

/-- A byte that is put out becomes the last of the history. -/
theorem historyOk_put (hs : HistoryReady s) {x : Byte} (hput : Carries 0 [x] s t)
    (hring : RingPuts 0 (storeByte x s) t) : HistoryOk t := by
  obtain ⟨hlength, hhistory⟩ := hs.history
  have hproduced : t.produced = s.produced + 1 := hput.produced
  have hwf := Mem.wf_write hs.ring (s.wcur % Config.C) x
  refine ⟨by rw [hput.output, hproduced, List.length_append, hlength]; rfl, fun D hpos hD => ?_⟩
  have hcopy : copyByte t D = copyByte (storeByte x s) D := by
    rw [copyByte, copyByte, show t.wcur % Config.C = _ from hring.wcur]
    exact ringByte_of_ringPuts hring hwf _
  rw [hcopy, copyByte_storeByte hs.ring x hpos hD, hput.output, hproduced]
  by_cases hone : D = 1
  · rw [if_pos hone, if_pos (by omega), hone, Nat.add_sub_cancel, ← hlength]
    simp
  · rw [if_neg hone, hhistory (D - 1) (by omega) (by omega)]
    by_cases hin : D ≤ s.produced + 1
    · rw [if_pos hin, if_pos (by omega), List.getD_append _ _ _ _ (by omega)]
      congr 1
      omega
    · rw [if_neg hin, if_neg (by omega)]

theorem ringPut_keeps_history (hs : HistoryReady s) {x : Byte} (h : ringPut x s = .ok () t) : HistoryReady t := by
  obtain ⟨u, hrun, hput, hring⟩ := exists_ringPut hs.toReady x
  obtain rfl : u = t := by rw [hrun] at h; cases h; rfl
  exact ⟨hput.ready, historyOk_put hs hput hring⟩

theorem HistoryReady.read (hs : HistoryReady s) : HistoryReady (byteRead s) :=
  ⟨⟨quiet_tail hs.quiet, hs.counters, hs.ring⟩, hs.history⟩

/-- Where the piece goes on it keeps the history. -/
def KeepsHistory {α : Type} (m : M α) : Prop :=
  Ensures (fun _ => True) HistoryReady m fun _ => HistoryReady

theorem keepsHistory_tokenByte : KeepsHistory tokenByte := by
  refine ⟨fun {s x t} hs h => ?_, fun _ _ => trivial⟩
  rcases tokenByte_cases s with ⟨d, io, -, hr⟩ | ⟨-, hr⟩ | ⟨b, -, hr⟩ <;> rw [hr] at h <;> cases h
  exact hs.read

theorem tokenProperty_keepsHistory : TokenProperty KeepsHistory where
  bind hm hf := Ensures.bind hm hf
  pure _ := ensures_pure fun _ hs => hs
  reads _ := ensures_reads fun _ hs => hs
  fields hf := ensures_upd fun s hs => hf s ▸ ⟨(carries_withFields hs.toReady _).ready, hs.history⟩
  byte := keepsHistory_tokenByte
  check {c} _ := by
    cases c with
    | none => exact ensures_pure fun _ hs => hs
    | some e => exact ensures_raise fun _ _ => trivial
  put _ := ⟨fun hs h => ringPut_keeps_history hs h, fun _ _ => trivial⟩

/-- A copy out of the ring puts out what the copy on lists appends (R152, R159). -/
theorem expandCopy_output {D : Nat} (hD : 1 ≤ D ∧ D ≤ 8192) (len : Nat) (hs : HistoryReady s) :
    expandCopy D len s.output = s.output ++ copied s D len := by
  induction len generalizing s with
  | zero => exact (List.append_nil _).symm
  | succ len ih =>
    obtain ⟨t, -, hput, hring⟩ := exists_ringPut hs.toReady (copyByte s D)
    obtain ⟨hlength, hhistory⟩ := hs.history
    have hcopied := copied_of_ringPuts hring (Mem.wf_write hs.ring _ _) D len
    rw [expandCopy, hlength, ← hhistory D hD.1 hD.2, ← hput.output, ih ⟨hput.ready, historyOk_put hs hput hring⟩,
      hput.output, copied_succ hs.ring hD, hcopied, List.append_assoc]
    rfl

theorem expandToken_output (hs : HistoryReady s) {tok : Token} (hwf : tok.WellFormed) :
    expandToken s.output tok = s.output ++ tokenOutput s tok := by
  cases tok with
  | lit payload => rfl
  | matchTok D len b =>
    obtain ⟨hpos, hle, -⟩ := hwf
    rw [expandToken, expandCopy_output ⟨hpos, hle⟩ len hs, tokenOutput, List.append_assoc]

/-! ### A token program (R146, R158) -/

/-- A running DECOMPRESS at a token boundary whose source is the token program `ts`. -/
structure AtProgram (ts : List Token) (s : State) : Prop extends HistoryReady s where
  engine : s.engine = .decompress
  fsm : s.fsm = .readTokenHeader
  source : s.source = Encode.tokens ts
  endless : s.endless = none

/-- A step that begins with a header byte keeps the history. -/
theorem HistoryReady.of_tokenStep (hs : HistoryReady s) (hnext : ahead 1 s ≠ []) (h : tokenStep s = .ok () t) :
    HistoryReady t := by
  rcases tokenStep_cases hnext with ⟨u, hr⟩ | ⟨b1, hr⟩ <;> rw [hr] at h
  · cases h
  · exact (tokenProperty_keepsHistory.tokenOf b1).ok hs.read h

theorem AtProgram.step_cons {tok : Token} {ts : List Token} (h : AtProgram (tok :: ts) s) (hwf : tok.WellFormed) :
    ∃ t, step s = .next t ∧ AtProgram ts t ∧ t.output = expandToken s.output tok := by
  have hwire := wireForm_encode hwf
  have hsource : s.source = Encode.token tok ++ Encode.tokens ts := h.source
  have hin : ahead (Encode.token tok).length s = Encode.token tok := by
    rw [ahead_of_ends h.endless, hsource, List.take_left]
  obtain ⟨t, hrun, ht⟩ := carriesOut_tokenStep h.toReady hwire hin
  have hstep : step s = .next t := by rw [step_of_decompress h.engine h.fsm, settle_of_ok hrun]
  have hengine : t.engine = .decompress := ht.engine.trans h.engine
  have hinv := decoderCountersStayConsistent s t (decoderInv_of_boundary ⟨h.fsm, h.counters⟩) hstep
  obtain ⟨hfsm, -⟩ := (decoderInv_iff.mp hinv).2 hengine
  have hnext : ahead 1 s ≠ [] := fun hend => by
    have hnil := (ahead_one_eq_nil.mp hend).1
    rw [hsource, List.append_eq_nil_iff] at hnil
    cases tok <;> cases hnil.1
  have hhistory := h.toHistoryReady.of_tokenStep hnext hrun
  refine ⟨t, hstep, ⟨hhistory, hengine, hfsm, ?_, ?_⟩, ?_⟩
  · rw [ht.source, advance_source, hsource, ← hwire.length_eq, List.drop_left]
  · rw [ht.endless, advance_endless, h.endless]
    rfl
  · rw [ht.output, expandToken_output h.toHistoryReady hwf]

/-- With no failing call Done sends the rest of the output to the sink (R157). -/
theorem doneCommand_of_quiet (hs : s.Quiet) : ∃ t, doneCommand s = .ok () t ∧
    t.result = .ok ∧ t.engine = .idle ∧ t.sink.flatten = s.output := by
  rw [doneCommand, M.bind_of_ok (M.upd_apply _ _), M.bind_of_ok (M.reads_apply _ _), M.bind_of_ok (M.reads_apply _ _)]
  by_cases hrest : s.produced - s.flushed = 0
  · refine ⟨_, congrFun (if_pos hrest) _, rfl, rfl, ?_⟩
    show s.sink.flatten = s.sink.flatten ++ halfBytes s (s.produced - s.flushed)
    rw [hrest]
    exact (List.append_nil _).symm
  · have hwrite := sinkWrite_of_quiet (s := { s with fsm := .done }) hs (halfBytes s (s.produced - s.flushed))
    refine ⟨_, (congrFun (if_neg hrest) _).trans (M.bind_of_ok hwrite), rfl, rfl, ?_⟩
    show (s.sink ++ [halfBytes s (s.produced - s.flushed)]).flatten = s.output
    simp [State.output, State.unflushed]

/-- At the end of the program the command ends OK with its output in the sink. -/
theorem AtProgram.step_nil (h : AtProgram [] s) :
    ∃ t, step s = .next t ∧ t.result = .ok ∧ t.engine = .idle ∧ t.sink.flatten = s.output := by
  have hread : srcByte s = .ok none { s with io := s.io.tail } := by
    rcases srcByte_cases s with ⟨d, io, hio, -⟩ | ⟨-, hr⟩ | ⟨x, hx, -⟩
    · exact absurd hio (not_fail_of_quiet h.quiet)
    · exact hr
    · rw [ahead_one_eq_nil.mpr ⟨h.source, h.endless⟩] at hx
      cases hx
  obtain ⟨t, hrun, hresult⟩ := doneCommand_of_quiet (s := { s with io := s.io.tail }) (quiet_tail h.quiet)
  have htoken : tokenStep s = .ok () t := (M.bind_of_ok hread).trans hrun
  exact ⟨t, by rw [step_of_decompress h.engine h.fsm, settle_of_ok htoken], hresult⟩

/-- The program runs to its end and leaves its output in the sink. -/
theorem AtProgram.run {ts : List Token} (h : AtProgram ts s) (hwf : ∀ tok ∈ ts, tok.WellFormed) :
    ∃ u, Host.Core.run Sys2Proof.core (ts.length + 1) s = .next u ∧
      u.result = .ok ∧ u.engine = .idle ∧ u.sink.flatten = ts.foldl expandToken s.output := by
  induction ts generalizing s with
  | nil =>
    obtain ⟨u, hstep, hu⟩ := h.step_nil
    exact ⟨u, run_succ hstep 0, hu⟩
  | cons tok ts ih =>
    obtain ⟨htok, hts⟩ := List.forall_mem_cons.mp hwf
    obtain ⟨t, hstep, ht, houtput⟩ := h.step_cons htok
    obtain ⟨u, hrun, hu⟩ := ih ht hts
    rw [houtput] at hu
    exact ⟨u, (run_succ hstep _).trans hrun, hu⟩

/-- The start of DECOMPRESS on a token program (R198). -/
theorem atProgram_resetBlock {ts : List Token} (hquiet : s.Quiet) (hsource : s.source = Encode.tokens ts)
    (hendless : s.endless = none) (hsink : s.sink = []) : AtProgram ts (resetBlock .decompress s) := by
  have houtput : (resetBlock .decompress s).output = [] := by
    rw [State.output, resetBlock_sink, hsink]
    rfl
  have hready : Ready (resetBlock .decompress s) :=
    ⟨hquiet, by simp [DecoderOk, Config.H, Config.C], Mem.wf_nil⟩
  refine ⟨⟨hready, ?_, fun D hpos _ => ?_⟩, rfl, rfl, hsource, hendless⟩
  · rw [houtput]
    rfl
  · exact (if_neg (Nat.not_le.mpr hpos)).symm

/-- A host call that decompresses a token program runs to the program's output. -/
theorem run_of_decompress_call {ts : List Token} {io : List IoEvent} (he : s.engine = .idle)
    (hhost : s.host = [⟨⟨1, true, true⟩, Encode.tokens ts, none, io⟩]) (hio : ∀ e ∈ io, e = .ok)
    (hwf : ∀ tok ∈ ts, tok.WellFormed) : ∃ u, Host.Core.run Sys2Proof.core (ts.length + 2) s = .next u ∧
      u.result = .ok ∧ u.engine = .idle ∧ u.sink.flatten = expand ts := by
  generalize hc : (⟨⟨1, true, true⟩, Encode.tokens ts, none, io⟩ : HostCall) = c at hhost
  have hstart : AtProgram ts (resetBlock .decompress (accept c [] s)) := by
    subst hc
    exact atProgram_resetBlock hio rfl rfl rfl
  have hstep : step s = .next (resetBlock .decompress (accept c [] s)) := by
    rw [step_of_call he hhost]
    subst hc
    rfl
  obtain ⟨u, hrun, hresult, hidle, hsink⟩ := hstart.run hwf
  refine ⟨u, (run_succ hstep _).trans hrun, hresult, hidle, hsink.trans ?_⟩
  subst hc
  rfl

/-! ### The round trip (R126) -/

/-- Settles O51: COMPRESS leaves a token program whose output is its input, and DECOMPRESS runs it. -/
theorem decompressOfCompressIsTheInput : Obligations.DecompressOfCompressIsTheInput := by
  intro s t bytes io io' later hio hio' he hhost hstep
  rw [step_of_call he hhost] at hstep
  obtain ⟨u, hrun, hu⟩ :=
    exists_compressed (s := accept ⟨⟨0, true, true⟩, bytes, none, io⟩ later s) hio rfl rfl rfl
  obtain rfl : u = t := by
    rw [show exec (Decode.mode 0) _ = _ from hrun] at hstep
    cases hstep
    rfl
  obtain ⟨ts, hts, hsink, hexpand⟩ := hu.tokens
  have hprogram : u.sink.flatten = Encode.tokens ts := hsink
  obtain ⟨v, hv, hresult, hidle, hout⟩ := run_of_decompress_call
    (s := { u with host := [⟨⟨1, true, true⟩, u.sink.flatten, none, io'⟩] }) hu.engine (by rw [hprogram]) hio'
    fun tok htok => wellFormed_of_emitted (hts.emitted tok htok)
  exact ⟨_, v, hv, hresult, hidle, hout.trans hexpand⟩

end Sys2Proof.Machine

/-! The fields of a token in the stream (spec/42_token_codec.md R131 to R137): their checks, and the bytes the encoders
write. -/

namespace Sys2Proof

/-- Settles O6: the field is a number, of which each check is one range. -/
theorem fieldChecksAcceptTheLegalValues : Obligations.FieldChecksAcceptTheLegalValues := by
  intro b1 b2 b3
  have hfield := Decode.field_toNat b1 b2
  have hbyte : (3 ≤ b3.toNat ∧ b3.toNat ≤ 255) ↔ 3 ≤ b3.toNat := and_iff_left (Nat.le_of_lt_succ b3.isLt)
  refine ⟨hfield, ?_, ?_, ?_⟩
  · rw [Decode.checkLitLength_eq, hfield]
  · rw [Decode.checkDistance_eq, hfield]
  · simp only [Decode.checkMatchLength_eq, hbyte]

/-- The quotient of a 14-bit number by 128 leaves bit 7 of `b2` clear (R131, R132). -/
theorem getLsbD_seven_of_div {n : Nat} (h : n ≤ 16383) : (BitVec.ofNat 8 (n / 128)).getLsbD 7 = false := by
  have hlt : n / 128 < 2 ^ 7 := by omega
  rw [BitVec.getLsbD_ofNat, Nat.testBit_lt_two_pow hlt, Bool.and_false]

/-- Settles O7: the encoders as arithmetic, on lengths and distances of 14 bits. -/
theorem encodersWriteTheFields : Obligations.EncodersWriteTheFields :=
  ⟨fun _ _ hle => ⟨Encode.lit_eq hle, getLsbD_seven_of_div hle⟩,
    fun _ l t _ hle => ⟨Encode.matchTok_eq hle l t, getLsbD_seven_of_div (by omega)⟩⟩

end Sys2Proof

/-! The errors of LIT and MATCH with no failing stream call (spec/42_token_codec.md R134 to R137,
spec/43_decompressor.md R150, R151, spec/60_exceptions.md R175, R179): each at the point where the rule finds it, after
what the rule has put out by then. -/

namespace Sys2Proof.Machine

variable {s t u : State}

/-! ### One field of a token (R137) -/

/-- A field of a token: its byte is read, `f` writes its registers, `c` checks it, and `m` goes on. -/
def fieldThen (f : Byte → State → State) (c : Byte → Option Corrupt) (m : Byte → M Unit) : M Unit := do
  let x ← tokenByte
  M.upd (f x)
  check (c x)
  m x

section

variable {f : Byte → State → State} {c : Byte → Option Corrupt} {m : Byte → M Unit} {x : Byte} (hs : s.Quiet)

include hs

/-- Without its byte no register is written. -/
theorem fieldThen_at_end (hend : ahead 1 s = []) :
    fieldThen f c m s = .error (.corrupt .truncatedToken) { s with io := s.io.tail } :=
  M.bind_of_error (tokenByte_at_end hs hend)

theorem fieldThen_eq (hx : ahead 1 s = [x]) : fieldThen f c m s = (do check (c x); m x) (f x (byteRead s)) :=
  M.bind_of_ok (tokenByte_of_quiet hs hx)

/-- An illegal field is found before anything else is done. -/
theorem fieldThen_of_illegal (hx : ahead 1 s = [x]) {e : Corrupt} (hc : c x = some e) :
    fieldThen f c m s = .error (.corrupt e) (f x (byteRead s)) := by
  rw [fieldThen_eq hs hx, hc]
  rfl

theorem fieldThen_of_legal (hx : ahead 1 s = [x]) (hc : c x = none) :
    fieldThen f c m s = m x (f x (byteRead s)) := by
  rw [fieldThen_eq hs hx, hc]
  rfl

end

/-! ### Truncated tokens -/

/-- From `s` to `t` the source gave `taken` bytes and then ended inside the token, the bytes `put` were put out, and the
state of the decoder is as it was. -/
structure Truncated (taken : Nat) (put : List Byte) (s t : State) : Prop where
  source : t.source = []
  inPos : t.inPos = s.inPos + taken
  output : t.output = s.output ++ put
  fsm : t.fsm = s.fsm

theorem truncated_at_end (hend : ahead 1 s = []) : Truncated 0 [] s { s with io := s.io.tail } where
  source := (ahead_one_eq_nil.mp hend).1
  inPos := rfl
  output := (List.append_nil _).symm
  fsm := rfl

theorem Carries.truncated {j k : Nat} {p q : List Byte} (hst : Carries j p s t) (hfsm : t.fsm = s.fsm)
    (htu : Truncated k q t u) : Truncated (j + k) (p ++ q) s u where
  source := htu.source
  inPos := by rw [htu.inPos, hst.inPos, Nat.add_assoc]
  output := by rw [htu.output, hst.output, List.append_assoc]
  fsm := htu.fsm.trans hfsm

theorem carries_byteRead (hs : Ready s) {x : Byte} (hx : ahead 1 s = [x]) : Carries 1 [] s (byteRead s) := by
  obtain ⟨t, h, hst⟩ := carriesOut_tokenByte hs hx
  rw [tokenByte_of_quiet hs.quiet hx] at h
  cases h
  exact hst

/-- RingPut returns to the token's state (R148). -/
theorem fsm_of_ringPut {x : Byte} (h : ringPut x s = .ok () t) : t.fsm = s.fsm := by
  rcases ringPut_cases x s with ⟨-, hr⟩ | ⟨-, io, sink, hr | hr⟩ <;> rw [hr] at h <;> cases h <;> rfl

theorem fsm_of_copyLoop {D len : Nat} (h : copyLoop D len s = .ok () t) : t.fsm = s.fsm := by
  induction len generalizing s with
  | zero =>
    cases h
    rfl
  | succ len ih =>
    obtain ⟨_, u, hput, hrest⟩ := M.bind_eq_ok (m := ringPut (copyByte s D)) h
    exact (ih hrest).trans (fsm_of_ringPut hput)

/-! ### LIT -/

theorem litCommand_eq (b1 : Byte) (s : State) : litCommand b1 s =
    fieldThen (fun b2 s => { s with b2 := b2, L := Decode.field b1 b2 })
      (fun b2 => Decode.checkLitLength (Decode.field b1 b2))
      (fun b2 => do
        litPayload (Decode.field b1 b2).toNat
        M.upd fun s => { s with fsm := .readTokenHeader })
      { s with fsm := .readLiteralBody } := rfl

/-- A payload that ends early has been put out as far as it goes. -/
theorem litPayload_of_truncated (payload : List Byte) {count : Nat} (hs : Ready s) (hin : ahead count s = payload)
    (hlt : payload.length < count) :
    ∃ t, litPayload count s = .error (.corrupt .truncatedToken) t ∧ Truncated payload.length payload s t := by
  induction payload generalizing s count with
  | nil =>
    obtain ⟨n, rfl⟩ := Nat.exists_eq_add_one_of_ne_zero hlt.ne'
    have hend : ahead 1 s = [] := by rw [← take_ahead (Nat.le_add_left 1 n), hin, List.take_nil]
    exact ⟨_, M.bind_of_error (tokenByte_at_end hs.quiet hend), truncated_at_end hend⟩
  | cons x payload ih =>
    obtain ⟨n, rfl⟩ := Nat.exists_eq_add_one_of_ne_zero (Nat.ne_zero_of_lt hlt)
    rw [Nat.add_comm] at hin
    obtain ⟨hx, hrest⟩ := ahead_one_of_ahead_cons hin
    have hread := carries_byteRead hs hx
    obtain ⟨t, hput, hst⟩ := carriesOut_ringPut hread.ready x
    obtain ⟨u, hrun, htu⟩ := ih hst.ready (by rw [hst.ahead_eq_of_none, hread.ahead_eq, hrest])
      (Nat.lt_of_succ_lt_succ hlt)
    refine ⟨u, ?_, ?_⟩
    · rw [litPayload, M.bind_of_ok (tokenByte_of_quiet hs.quiet hx)]
      exact (M.bind_of_ok hput).trans hrun
    · simpa [Nat.add_comm] using hread.truncated rfl (hst.truncated (fsm_of_ringPut hput) htu)

/-- The state of LIT after its length field. -/
def lengthRead (b1 b2 : Byte) (s : State) : State :=
  { advance 1 s with
    io := s.io.tail, fsm := .readLiteralBody, inPos := s.inPos + 1, b2 := b2, L := Decode.field b1 b2 }

theorem lengthRead_output (b1 b2 : Byte) (s : State) : (lengthRead b1 b2 s).output = s.output := rfl

section

variable {b1 b2 : Byte} (hs : s.Quiet)

include hs

theorem litCommand_at_end (hend : ahead 1 s = []) : litCommand b1 s =
    .error (.corrupt .truncatedToken) { s with io := s.io.tail, fsm := .readLiteralBody } :=
  fieldThen_at_end (s := { s with fsm := .readLiteralBody }) hs hend

/-- A length out of range (R134). -/
theorem litCommand_of_illegal (hb2 : ahead 1 s = [b2])
    (hL : ¬(1 ≤ (Decode.field b1 b2).toNat ∧ (Decode.field b1 b2).toNat ≤ 16383)) :
    litCommand b1 s = .error (.corrupt .invalidLiteralLength) (lengthRead b1 b2 s) :=
  (litCommand_eq b1 s).trans (fieldThen_of_illegal (s := { s with fsm := .readLiteralBody }) hs hb2
    ((Decode.checkLitLength_eq _).trans (if_neg hL)))

/-- A legal length is followed by the payload. -/
theorem litCommand_of_legal (hb2 : ahead 1 s = [b2])
    (hL : 1 ≤ (Decode.field b1 b2).toNat ∧ (Decode.field b1 b2).toNat ≤ 16383) :
    litCommand b1 s = (do
      litPayload (Decode.field b1 b2).toNat
      M.upd fun s => { s with fsm := .readTokenHeader }) (lengthRead b1 b2 s) :=
  (litCommand_eq b1 s).trans (fieldThen_of_legal (s := { s with fsm := .readLiteralBody }) hs hb2
    ((Decode.checkLitLength_eq _).trans (if_pos hL)))

end

theorem exec_lit_of_error {b1 : Byte} {e : Err} (h : litCommand b1 s = .error e t) :
    exec (.lit b1) s = .next (abort e t) :=
  congrArg Host.Outcome.next (settle_of_error h)

/-- Settles O38: the one field of LIT with its three ends, and the payload that runs into the end of the stream. -/
theorem litReportsItsErrors : Obligations.LitReportsItsErrors := by
  intro s b1 hquiet
  refine ⟨fun hend => ?_, fun b2 hb2 hillegal => ?_, fun b2 payload hcounters hwf hin hpos hle hlt => ?_⟩
  · exact exec_lit_of_error (litCommand_at_end hquiet hend)
  · exact exec_lit_of_error (litCommand_of_illegal hquiet hb2 (by omega))
  · obtain ⟨hb2, hin⟩ := ahead_one_of_ahead_cons hin
    have hready : Ready (lengthRead b1 b2 s) := ⟨quiet_tail hquiet, hcounters, hwf⟩
    obtain ⟨t, hrun, h⟩ := litPayload_of_truncated payload hready hin hlt
    have hcommand := (litCommand_of_legal hquiet hb2 ⟨hpos, hle⟩).trans (M.bind_of_error hrun)
    have houtput : t.output = s.output ++ payload := by rw [h.output, lengthRead_output]
    exact ⟨_, exec_lit_of_error hcommand, rfl, rfl, houtput, h.source, h.inPos, h.fsm⟩

/-! ### MATCH -/

/-- The rest of MATCH after its length field: the copy, and then the trailing literal (R151). -/
def copyThenLiteral (D len : Nat) : M Unit := do
  copyLoop D len
  let x ← tokenByte
  ringPut x
  M.upd fun s => { s with fsm := .readTokenHeader }

/-- The rest of MATCH after its distance field. -/
def lengthThenCopy (D : Nat) : M Unit :=
  fieldThen (fun b3 s => { s with Lm := b3 }) Decode.checkMatchLength fun b3 => copyThenLiteral D b3.toNat

theorem matchCommand_eq (b1 : Byte) (s : State) : matchCommand b1 s =
    fieldThen (fun b2 s => { s with b2 := b2, D := Decode.field b1 b2 })
      (fun b2 => Decode.checkDistance (Decode.field b1 b2)) (fun b2 => lengthThenCopy (Decode.field b1 b2).toNat)
      { s with fsm := .readMatchFields } := rfl

/-- The state of MATCH after its distance field. -/
def distanceRead (b1 b2 : Byte) (s : State) : State :=
  { advance 1 s with
    io := s.io.tail, fsm := .readMatchFields, inPos := s.inPos + 1, b2 := b2, D := Decode.field b1 b2 }

/-- The state of MATCH after its length field. -/
def matchFieldsRead (b1 b2 b3 : Byte) (s : State) : State :=
  { advance 2 s with
    io := s.io.tail.tail, fsm := .readMatchFields, inPos := s.inPos + 2, b2 := b2, D := Decode.field b1 b2, Lm := b3 }

/-- The length field is the next byte after the distance field. -/
theorem byteRead_distanceRead (b1 b2 b3 : Byte) (s : State) :
    { byteRead (distanceRead b1 b2 s) with Lm := b3 } = matchFieldsRead b1 b2 b3 s := by
  rw [matchFieldsRead, advance_add 1 1]
  rfl

theorem matchFieldsRead_output (b1 b2 b3 : Byte) (s : State) : (matchFieldsRead b1 b2 b3 s).output = s.output := rfl

theorem copied_matchFieldsRead (b1 b2 b3 : Byte) (s : State) (D len : Nat) :
    copied (matchFieldsRead b1 b2 b3 s) D len = copied s D len := rfl

section

variable {b1 b2 b3 : Byte} (hs : s.Quiet)

include hs

theorem matchCommand_at_end (hend : ahead 1 s = []) : matchCommand b1 s =
    .error (.corrupt .truncatedToken) { s with io := s.io.tail, fsm := .readMatchFields } :=
  fieldThen_at_end (s := { s with fsm := .readMatchFields }) hs hend

/-- A distance out of range (R135). -/
theorem matchCommand_of_illegal_distance (hb2 : ahead 1 s = [b2])
    (hD : ¬(1 ≤ (Decode.field b1 b2).toNat ∧ (Decode.field b1 b2).toNat ≤ 8192)) :
    matchCommand b1 s = .error (.corrupt .invalidMatchDistance) (distanceRead b1 b2 s) :=
  (matchCommand_eq b1 s).trans (fieldThen_of_illegal (s := { s with fsm := .readMatchFields }) hs hb2
    ((Decode.checkDistance_eq _).trans (if_neg hD)))

variable (hD : 1 ≤ (Decode.field b1 b2).toNat ∧ (Decode.field b1 b2).toNat ≤ 8192)

include hD

/-- A legal distance is followed by the length field. -/
theorem matchCommand_of_legal_distance (hb2 : ahead 1 s = [b2]) :
    matchCommand b1 s = lengthThenCopy (Decode.field b1 b2).toNat (distanceRead b1 b2 s) :=
  (matchCommand_eq b1 s).trans (fieldThen_of_legal (s := { s with fsm := .readMatchFields }) hs hb2
    ((Decode.checkDistance_eq _).trans (if_pos hD)))

theorem matchCommand_of_no_length (hin : ahead 2 s = [b2]) : matchCommand b1 s =
    .error (.corrupt .truncatedToken) { distanceRead b1 b2 s with io := s.io.tail.tail } := by
  obtain ⟨hb2, hend⟩ := ahead_one_of_ahead_cons (n := 1) hin
  rw [matchCommand_of_legal_distance hs hD hb2]
  exact fieldThen_at_end (s := distanceRead b1 b2 s) (quiet_tail hs) hend

/-- A match length out of range (R136). -/
theorem matchCommand_of_illegal_length (hin : ahead 2 s = [b2, b3]) (hlength : ¬3 ≤ b3.toNat) :
    matchCommand b1 s = .error (.corrupt .invalidMatchLength) (matchFieldsRead b1 b2 b3 s) := by
  obtain ⟨hb2, hb3⟩ := ahead_one_of_ahead_cons (n := 1) hin
  rw [matchCommand_of_legal_distance hs hD hb2, ← byteRead_distanceRead]
  exact fieldThen_of_illegal (s := distanceRead b1 b2 s) (quiet_tail hs) hb3
    ((Decode.checkMatchLength_eq _).trans (if_neg hlength))

/-- Legal fields are followed by the copy. -/
theorem matchCommand_of_legal (hin : ahead 2 s = [b2, b3]) (hlength : 3 ≤ b3.toNat) :
    matchCommand b1 s = copyThenLiteral (Decode.field b1 b2).toNat b3.toNat (matchFieldsRead b1 b2 b3 s) := by
  obtain ⟨hb2, hb3⟩ := ahead_one_of_ahead_cons (n := 1) hin
  rw [matchCommand_of_legal_distance hs hD hb2, ← byteRead_distanceRead]
  exact fieldThen_of_legal (s := distanceRead b1 b2 s) (quiet_tail hs) hb3
    ((Decode.checkMatchLength_eq _).trans (if_pos hlength))

end

theorem exec_match_of_error {b1 : Byte} {e : Err} (h : matchCommand b1 s = .error e t) :
    exec (.matchTok b1) s = .next (abort e t) :=
  congrArg Host.Outcome.next (settle_of_error h)

/-- A copy whose trailing byte is missing has been put out. -/
theorem copyThenLiteral_of_truncated (hs : Ready s) {D : Nat} (hD : 1 ≤ D ∧ D ≤ 8192) (len : Nat)
    (hend : ahead 1 s = []) : ∃ t, copyThenLiteral D len s = .error (.corrupt .truncatedToken) t ∧
      Truncated 0 (copied s D len) s t := by
  obtain ⟨t, hcopy, hst⟩ := carriesOut_copyLoop hD len hs
  rw [← hst.ahead_eq_of_none] at hend
  exact ⟨_, (M.bind_of_ok hcopy).trans (M.bind_of_error (tokenByte_at_end hst.ready.quiet hend)),
    by simpa using hst.truncated (fsm_of_copyLoop hcopy) (truncated_at_end hend)⟩

/-- Settles O39: the distance field, then the length field, then the trailing byte, each with the end of the stream in
its place; a field is illegal before the next one is read. -/
theorem matchReportsItsErrors : Obligations.MatchReportsItsErrors := by
  intro s b1 hquiet
  refine ⟨fun hend => ?_, fun b2 hb2 hillegal => ?_, fun b2 hin hpos hle => ?_, fun b2 b3 hin hpos hle hshort => ?_,
    fun b2 b3 hcounters hwf hin hpos hle hlong => ?_⟩
  · exact exec_match_of_error (matchCommand_at_end hquiet hend)
  · exact exec_match_of_error (matchCommand_of_illegal_distance hquiet hb2 (by omega))
  · exact exec_match_of_error (matchCommand_of_no_length hquiet ⟨hpos, hle⟩ hin)
  · exact exec_match_of_error (matchCommand_of_illegal_length hquiet ⟨hpos, hle⟩ hin (by omega))
  · have hfields : ahead 2 s = [b2, b3] := by
      rw [← take_ahead (Nat.le_succ 2), hin]
      rfl
    have hend : ahead 1 (advance 2 s) = [] := by
      rw [ahead_add 2 1, hfields] at hin
      exact List.append_cancel_left hin
    have hready : Ready (matchFieldsRead b1 b2 b3 s) :=
      ⟨fun e he => quiet_tail hquiet e (List.mem_of_mem_tail he), hcounters, hwf⟩
    obtain ⟨t, hrun, h⟩ := copyThenLiteral_of_truncated hready ⟨hpos, hle⟩ b3.toNat hend
    have hcommand := (matchCommand_of_legal hquiet ⟨hpos, hle⟩ hfields hlong).trans hrun
    have houtput : t.output = s.output ++ copied s (Decode.field b1 b2).toNat b3.toNat := by
      rw [h.output, matchFieldsRead_output, copied_matchFieldsRead]
    exact ⟨_, exec_match_of_error hcommand, rfl, rfl, houtput, h.source, h.inPos, h.fsm⟩

end Sys2Proof.Machine

/-! The ring write, the copy and the two tokens, with no failing call (spec/43_decompressor.md R150 to R156): what the
ring and the field registers hold after them. -/

namespace Sys2Proof.Machine

variable {s t u : State}

/-! ### RingPut (R154, R156) -/

/-- A RingPut that goes on has stored the byte, and flushed the half the byte completes (R154, R156). -/
theorem ringPut_eq_ok {x : Byte} (h : ringPut x s = .ok () t) :
    let cursor := (s.wcur + 1) % Config.C
    (¬(cursor = Config.H ∨ cursor = 0) ∧ t = storeByte x s) ∨
    ((cursor = Config.H ∨ cursor = 0) ∧ t = { storeByte x s with
      io := s.io.tail, sink := s.sink ++ [halfBytes (storeByte x s) Config.H]
      flushed := s.flushed + Config.H, nextHalf := 1 - s.nextHalf }) := by
  rw [ringPut_eq] at h
  rcases maybeFlush_cases { storeByte x s with fsm := .maybeFlush } with
    ⟨hin, hm⟩ | ⟨hend, ⟨d, io, -, hm⟩ | hm⟩ <;> rw [hm] at h <;> cases h
  · exact .inl ⟨hin, rfl⟩
  · exact .inr ⟨hend, rfl⟩

/-- The first bytes of a half stand at its own addresses. -/
theorem halfBytes_eq (s : State) {len : Nat} (hlen : len ≤ 4096) :
    halfBytes s len = (List.range len).map fun j => Mem.read s.ring (s.nextHalf.toNat * 4096 + j) := by
  refine List.map_congr_left fun j hj => ?_
  have hj := List.mem_range.mp hj
  have hhalf := s.nextHalf.isLt
  rw [ringByte, Nat.mod_eq_of_lt (by simp only [Config.H, Config.C]; omega)]
  rfl

/-- Settles O34: the byte is stored and put out, and a half it completes is flushed. -/
theorem ringPutAppendsOneByte : Obligations.RingPutAppendsOneByte := by
  intro s x hquiet hcounters hring
  obtain ⟨t, hrun, hput, hstored⟩ := exists_ringPut ⟨hquiet, hcounters, hring⟩ x
  have hlt : s.wcur < Config.C := hcounters.1 ▸ Nat.mod_lt _ (by decide)
  have hread (a : Nat) : Mem.read t.ring a = if a = s.wcur then x else Mem.read s.ring a := by
    rw [hstored.frame (Mem.wf_write hring _ x) a nofun, storeByte_ring, Mem.read_write hring, Nat.mod_eq_of_lt hlt]
  have hsame : Mem.read t.ring s.wcur = x := by rw [hread, if_pos rfl]
  have hother (a : Nat) (ha : a ≠ s.wcur) : Mem.read t.ring a = Mem.read s.ring a := by rw [hread, if_neg ha]
  have hfsm := fsm_of_ringPut hrun
  rcases ringPut_eq_ok hrun with ⟨hin, rfl⟩ | ⟨hend, rfl⟩
  · exact ⟨_, hrun, rfl, rfl, hfsm, hsame, hother, fun hend => absurd hend hin, fun _ => ⟨rfl, rfl, rfl⟩,
      hput.ready.counters, hput.output⟩
  · have hflush := congrArg (fun half => s.sink ++ [half]) (halfBytes_eq (storeByte x s) (Nat.le_refl 4096))
    exact ⟨_, hrun, rfl, rfl, hfsm, hsame, hother, fun _ => ⟨hflush, rfl, rfl⟩, fun hin => absurd hend hin,
      hput.ready.counters, hput.output⟩

/-! ### The copy (R152) -/

theorem length_copied (s : State) (D len : Nat) : (copied s D len).length = len := by
  simp [copied]

theorem getD_copied (s : State) (D : Nat) {i len : Nat} (hi : i < len) :
    (copied s D len).getD i 0 = ringByte s (s.wcur % Config.C + Config.C - D + i % D) := by
  simp [copied, hi]

theorem Carries.wcur_eq {taken : Nat} {put : List Byte} (h : Carries taken put s t) :
    t.wcur = (s.wcur + put.length) % Config.C := by
  have hcursor : t.wcur % Config.C = t.wcur := by rw [h.ready.counters.1, Nat.mod_mod]
  exact hcursor.symm.trans h.wcur

/-- Settles O35: the copy puts out `copied`, whose byte `i` depends on `i` modulo `D`. -/
theorem copyRepeatsTheLastBytes : Obligations.CopyRepeatsTheLastBytes := by
  intro s D len hquiet hcounters hring hpos hD _ _
  obtain ⟨t, hrun, ht⟩ := carriesOut_copyLoop ⟨hpos, hD⟩ len ⟨hquiet, hcounters, hring⟩
  have hlength := length_copied s D len
  refine ⟨t, copied s D len, hrun, hlength, ht.output, fun i hi hlt => ?_, fun i hi hle => ?_, ?_, ?_,
    ht.ready.counters⟩
  · have hcursor : s.wcur % Config.C = s.wcur := by rw [hcounters.1, Nat.mod_mod]
    rw [getD_copied s D hi, Nat.mod_eq_of_lt hlt, hcursor]
    rfl
  · rw [getD_copied s D hi, getD_copied s D (Nat.lt_of_le_of_lt (Nat.sub_le i D) hi), Nat.mod_eq_sub_mod hle]
  · rw [ht.produced, hlength]
  · rw [ht.wcur_eq, hlength]
    rfl

/-! ### LIT and MATCH (R150, R151) -/

/-- Where `m` answers it leaves a state in `P`. -/
def AnswersIn (P : State → Prop) (m : M Unit) : Prop :=
  ∀ s t, m s = .ok () t → P t

/-- A sequence answers where its last part does. -/
theorem AnswersIn.bind {α : Type} {P : State → Prop} {m : M α} {f : α → M Unit} (hf : ∀ a, AnswersIn P (f a)) :
    AnswersIn P (m >>= f) := by
  intro s t h
  obtain ⟨a, u, -, h⟩ := M.bind_eq_ok h
  exact hf a u t h

theorem answersIn_upd {P : State → Prop} {f : State → State} (h : ∀ s, P (f s)) : AnswersIn P (M.upd f) := by
  rintro s _ ⟨⟩
  exact h s

/-- A token that runs to its end is followed by ReadTokenHeader (R148). -/
theorem answersIn_litCommand (b1 : Byte) : AnswersIn (·.fsm = .readTokenHeader) (litCommand b1) :=
  .bind fun _ => .bind fun _ => .bind fun _ => .bind fun _ => .bind fun _ => answersIn_upd fun _ => rfl

theorem answersIn_matchCommand (b1 : Byte) : AnswersIn (·.fsm = .readTokenHeader) (matchCommand b1) :=
  .bind fun _ => .bind fun _ => .bind fun _ => .bind fun _ => .bind fun _ => .bind fun _ => .bind fun _ =>
  .bind fun _ => .bind fun _ => .bind fun _ => answersIn_upd fun _ => rfl

/-- The registers a token writes before it puts bytes out (R42). -/
def fieldsOf (s : State) : State :=
  { State.reset with b2 := s.b2, L := s.L, D := s.D, Lm := s.Lm }

theorem leaves_fieldsOf_iff : Leaves fieldsOf s t ↔ t.b2 = s.b2 ∧ t.L = s.L ∧ t.D = s.D ∧ t.Lm = s.Lm := by
  simp [Leaves, fieldsOf]

theorem tokenPieces_leaves_fieldsOf : TokenPieces (Leaves fieldsOf) :=
  tokenPieces_leaves fun _ _ => rfl

theorem Keeps.of_ok {α : Type} {R : State → State → Prop} {m : M α} {a : α} (hm : Keeps R m) (h : m s = .ok a t) :
    R s t := by
  simpa only [h] using hm s

/-- The ring after bytes are put: each of the last `C` of them at its own address. -/
def RingHolds (bytes : List Byte) (s t : State) : Prop :=
  ∀ j, j < bytes.length → bytes.length ≤ j + Config.C → Mem.read t.ring ((s.wcur + j) % Config.C) = bytes.getD j 0

/-- A byte stays in the ring until `C` more are put. -/
theorem RingHolds.cons {x : Byte} {bytes : List Byte} (hwf : Mem.WF s.ring) (hput : RingPuts 0 (storeByte x s) t)
    (hputs : RingPuts bytes.length t u) (h : RingHolds bytes t u) : RingHolds (x :: bytes) s u := by
  have haddr (j : Nat) : (t.wcur + j) % Config.C = (s.wcur + (j + 1)) % Config.C := by
    have hcursor : t.wcur ≡ s.wcur + 1 [MOD Config.C] := (ringPuts_storeByte s x).trans hput |>.wcur
    rw [hcursor.add_right j, Nat.add_assoc, Nat.add_comm 1]
  have hwf' : Mem.WF t.ring := hput.wf (Mem.wf_write hwf _ x)
  intro j hj hlast
  rw [List.length_cons] at hj hlast
  cases j with
  | zero =>
    have hkept : ∀ k, k < bytes.length → (s.wcur + 0) % Config.C ≠ (t.wcur + k) % Config.C := by
      intro k hk
      rw [haddr]
      simp only [Config.C] at hlast ⊢
      omega
    rw [hputs.frame hwf' _ hkept, hput.frame (Mem.wf_write hwf _ x) _ nofun]
    exact Mem.read_write_same hwf _ x
  | succ j =>
    rw [← haddr, h j (by omega) (by omega)]
    rfl

theorem ringHolds_of_litPayload (payload : List Byte) (hs : Ready s) (hin : ahead payload.length s = payload)
    (h : litPayload payload.length s = .ok () t) : RingHolds payload s t := by
  induction payload generalizing s with
  | nil => exact fun _ hj => absurd hj (Nat.not_lt_zero _)
  | cons x payload ih =>
    rw [List.length_cons, Nat.add_comm] at hin
    obtain ⟨hx, hrest⟩ := ahead_one_of_ahead_cons hin
    have hread := carries_byteRead hs hx
    obtain ⟨u, hput, hu, hstored⟩ := exists_ringPut hread.ready x
    have hin' : ahead payload.length u = payload := by rw [hu.ahead_eq_of_none, hread.ahead_eq, hrest]
    have hfirst : litPayload (payload.length + 1) s = litPayload payload.length u :=
      (M.bind_of_ok (tokenByte_of_quiet hs.quiet hx)).trans (M.bind_of_ok hput)
    rw [List.length_cons, hfirst] at h
    obtain ⟨v, hrun, hv⟩ := carriesOut_litPayload payload hu.ready hin'
    obtain rfl : v = t := by rw [hrun] at h; cases h; rfl
    exact RingHolds.cons (s := byteRead s) hread.ready.ring hstored hv.toRingPuts (ih hu.ready hin' hrun)

/-- Settles O36: the length field is legal, and the payload after it is put out. -/
theorem litPutsOutItsPayload : Obligations.LitPutsOutItsPayload := by
  intro s b1 b2 payload hquiet hcounters hring hin hlength hpos hle
  have hs : Ready s := ⟨hquiet, hcounters, hring⟩
  obtain ⟨t, hrun, ht⟩ := carriesOut_litCommand hs hin hlength ⟨hpos, hle⟩
  obtain ⟨hb2, hpayload⟩ := ahead_one_of_ahead_cons hin
  have hlegal := hrun
  rw [litCommand_of_legal hquiet hb2 (hlength ▸ ⟨hpos, hle⟩), hlength] at hlegal
  obtain ⟨_, u, hu, hend⟩ := M.bind_eq_ok hlegal
  obtain rfl : { u with fsm := .readTokenHeader } = t := by cases hend; rfl
  have hread : Ready (lengthRead b1 b2 s) := ⟨quiet_tail hquiet, hcounters, hring⟩
  have hholds : RingHolds payload (lengthRead b1 b2 s) u := ringHolds_of_litPayload payload hread hpayload hu
  obtain ⟨hb2', hL, -⟩ := leaves_fieldsOf_iff.mp ((keeps_litPayload tokenPieces_leaves_fieldsOf _).of_ok hu)
  exact ⟨_, congrArg Host.Outcome.next (settle_of_ok hrun), ht.output, ht.source, ht.endless,
    ht.inPos.trans (Nat.add_assoc ..).symm, ht.produced, ht.wcur_eq, hholds,
    ht.ready.counters, rfl, ht.engine, ht.result, hb2', hL⟩

theorem keeps_copyThenLiteral {R : State → State → Prop} (h : TokenPieces R) (D len : Nat) :
    Keeps R (copyThenLiteral D len) :=
  keeps_bind h.trans (keeps_copyLoop h D len) fun _ =>
  keeps_bind h.trans (keeps_tokenByte h) fun x =>
  keeps_bind h.trans (keeps_ringPut h x) fun _ => keeps_upd fun s => h.fsm s _

/-- Settles O37: the two fields are legal, and the copy and the trailing literal after them are put out. -/
theorem matchPutsOutCopyAndLiteral : Obligations.MatchPutsOutCopyAndLiteral := by
  intro s b1 b2 b3 b4 hquiet hcounters hring hin hpos hle hlong
  obtain ⟨t, hrun, ht⟩ := carriesOut_matchCommand ⟨hquiet, hcounters, hring⟩ hin ⟨hpos, hle⟩ hlong
  have hfields : ahead 2 s = [b2, b3] := by
    rw [← take_ahead (Nat.le_succ 2), hin]
    rfl
  have hlegal := hrun
  rw [matchCommand_of_legal hquiet ⟨hpos, hle⟩ hfields hlong] at hlegal
  obtain ⟨hb2, -, hD, hLm⟩ :=
    leaves_fieldsOf_iff.mp ((keeps_copyThenLiteral tokenPieces_leaves_fieldsOf _ _).of_ok hlegal)
  have hlength : (copied s (Decode.field b1 b2).toNat b3.toNat ++ [b4]).length = b3.toNat + 1 := by
    rw [List.length_append, length_copied]
    rfl
  refine ⟨t, congrArg Host.Outcome.next (settle_of_ok hrun), ?_, ht.source, ht.endless, ht.inPos, ?_, ?_,
    ht.ready.counters, answersIn_matchCommand b1 _ _ hrun, ht.engine, ht.result, hb2, hD, hLm⟩
  · rw [ht.output, List.append_assoc]
  · rw [ht.produced, hlength, Nat.add_assoc]
  · rw [ht.wcur_eq, hlength]
    rfl

end Sys2Proof.Machine

/-! How a token and a step of DECOMPRESS end (spec/43_decompressor.md R146 to R160, spec/60_exceptions.md R171 to R176):
the step that is fetched, the errors of each token, and what the sink has got by then. -/

namespace Sys2Proof.Machine

variable {α β : Type} {s t : State}

/-! ### The fetch (R149) -/

theorem srcByte_of_quiet (hs : s.Quiet) {x : Byte} (hx : ahead 1 s = [x]) : srcByte s = .ok (some x) (byteRead s) := by
  rcases srcByte_cases s with ⟨d, io, hio, -⟩ | ⟨hend, -⟩ | ⟨y, hy, hr⟩
  · exact absurd hio (not_fail_of_quiet hs)
  · simp [hx] at hend
  · obtain rfl : x = y := by simpa [hx] using hy
    exact hr

theorem srcByte_at_end (hs : s.Quiet) (hend : ahead 1 s = []) : srcByte s = .ok none { s with io := s.io.tail } := by
  rcases srcByte_cases s with ⟨d, io, hio, -⟩ | ⟨-, hr⟩ | ⟨y, hy, -⟩
  · exact absurd hio (not_fail_of_quiet hs)
  · exact hr
  · simp [hend] at hy

/-- A step of a running DECOMPRESS: its read fails, the stream ends, or the token of the header byte runs. -/
theorem tokenStep_read_cases (s : State) :
    (∃ io, tokenStep s = .error (.io .source) { s with io := io }) ∨
    tokenStep s = doneCommand { s with io := s.io.tail } ∨ ∃ b1, tokenStep s = tokenOf b1 (byteRead s) := by
  rcases srcByte_cases s with ⟨d, io, -, hr⟩ | ⟨-, hr⟩ | ⟨b1, -, hr⟩
  · exact .inl ⟨io, M.bind_of_error hr⟩
  · exact .inr (.inl (M.bind_of_ok hr))
  · exact .inr (.inr ⟨b1, M.bind_of_ok hr⟩)

/-- Settles O43: the three fetches, of which the third reads the header byte. -/
theorem stepRunsTheFetchedInstruction : Obligations.StepRunsTheFetchedInstruction := by
  refine ⟨fun s he hh => ?_, fun s c later => step_of_call, fun s b1 he hf hquiet hb1 => ?_⟩
  · simp only [step, fetch, he, hh]
  · simp only [step, fetch, he, if_pos hf, fetchToken, srcByte_of_quiet hquiet hb1]
    rfl

/-! ### A failing read (R176) -/

section

variable {d : Nat} {io : List IoEvent} (hio : s.io = .fail d :: io)

include hio

theorem srcByte_of_fail : srcByte s = .error (.io .source) { s with io := io } := by
  simp only [srcByte, hio]

theorem srcRead_of_fail (n : Nat) : srcRead n s = .error (.io .source) { s with io := io } := by
  simp only [srcRead, hio]

theorem fieldThen_of_fail {f : Byte → State → State} {c : Byte → Option Corrupt} {m : Byte → M Unit} :
    fieldThen f c m s = .error (.io .source) { s with io := io } :=
  M.bind_of_error (M.bind_of_error (srcByte_of_fail hio))

end

/-- Settles O49: the first stream call of each instruction fails. -/
theorem failedReadEndsTheCommand : Obligations.FailedReadEndsTheCommand := by
  intro s d io b1 hio
  refine ⟨fun he hf => ?_, ?_, ?_, fun hsrc hsink => ?_⟩
  · have hread : tokenStep s = .error (.io .source) { s with io := io } := M.bind_of_error (srcByte_of_fail hio)
    rw [step_of_decompress he hf, settle_of_error hread]
    rfl
  · exact exec_lit_of_error (fieldThen_of_fail (s := { s with fsm := .readLiteralBody }) hio)
  · exact exec_match_of_error (fieldThen_of_fail (s := { s with fsm := .readMatchFields }) hio)
  · have hread := srcRead_of_fail (s := resetBlock .compress s) hio 8192
    rw [exec_compress_of_present hsrc hsink,
      settle_of_error (compressBody_of_error (refillCycle_of_failed_read hread))]
    exact ⟨_, rfl, rfl, rfl, rfl, rfl, rfl⟩

/-! ### The end of the stream (R157) -/

/-- The state Done ends in, with the sink `sink` and the script `io`. -/
def doneWith (sink : List (List Byte)) (io : List IoEvent) (s : State) : State :=
  { s with
    result := .ok, engine := .idle, fsm := .done, sink := sink, io := io
    flushed := s.flushed + (s.produced - s.flushed) }

theorem doneCommand_of_none (hrest : s.produced - s.flushed = 0) :
    doneCommand s = .ok () (doneWith s.sink s.io s) := by
  rw [doneCommand, M.bind_of_ok (M.upd_apply _ _), M.bind_of_ok (M.reads_apply _ _), M.bind_of_ok (M.reads_apply _ _)]
  exact congrFun (if_pos hrest) _

theorem doneCommand_of_rest (hs : s.Quiet) (hrest : s.produced - s.flushed ≠ 0) :
    doneCommand s = .ok () (doneWith (s.sink ++ [s.unflushed]) s.io.tail s) := by
  rw [doneCommand, M.bind_of_ok (M.upd_apply _ _), M.bind_of_ok (M.reads_apply _ _), M.bind_of_ok (M.reads_apply _ _)]
  have hwrite := sinkWrite_of_quiet (s := { s with fsm := .done }) hs (halfBytes s (s.produced - s.flushed))
  exact (congrFun (if_neg hrest) _).trans (M.bind_of_ok hwrite)

/-- With no failing call the end of the stream leaves the unflushed bytes, if there are any, in one last call. -/
theorem tokenStep_at_end (hs : s.Quiet) (hend : ahead 1 s = []) : ∃ io, tokenStep s =
    .ok () (doneWith (if s.produced - s.flushed = 0 then s.sink else s.sink ++ [s.unflushed]) io s) := by
  have hread : tokenStep s = doneCommand { s with io := s.io.tail } := M.bind_of_ok (srcByte_at_end hs hend)
  by_cases hrest : s.produced - s.flushed = 0
  · rw [if_pos hrest]
    exact ⟨_, hread.trans (doneCommand_of_none hrest)⟩
  · rw [if_neg hrest]
    exact ⟨_, hread.trans (doneCommand_of_rest (quiet_tail hs) hrest)⟩

/-- Settles O44: the stream ends, and Done flushes the rest. -/
theorem endOfStreamFlushesTheRest : Obligations.EndOfStreamFlushesTheRest := by
  intro s he hf hquiet hend hcounters
  obtain ⟨-, hle, hlt, -, -⟩ := hcounters
  obtain ⟨io, hrun⟩ := tokenStep_at_end hquiet hend
  have hstep : step s = .next _ := (step_of_decompress he hf).trans (congrArg _ (settle_of_ok hrun))
  refine ⟨_, hstep, rfl, rfl, rfl, ?_, ?_, ?_, rfl⟩
  · have hrest : s.unflushed = _ := halfBytes_eq s (Nat.le_of_lt hlt)
    have hiff : s.produced - s.flushed = 0 ↔ s.produced = s.flushed := by omega
    simp only [doneWith, hrest, hiff]
  · show (ite _ _ _ : List (List Byte)).flatten = s.output
    split
    · next hnone => simp [State.output, State.unflushed, hnone, halfBytes]
    · simp [State.output]
  · exact Nat.add_sub_cancel' hle

/-! ### The errors of a token (R150, R151) -/

/-- The errors `m` raises are corrupt tokens in `A`, or failing stream calls. -/
def RaisesOnly (A : Corrupt → Prop) (m : M α) : Prop :=
  ∀ s e t, m s = .error e t → (∃ c, A c ∧ e = .corrupt c) ∨ ∃ w, e = .io w

variable {A : Corrupt → Prop}

theorem RaisesOnly.bind {m : M α} {f : α → M β} (hm : RaisesOnly A m) (hf : ∀ a, RaisesOnly A (f a)) :
    RaisesOnly A (m >>= f) := by
  intro s e t h
  rcases M.bind_eq_error h with h | ⟨a, u, -, h⟩
  · exact hm s e t h
  · exact hf a u e t h

/-- A piece that raises only IOErrors finds no corrupt token. -/
theorem RaisesOnly.not_corrupt {m : M α} (hm : RaisesOnly (fun _ => False) m) {c : Corrupt}
    (h : m s = .error (.corrupt c) t) : False := by
  rcases hm s _ t h with ⟨_, hfalse, -⟩ | ⟨w, hw⟩
  · exact hfalse
  · cases hw

theorem raisesOnly_pure (a : α) : RaisesOnly A (pure a : M α) := fun _ _ _ h => by cases h

theorem raisesOnly_reads (f : State → α) : RaisesOnly A (M.reads f) := fun _ _ _ h => by cases h

theorem raisesOnly_upd (f : State → State) : RaisesOnly A (M.upd f) := fun _ _ _ h => by cases h

theorem raisesOnly_sinkWrite (bytes : List Byte) : RaisesOnly A (sinkWrite bytes) := by
  intro s e t h
  rcases sinkWrite_cases bytes s with ⟨d, io, -, hr⟩ | hr <;> rw [hr] at h <;> cases h
  exact .inr ⟨_, rfl⟩

theorem raisesOnly_tokenByte (hA : A .truncatedToken) : RaisesOnly A tokenByte := by
  intro s e t h
  rcases tokenByte_cases s with ⟨d, io, -, hr⟩ | ⟨-, hr⟩ | ⟨x, -, hr⟩ <;> rw [hr] at h <;> cases h
  · exact .inr ⟨_, rfl⟩
  · exact .inl ⟨_, hA, rfl⟩

theorem raisesOnly_check {c : Option Corrupt} (hc : ∀ e, c = some e → A e) : RaisesOnly A (check c) := by
  intro s e t h
  cases c with
  | none => cases h
  | some c =>
    cases h
    exact .inl ⟨c, hc c rfl, rfl⟩

theorem raisesOnly_ringPut (x : Byte) : RaisesOnly A (ringPut x) := by
  intro s e t h
  rcases ringPut_cases x s with ⟨-, hr⟩ | ⟨-, io, sink, hr | hr⟩ <;> rw [hr] at h <;> cases h
  exact .inr ⟨_, rfl⟩

theorem raisesOnly_litPayload (hA : A .truncatedToken) (count : Nat) : RaisesOnly A (litPayload count) := by
  induction count with
  | zero => exact raisesOnly_pure ()
  | succ count ih => exact (raisesOnly_tokenByte hA).bind fun x => (raisesOnly_ringPut x).bind fun _ => ih

theorem raisesOnly_copyLoop (D count : Nat) : RaisesOnly A (copyLoop D count) := by
  induction count with
  | zero => exact raisesOnly_pure ()
  | succ count ih => exact (raisesOnly_reads _).bind fun x => (raisesOnly_ringPut x).bind fun _ => ih

/-- A field is illegal in one way only (R134 to R136). -/
theorem checkLitLength_eq_some {L : BitVec 15} {e : Corrupt} (h : Decode.checkLitLength L = some e) :
    e = .invalidLiteralLength := by
  rw [Decode.checkLitLength_eq] at h
  split at h <;> cases h
  rfl

theorem checkDistance_eq_some {D : BitVec 15} {e : Corrupt} (h : Decode.checkDistance D = some e) :
    e = .invalidMatchDistance := by
  rw [Decode.checkDistance_eq] at h
  split at h <;> cases h
  rfl

theorem checkMatchLength_eq_some {Lm : Byte} {e : Corrupt} (h : Decode.checkMatchLength Lm = some e) :
    e = .invalidMatchLength := by
  rw [Decode.checkMatchLength_eq] at h
  split at h <;> cases h
  rfl

/-- The errors of LIT (R150). -/
def LitError (c : Corrupt) : Prop :=
  c = .truncatedToken ∨ c = .invalidLiteralLength

/-- The errors of MATCH (R151). -/
def MatchError (c : Corrupt) : Prop :=
  c = .truncatedToken ∨ c = .invalidMatchDistance ∨ c = .invalidMatchLength

theorem raisesOnly_litCommand (b1 : Byte) : RaisesOnly LitError (litCommand b1) :=
  (raisesOnly_upd _).bind fun _ =>
  (raisesOnly_tokenByte (.inl rfl)).bind fun _ =>
  (raisesOnly_upd _).bind fun _ =>
  (raisesOnly_check fun _ h => .inr (checkLitLength_eq_some h)).bind fun _ =>
  (raisesOnly_litPayload (.inl rfl) _).bind fun _ => raisesOnly_upd _

theorem raisesOnly_matchCommand (b1 : Byte) : RaisesOnly MatchError (matchCommand b1) :=
  (raisesOnly_upd _).bind fun _ =>
  (raisesOnly_tokenByte (.inl rfl)).bind fun _ =>
  (raisesOnly_upd _).bind fun _ =>
  (raisesOnly_check fun _ h => .inr (.inl (checkDistance_eq_some h))).bind fun _ =>
  (raisesOnly_tokenByte (.inl rfl)).bind fun _ =>
  (raisesOnly_upd _).bind fun _ =>
  (raisesOnly_check fun _ h => .inr (.inr (checkMatchLength_eq_some h))).bind fun _ =>
  (raisesOnly_copyLoop _ _).bind fun _ =>
  (raisesOnly_tokenByte (.inl rfl)).bind fun x =>
  (raisesOnly_ringPut x).bind fun _ => raisesOnly_upd _

/-- The engine and the result, in an otherwise fixed state. -/
def outcomeOf (s : State) : State :=
  { State.reset with engine := s.engine, result := s.result }

theorem leaves_outcomeOf_iff : Leaves outcomeOf s t ↔ t.engine = s.engine ∧ t.result = s.result := by
  simp [Leaves, outcomeOf]

theorem litPieces_leaves_outcomeOf : LitPieces (Leaves outcomeOf) where
  toTokenPieces := tokenPieces_leaves fun _ _ => rfl
  fields _ _ _ := rfl

theorem matchPieces_leaves_outcomeOf : MatchPieces (Leaves outcomeOf) where
  toTokenPieces := tokenPieces_leaves fun _ _ => rfl
  fields _ _ _ := rfl
  length _ _ := rfl

/-- A token goes on at a token boundary, or its abort ends the command with one of its errors. -/
theorem settle_token_cases {m : M Unit} (hkeeps : Keeps (Leaves outcomeOf) m)
    (hfsm : AnswersIn (·.fsm = .readTokenHeader) m) (hraises : RaisesOnly A m) (s : State) :
    let t := settle m s
    (t.engine = s.engine ∧ t.result = s.result ∧ t.fsm = .readTokenHeader) ∨
    (t.engine = .idle ∧ ((∃ c, A c ∧ t.result = .error (.corrupt c)) ∨ ∃ w, t.result = .error (.io w))) := by
  cases h : m s with
  | ok _ t =>
    obtain ⟨hengine, hresult⟩ := leaves_outcomeOf_iff.mp (hkeeps.of_ok h)
    rw [settle_of_ok h]
    exact .inl ⟨hengine, hresult, hfsm s t h⟩
  | error e t =>
    rw [settle_of_error h]
    refine .inr ⟨rfl, ?_⟩
    rcases hraises s e t h with ⟨c, hc, rfl⟩ | ⟨w, rfl⟩
    · exact .inl ⟨c, hc, rfl⟩
    · exact .inr ⟨w, rfl⟩

/-- Settles O40: a token that goes on leaves the engine and the result, and its checks and reads raise its errors. -/
theorem tokensRaiseOnlyTheirErrors : Obligations.TokensRaiseOnlyTheirErrors := by
  refine fun s t b1 => ⟨fun h => ?_, fun h => ?_⟩
  · cases h
    refine (settle_token_cases (keeps_litCommand litPieces_leaves_outcomeOf b1) (answersIn_litCommand b1)
      (raisesOnly_litCommand b1) s).imp_right (And.imp_right ?_)
    rintro (⟨c, rfl | rfl, hc⟩ | hw)
    · exact .inl hc
    · exact .inr (.inl hc)
    · exact .inr (.inr hw)
  · cases h
    refine (settle_token_cases (keeps_matchCommand matchPieces_leaves_outcomeOf b1) (answersIn_matchCommand b1)
      (raisesOnly_matchCommand b1) s).imp_right (And.imp_right ?_)
    rintro (⟨c, rfl | rfl | rfl, hc⟩ | hw)
    · exact .inl hc
    · exact .inr (.inl hc)
    · exact .inr (.inr (.inl hc))
    · exact .inr (.inr (.inr hw))

/-! ### Corruption (R160) -/

/-- From `s` to `t` the sink got whole halves and nothing else. -/
def WholeHalves (s t : State) : Prop :=
  ∃ halves : List (List Byte), t.sink = s.sink ++ halves ∧ ∀ half ∈ halves, half.length = 4096

theorem WholeHalves.of_sink_eq (h : t.sink = s.sink) : WholeHalves s t :=
  ⟨[], by simp [h], nofun⟩

theorem WholeHalves.trans {u : State} (hst : WholeHalves s t) (htu : WholeHalves t u) : WholeHalves s u := by
  obtain ⟨xs, hxs, hxs'⟩ := hst
  obtain ⟨ys, hys, hys'⟩ := htu
  exact ⟨xs ++ ys, by rw [hys, hxs, List.append_assoc], List.forall_mem_append.mpr ⟨hxs', hys'⟩⟩

/-- Whether the piece goes on or finds a corrupt token, the sink got whole halves. -/
structure PutsHalves (m : M α) : Prop where
  ok : ∀ {s a t}, m s = .ok a t → WholeHalves s t
  corrupt : ∀ {s c t}, m s = .error (.corrupt c) t → WholeHalves s t

theorem PutsHalves.bind {m : M α} {f : α → M β} (hm : PutsHalves m) (hf : ∀ a, PutsHalves (f a)) :
    PutsHalves (m >>= f) where
  ok h := by
    obtain ⟨a, u, hu, ht⟩ := M.bind_eq_ok h
    exact (hm.ok hu).trans ((hf a).ok ht)
  corrupt h := by
    rcases M.bind_eq_error h with ht | ⟨a, u, hu, ht⟩
    · exact hm.corrupt ht
    · exact (hm.ok hu).trans ((hf a).corrupt ht)

/-- From `s` to `t` the sink stands. -/
def SinkKept (s t : State) : Prop :=
  t.sink = s.sink

/-- A piece that leaves the sink alone. -/
theorem putsHalves_of_keeps {m : M α} (h : Keeps SinkKept m) : PutsHalves m where
  ok hr := .of_sink_eq (h.of_ok hr)
  corrupt {s _ _} hr := .of_sink_eq (by simpa only [hr, SinkKept] using h s)

theorem keeps_sink_tokenByte : Keeps SinkKept tokenByte := by
  intro s
  rcases tokenByte_cases s with ⟨d, io, -, hr⟩ | ⟨-, hr⟩ | ⟨x, -, hr⟩ <;> simp only [hr, SinkKept, advance_sink]

/-- RingPut flushes whole halves, and finds no corrupt token. -/
theorem putsHalves_ringPut (x : Byte) : PutsHalves (ringPut x) where
  ok {s _ _} h := by
    rcases ringPut_eq_ok h with ⟨-, rfl⟩ | ⟨-, rfl⟩
    · exact .of_sink_eq rfl
    · refine ⟨[halfBytes (storeByte x s) Config.H], rfl, fun half hhalf => ?_⟩
      rw [List.mem_singleton.mp hhalf]
      exact (List.length_map ..).trans List.length_range
  corrupt {s _ _} h := ((raisesOnly_ringPut x).not_corrupt h).elim

theorem tokenProperty_putsHalves : TokenProperty PutsHalves where
  bind := PutsHalves.bind
  pure a := putsHalves_of_keeps (keeps_pure (R := SinkKept) (fun _ => rfl) a)
  reads f := putsHalves_of_keeps (keeps_reads (R := SinkKept) (fun _ => rfl) f)
  fields hf := putsHalves_of_keeps (keeps_upd fun s => by rw [hf]; rfl)
  byte := putsHalves_of_keeps keeps_sink_tokenByte
  check {c} _ := putsHalves_of_keeps (keeps_check (R := SinkKept) (fun _ => rfl) c)
  put := putsHalves_ringPut

/-- Done ends OK in Idle (R157). -/
theorem answersIn_doneCommand : AnswersIn (fun s => s.result = .ok ∧ s.engine = .idle) doneCommand := by
  refine .bind fun _ => .bind fun count => .bind fun rest => ?_
  dsimp only
  split
  · exact .bind fun _ => answersIn_upd fun _ => ⟨rfl, rfl⟩
  · exact .bind fun _ => .bind fun _ => answersIn_upd fun _ => ⟨rfl, rfl⟩

/-- Done raises no error but that of its write (R157). -/
theorem raisesOnly_doneCommand : RaisesOnly A doneCommand := by
  refine (raisesOnly_upd _).bind fun _ =>
    (raisesOnly_reads _).bind fun count =>
    (raisesOnly_reads _).bind fun rest => ?_
  have hend : RaisesOnly A (do
      M.upd fun s => { s with flushed := s.flushed + count }
      M.upd complete) := (raisesOnly_upd _).bind fun _ => raisesOnly_upd _
  dsimp only
  split
  · exact hend
  · exact (raisesOnly_sinkWrite rest).bind fun _ => hend

/-- Settles O47: what a corrupt token ends is a token, and Done and the header read raise no such error. -/
theorem corruptionStopsTheOutput : Obligations.CorruptionStopsTheOutput := by
  intro s t c he hstep _ hresult
  rw [step_of_decompress he (fsm_of_step_of_decompress he hstep)] at hstep
  obtain rfl : settle tokenStep s = t := by cases hstep; rfl
  show WholeHalves s (settle tokenStep s)
  cases hr : tokenStep s with
  | ok _ t =>
    rw [settle_of_ok hr] at hresult ⊢
    rcases tokenStep_read_cases s with ⟨io, h⟩ | h | ⟨b1, h⟩ <;> rw [h] at hr
    · cases hr
    · simp [(answersIn_doneCommand _ _ hr).1] at hresult
    · have hputs : WholeHalves (byteRead s) t := (tokenProperty_putsHalves.tokenOf b1).ok hr
      exact hputs
  | error e t =>
    rw [settle_of_error hr] at hresult ⊢
    obtain rfl : e = .corrupt c := by simpa using hresult
    rcases tokenStep_read_cases s with ⟨io, h⟩ | h | ⟨b1, h⟩ <;> rw [h] at hr
    · cases hr
    · exact (raisesOnly_doneCommand.not_corrupt hr).elim
    · have hputs : WholeHalves (byteRead s) t := (tokenProperty_putsHalves.tokenOf b1).corrupt hr
      exact hputs

/-! ### The step on a corrupt token (R160, R174) -/

/-- The source gives no more than `n` bytes. -/
def EndsWithin (n : Nat) (s : State) : Prop :=
  s.endless = none ∧ s.source.length ≤ n

/-- A source that ends gives the same bytes however many more are asked for. -/
theorem EndsWithin.ahead_eq {n k : Nat} (h : EndsWithin n s) (hk : (ahead n s).length ≤ k) :
    ahead k s = ahead n s := by
  obtain ⟨hendless, hlength⟩ := h
  have hall : ahead n s = s.source := by rw [ahead_of_ends hendless, List.take_of_length_le hlength]
  rw [hall] at hk ⊢
  rw [ahead_of_ends hendless, List.take_of_length_le hk]

/-- LIT reports the error that the decoder of whole tokens finds after the header byte. -/
theorem exec_lit_of_corrupt (hquiet : s.Quiet) (hcounters : DecoderOk s) (hring : Mem.WF s.ring) {b1 : Byte} {n : Nat}
    {c : Corrupt} (hdecode : Decode.litToken b1 (ahead n s) = .error c)
    (hends : c = .truncatedToken → EndsWithin n s) :
    ∃ t, exec (.lit b1) s = .next t ∧ t.result = .error (.corrupt c) ∧ t.engine = .idle := by
  obtain ⟨hnone, hlength, hpayload⟩ := litReportsItsErrors s b1 hquiet
  cases hin : ahead n s with
  | nil =>
    rw [hin] at hdecode
    cases hdecode
    have hend := (hends rfl).ahead_eq (k := 1) (by simp [hin])
    exact ⟨_, hnone (hend.trans hin), rfl, rfl⟩
  | cons b2 rest =>
    have hb2 : ahead 1 s = [b2] := ahead_of_append (xs := [b2]) hin
    rw [hin] at hdecode
    by_cases hlegal : 1 ≤ (Decode.field b1 b2).toNat ∧ (Decode.field b1 b2).toNat ≤ 16383
    · rw [Decode.litToken_of_legal hlegal] at hdecode
      split at hdecode
      · next hshort =>
        cases hdecode
        have hall := (hends rfl).ahead_eq (k := 1 + (Decode.field b1 b2).toNat) (by simp [hin]; omega)
        obtain ⟨t, hrun, hresult, hidle, -⟩ :=
          hpayload b2 rest hcounters hring (hall.trans hin) hlegal.1 hlegal.2 hshort
        exact ⟨t, hrun, hresult, hidle⟩
      · cases hdecode
    · rw [Decode.litToken_of_illegal hlegal] at hdecode
      cases hdecode
      exact ⟨_, hlength b2 hb2 (by omega), rfl, rfl⟩

/-- MATCH reports the error that the decoder of whole tokens finds after the header byte. -/
theorem exec_match_of_corrupt (hquiet : s.Quiet) (hcounters : DecoderOk s) (hring : Mem.WF s.ring) {b1 : Byte}
    {n : Nat} {c : Corrupt} (hdecode : Decode.matchToken b1 (ahead n s) = .error c)
    (hends : c = .truncatedToken → EndsWithin n s) :
    ∃ t, exec (.matchTok b1) s = .next t ∧ t.result = .error (.corrupt c) ∧ t.engine = .idle := by
  obtain ⟨hnone, hdistance, hnoLength, hlength, hnoTrail⟩ := matchReportsItsErrors s b1 hquiet
  rcases hin : ahead n s with _ | ⟨b2, rest⟩
  · rw [hin] at hdecode
    cases hdecode
    have hend := (hends rfl).ahead_eq (k := 1) (by simp [hin])
    exact ⟨_, hnone (hend.trans hin), rfl, rfl⟩
  have hb2 : ahead 1 s = [b2] := ahead_of_append (xs := [b2]) hin
  rw [hin] at hdecode
  by_cases hD : 1 ≤ (Decode.field b1 b2).toNat ∧ (Decode.field b1 b2).toNat ≤ 8192
  swap
  · rw [Decode.matchToken_of_illegal_distance hD] at hdecode
    cases hdecode
    exact ⟨_, hdistance b2 hb2 (by omega), rfl, rfl⟩
  rcases rest with _ | ⟨b3, rest⟩
  · rw [Decode.matchToken_of_no_length hD] at hdecode
    cases hdecode
    have hend := (hends rfl).ahead_eq (k := 2) (by simp [hin])
    exact ⟨_, hnoLength b2 (hend.trans hin) hD.1 hD.2, rfl, rfl⟩
  have hb3 : ahead 2 s = [b2, b3] := ahead_of_append (xs := [b2, b3]) hin
  by_cases hLm : 3 ≤ b3.toNat
  swap
  · rw [Decode.matchToken_of_illegal_length hD hLm] at hdecode
    cases hdecode
    exact ⟨_, hlength b2 b3 hb3 hD.1 hD.2 (by omega), rfl, rfl⟩
  rcases rest with _ | ⟨b4, rest⟩
  · rw [Decode.matchToken_of_no_trail hD hLm] at hdecode
    cases hdecode
    have hend := (hends rfl).ahead_eq (k := 3) (by simp [hin])
    obtain ⟨t, hrun, hresult, hidle, -⟩ := hnoTrail b2 b3 hcounters hring (hend.trans hin) hD.1 hD.2 hLm
    exact ⟨t, hrun, hresult, hidle⟩
  · rw [Decode.matchToken_of_legal hD hLm] at hdecode
    cases hdecode

/-- Settles O46: the header byte is read, and the instruction it selects reports the error (O38, O39) after whole halves
(O47). -/
theorem stepNamesTheCorruptToken : Obligations.StepNamesTheCorruptToken := by
  intro s n c he hf hquiet hcounters hring hdecode hends
  rcases hin : ahead n s with _ | ⟨b1, rest⟩
  · rw [hin] at hdecode
    cases hdecode
  have hlength : rest.length < n := by
    have hle := length_ahead_le n s
    rwa [hin] at hle
  obtain ⟨m, rfl⟩ := Nat.exists_eq_add_of_le (Nat.one_le_of_lt hlength)
  obtain ⟨hb1, hrest⟩ := ahead_one_of_ahead_cons hin
  have hends' : c = .truncatedToken → EndsWithin m (byteRead s) := by
    intro hc
    obtain ⟨hnone, hle⟩ := hends hc
    refine ⟨Option.map_eq_none_iff.mpr hnone, ?_⟩
    rw [byteRead, advance_source, List.length_drop]
    omega
  obtain ⟨-, -, hfetch⟩ := stepRunsTheFetchedInstruction
  have hrun : ∃ t, step s = .next t ∧ t.result = .error (.corrupt c) ∧ t.engine = .idle := by
    rw [hfetch s b1 he hf hquiet hb1]
    rw [hin, ← hrest] at hdecode
    cases htype : b1.getLsbD 0 with
    | true =>
      rw [Decode.token_of_lit htype] at hdecode
      rw [show Decode.instr (.header b1) = .lit b1 from Laws.RoundTrip.lit b1 htype]
      exact exec_lit_of_corrupt (s := { byteRead s with b1 := b1 }) (quiet_tail hquiet) hcounters hring
        (Option.some.inj hdecode) hends'
    | false =>
      rw [Decode.token_of_match htype] at hdecode
      rw [show Decode.instr (.header b1) = .matchTok b1 from Laws.RoundTrip.matchTok b1 htype]
      exact exec_match_of_corrupt (s := { byteRead s with b1 := b1 }) (quiet_tail hquiet) hcounters hring
        (Option.some.inj hdecode) hends'
  obtain ⟨t, hstep, hresult, hidle⟩ := hrun
  exact ⟨t, hstep, hresult, hidle, corruptionStopsTheOutput s t c he hstep hidle hresult⟩

end Sys2Proof.Machine

/-! The rules of whole commands of DECOMPRESS: a token program runs to its end (spec/43_decompressor.md R146, R158), and
every step keeps the ring the history of the output (R155, R159), whatever the stream calls answer. -/

namespace Sys2Proof.Machine

variable {s t : State}

/-! ### A token program among other calls (R146, R158) -/

/-- A program that runs to its end leaves the host's later calls waiting. -/
theorem AtProgram.host_of_run {ts : List Token} (h : AtProgram ts s) (hwf : ∀ tok ∈ ts, tok.WellFormed)
    (hrun : Host.Core.run Sys2Proof.core (ts.length + 1) s = .next t) : t.host = s.host := by
  have hrunning : s.engine ≠ .idle := by simp [h.engine]
  induction ts generalizing s with
  | nil =>
    obtain ⟨u, hstep, -⟩ := h.step_nil
    obtain rfl : u = t := by
      rw [show Host.Core.run Sys2Proof.core ([].length + 1) s = .next u from run_succ hstep 0] at hrun
      cases hrun
      rfl
    exact (streamsForward_of_running hrunning hstep).host
  | cons tok ts ih =>
    obtain ⟨htok, hts⟩ := List.forall_mem_cons.mp hwf
    obtain ⟨u, hstep, hu, -⟩ := h.step_cons htok
    have hrest := ih hu hts ((run_succ hstep _).symm.trans hrun) (by simp [hu.engine])
    exact hrest.trans (streamsForward_of_running hrunning hstep).host

/-- Settles O50: the call starts DECOMPRESS at the program, and each step carries out the token that comes next. -/
theorem tokenProgramRunsToItsEnd : Obligations.TokenProgramRunsToItsEnd := by
  intro s c later ts he hhost hrecord hio hwf hsource hendless
  have hstart : AtProgram ts (resetBlock .decompress (accept c later s)) :=
    atProgram_resetBlock hio hsource hendless rfl
  have hstep : step s = .next (resetBlock .decompress (accept c later s)) := by
    have hchecked : checkPreconditions (accept c later s) = .ok () (accept c later s) :=
      checkPreconditions_of_present (by simp [hrecord]) (by simp [hrecord])
    rw [step_of_call he hhost, hrecord]
    exact congrArg Host.Outcome.next (settle_of_ok (M.bind_of_ok hchecked))
  obtain ⟨t, hrun, hresult, hidle, hsink⟩ := hstart.run hwf
  exact ⟨t, (run_succ hstep _).trans hrun, hresult, hidle, hsink, hstart.host_of_run hwf hrun⟩

/-! ### The history of the output under any script (R155, R159) -/

/-- `s` with no answers of the oracle to come: every stream call succeeds. -/
def unscripted (s : State) : State :=
  { s with io := [] }

theorem historyReady_unscripted (hcounters : DecoderOk s) (hring : Mem.WF s.ring) (h : HistoryOk s) :
    HistoryReady (unscripted s) :=
  ⟨⟨nofun, hcounters, hring⟩, h⟩

/-- A RingPut that goes on does the same with no script. -/
theorem ringPut_unscripted {x : Byte} (h : ringPut x s = .ok () t) :
    ringPut x (unscripted s) = .ok () (unscripted t) := by
  rcases ringPut_of_quiet (s := unscripted s) nofun x with ⟨hin, hquiet⟩ | ⟨hend, hquiet⟩ <;>
    rcases ringPut_eq_ok h with ⟨hin', rfl⟩ | ⟨hend', rfl⟩
  · exact hquiet
  · exact absurd hend' hin
  · exact absurd hend hin'
  · exact hquiet

/-- Where the piece goes on it keeps the history, whatever the script. -/
def KeepsHistoryUnscripted {α : Type} (m : M α) : Prop :=
  Ensures (fun _ => True) (fun s => HistoryReady (unscripted s)) m fun _ s => HistoryReady (unscripted s)

theorem keepsHistoryUnscripted_tokenByte : KeepsHistoryUnscripted tokenByte := by
  refine ⟨fun {s x t} hs h => ?_, fun _ _ => trivial⟩
  rcases tokenByte_cases s with ⟨d, io, -, hr⟩ | ⟨-, hr⟩ | ⟨b, -, hr⟩ <;> rw [hr] at h <;> cases h
  exact hs.read

theorem tokenProperty_keepsHistoryUnscripted : TokenProperty KeepsHistoryUnscripted where
  bind hm hf := Ensures.bind hm hf
  pure _ := ensures_pure fun _ hs => hs
  reads _ := ensures_reads fun _ hs => hs
  fields hf := ensures_upd fun s hs =>
    hf s ▸ ⟨(carries_withFields hs.toReady _).ready, hs.history⟩
  byte := keepsHistoryUnscripted_tokenByte
  check {c} _ := by
    cases c with
    | none => exact ensures_pure fun _ hs => hs
    | some e => exact ensures_raise fun _ _ => trivial
  put _ := ⟨fun hs h => ringPut_keeps_history hs (ringPut_unscripted h), fun _ _ => trivial⟩

/-! ### Every step keeps the history -/

/-- COMPRESS does not enter DECOMPRESS. -/
theorem engine_ne_decompress_of_compress
    (h : exec .compress s = .next t ∨ (s.engine = .compress ∧ step s = .next t)) : t.engine ≠ .decompress := by
  rcases compressNeverReportsCorruption s t h with ⟨he, -⟩ | ⟨he, -⟩ <;> simp [he]

/-- The ring and the output of a reset block are empty. -/
theorem historyOk_resetBlock (hsink : s.sink = []) : HistoryOk (resetBlock .decompress s) :=
  (atProgram_resetBlock (s := { s with source := [], endless := none, io := [] }) (ts := []) nofun rfl rfl
    hsink).history

/-- A token that ends at a token boundary keeps the history; the end of the stream leaves DECOMPRESS. -/
theorem historyOk_of_tokenStep (hcounters : DecoderOk s) (hring : Mem.WF s.ring) (hs : HistoryOk s)
    (h : tokenStep s = .ok () t) : t.engine = .idle ∨ HistoryOk t := by
  rcases tokenStep_read_cases s with ⟨io, hr⟩ | hr | ⟨b1, hr⟩ <;> rw [hr] at h
  · cases h
  · exact .inl (answersIn_doneCommand _ _ h).2
  · have hread : HistoryReady (unscripted (byteRead s)) := historyReady_unscripted hcounters hring hs
    exact .inr ((tokenProperty_keepsHistoryUnscripted.tokenOf b1).ok hread h).history

/-- Settles O58: DECOMPRESS starts with an empty history, its tokens keep the history by their ring writes, and every
other step ends outside DECOMPRESS. -/
theorem ringStaysTheOutputHistory : Obligations.RingStaysTheOutputHistory := by
  rintro s t ⟨hinv, hhistory⟩ hring hstep
  refine ⟨decoderCountersStayConsistent s t hinv hstep, fun he => ?_⟩
  cases stepsTo_of_step hstep with
  | waits => exact hhistory he
  | compress c later => exact absurd he (engine_ne_decompress_of_compress (.inl rfl))
  | decompress c later =>
    rcases settle_decompressCommand_cases (accept c later s) with ⟨e, h⟩ | h <;> rw [h] at he ⊢
    · simp at he
    · exact historyOk_resetBlock rfl
  | refills hs => exact absurd he (engine_ne_decompress_of_compress (.inr ⟨hs, hstep⟩))
  | token hs =>
    obtain ⟨-, hcounters⟩ := (decoderInv_iff.mp hinv).2 hs
    cases hr : tokenStep s with
    | ok _ u =>
      rw [settle_of_ok hr] at he ⊢
      refine (historyOk_of_tokenStep hcounters hring (hhistory hs) hr).resolve_left ?_
      simp [he]
    | error e u =>
      rw [settle_of_error hr] at he
      simp at he

end Sys2Proof.Machine

/-! The exceptions of the block (spec/60_exceptions.md R171 to R176, R182): the result of each error, the failing stream
calls with the abort that follows them, and that no error stops the machine. -/

namespace Sys2Proof.Machine

/-! ### Every step answers (R175, R182) -/

/-- An instruction that raises an error takes the abort, which is a next state. -/
theorem exec_answers (i : Instr) (s : State) : ∃ t, exec i s = .next t := by
  cases i with
  | lit b1 => exact ⟨_, rfl⟩
  | matchTok b1 => exact ⟨_, rfl⟩
  | compress => exact ⟨_, rfl⟩
  | decompress => exact ⟨_, rfl⟩

/-- A step answers, but for the fault of a DECOMPRESS that stands in the middle of a token. -/
theorem step_answers_or_midToken (s : State) : (∃ t, step s = .next t) ∨
    (s.engine = .decompress ∧ s.fsm ≠ .readTokenHeader ∧ step s = .fault .midToken) := by
  cases he : s.engine with
  | idle =>
    cases hh : s.host with
    | nil => exact .inl ⟨s, stepRunsTheFetchedInstruction.1 s he hh⟩
    | cons c later =>
      rw [step_of_call he hh]
      exact .inl (exec_answers _ _)
  | compress => exact .inl ⟨_, step_of_compress he⟩
  | decompress =>
    by_cases hf : s.fsm = .readTokenHeader
    · exact .inl ⟨_, step_of_decompress he hf⟩
    · exact .inr ⟨rfl, hf, by simp only [step, fetch, he, if_neg hf]⟩

/-- Settles O55: the invariant puts a running DECOMPRESS at a token boundary, and the one stop elsewhere is a fault. -/
theorem everyStepAnswers : Obligations.EveryStepAnswers := by
  refine ⟨fun s hinv => ?_, fun s r hrefused => ?_⟩
  · rcases step_answers_or_midToken s with h | ⟨he, hf, -⟩
    · exact h
    · obtain ⟨hboundary, -⟩ := (decoderInv_iff.mp hinv).2 he
      exact absurd hboundary hf
  · rcases step_answers_or_midToken s with ⟨t, h⟩ | ⟨-, -, h⟩ <;> rw [hrefused] at h <;> cases h

/-! ### The result of each error (R172) -/

theorem Result.code_ne_seven (r : Result) : r.code ≠ 7 := by
  cases r with
  | ok => decide
  | error e =>
    cases e with
    | precondition which => cases which <;> decide
    | corrupt what => cases what <;> decide
    | io which => cases which <;> decide

/-- Settles O2: the codes and the stream names are those of the definitions, case by case. -/
theorem resultCodesFollowTheTable : Obligations.ResultCodesFollowTheTable := by
  refine ⟨rfl, fun _ => rfl, rfl, rfl, rfl, rfl, fun _ => rfl, Result.code_ne_seven, fun r => ?_⟩
  cases r with
  | ok => rfl
  | error e =>
    cases e with
    | precondition which => rfl
    | corrupt what => rfl
    | io which => rfl

/-! ### A failing stream call (R176) -/

theorem sinkWrite_of_fail {s : State} {d : Nat} {io : List IoEvent} (hio : s.io = .fail d :: io) (bytes : List Byte) :
    sinkWrite bytes s = .error (.io .sink) { s with io := io, sink := s.sink ++ [bytes.take d] } := by
  simp only [sinkWrite, hio]

/-- Settles O48: each call takes the failure from the script, and an error of a command piece is settled by the
abort. -/
theorem failedStreamCallsRaiseIoErrors : Obligations.FailedStreamCallsRaiseIoErrors :=
  ⟨fun _ _ n _ hio => ⟨srcRead_of_fail hio n, srcByte_of_fail hio, sinkWrite_of_fail hio⟩,
    fun _ _ _ _ herror => settle_of_error herror⟩

end Sys2Proof.Machine

/-! The reset at power-up and at the start of a command (spec/70_reset_and_hazards.md R196 to R199): what the memories
of a reset block read as, where DECOMPRESS begins, and that the power-up state meets every invariant. -/

namespace Sys2Proof.Machine

/-! ### The memories of a reset block (R197, R198) -/

@[simp] theorem windowByte_resetBlock (e : Engine) (s : State) (i : Nat) : windowByte (resetBlock e s) i = 0 := by
  rw [windowByte, resetBlock_wb, Mem.read_nil]

@[simp] theorem slotOf_resetBlock (e : Engine) (s : State) (h : BitVec 13) (j : Nat) :
    slotOf (resetBlock e s) h j = 0 := by
  rw [slotOf, resetBlock_slots, Mem.read_nil]

@[simp] theorem counterOf_resetBlock (e : Engine) (s : State) (h : BitVec 13) : counterOf (resetBlock e s) h = 0 := by
  rw [counterOf, resetBlock_rr, Mem.read_nil]

/-- Settles O54: the memories of a reset block read as 0 at every index, and each register has the value the reset
writes. -/
theorem resetValuesOfTheCompressor : Obligations.ResetValuesOfTheCompressor := by
  refine ⟨rfl, fun e s => ?_⟩
  simp

/-! ### The start of DECOMPRESS (R196, R199) -/

theorem exec_decompress_of_checked {s : State} (h : checkPreconditions s = .ok () s) :
    exec .decompress s = .next (resetBlock .decompress s) :=
  congrArg Host.Outcome.next (settle_of_ok (M.bind_of_ok h))

/-- Settles O42: with both streams present the start of DECOMPRESS is the reset of the block. -/
theorem decompressBeginsAtATokenHeader : Obligations.DecompressBeginsAtATokenHeader := by
  intro s hsrc hsink
  refine ⟨_, exec_decompress_of_checked (checkPreconditions_of_present hsrc hsink), ?_⟩
  simp

/-! ### The power-up state (log entries 8 to 12) -/

/-- A reset with the engine Idle leaves the power-up state as it is, so what holds of every reset block holds of it. -/
theorem resetBlock_reset : resetBlock .idle State.reset = State.reset := rfl

theorem memoryInv_resetBlock (e : Engine) (s : State) : MemoryInv (resetBlock e s) :=
  ⟨⟨Mem.wf_nil, List.forall_mem_nil _⟩, ⟨Mem.wf_nil, List.forall_mem_nil _⟩, ⟨Mem.wf_nil, List.forall_mem_nil _⟩,
    Mem.wf_nil, List.forall_mem_nil _⟩

/-- Settles O60: the power-up state is a reset block, whose memories are empty and whose counters and registers are in
range, and no command runs in it. -/
theorem resetMeetsTheInvariants : Obligations.ResetMeetsTheInvariants := by
  rw [Obligations.ResetMeetsTheInvariants, ← resetBlock_reset]
  have hdecoder : DecoderInv (resetBlock .idle State.reset) := decoderInv_of_ne (countersOk_resetBlock _ _) (by simp)
  have hhistory : HistoryInv (resetBlock .idle State.reset) := ⟨hdecoder, fun he => absurd he (by simp)⟩
  have hcompressor : CompressorInv (resetBlock .idle State.reset) :=
    compressorInv_of_ne (registersInRange_resetBlock _ _) (by simp)
  exact ⟨memoryInv_resetBlock _ _, hdecoder, hhistory, hcompressor⟩

end Sys2Proof.Machine
